-- ==== Sys2Proof/Word.lean ====
section
/-! DEFINITION. The value types of 10_state.md R20 and the command word of 30_encoding.md R90. No value is signed. -/

namespace Sys2Proof

/-- 8-bit unsigned (R20). -/
abbrev Byte := BitVec 8

/-- A 7-bit bus target address, 0x00 to 0x7F (R20). -/
abbrev Addr7 := BitVec 7

/-- The remaining-byte count, unsigned, at most the eight bits the encoding gives it (R20, 30_encoding.md R92). A smaller
`COUNT_WIDTH` keeps the low bits (log 14). -/
abbrev Count := BitVec 8

/-- A ring index: at most eight bits, since no capacity is above 256 (R20, 00_scope.md R7; log 14). -/
abbrev Idx := BitVec 8

/-- The 24-bit value operand of format V24 (30_encoding.md R91). -/
abbrev Val24 := BitVec 24

/-- One command word (30_encoding.md R90). -/
abbrev Word := BitVec 32

end Sys2Proof
end

