-- ==== Sys2Proof/Config.lean ====
section
/-! DEFINITION. The implementation parameters of 00_scope.md R7 and R12 as plain data, the steps a scheduler can choose
(30_encoding.md R113), and the one free value of the model: which step is chosen next (60_exceptions.md R250, R254). -/

namespace Sys2Proof

namespace Config

/-- `RX_OVERFLOW_POLICY` (R7): what the receive handler does when the ring holds `C_RX - 1` bytes. -/
inductive OverflowPolicy where
  | wrap
  | dropNew
deriving DecidableEq, Repr, Inhabited

/-- The parity part of `FRAME_FORMAT` (R7). R7 leaves it OPEN; that it is one of these five is PRESUMED (log 28). -/
inductive Parity where
  | none
  | even
  | odd
  | mark
  | space
deriving DecidableEq, Repr, Inhabited

/-- `FRAME_FORMAT` (R7): data bits, parity, stop bits, the last counted in half bits, so that one and a half can be given.
R7 leaves it OPEN; its shape is PRESUMED (log 28). No rule reads it (93_implementation_defined.md U5). -/
structure FrameFormat where
  dataBits : Nat
  parity : Parity
  stopHalfBits : Nat
deriving DecidableEq, Repr, Inhabited

/-- Where one abstract register field sits: a data address and the field's lowest bit position (R12). -/
structure Place where
  addr : Nat
  bit : Nat
deriving DecidableEq, Repr, Inhabited

/-- `HW_PROFILE` (R12): a place for every abstract register field of 10_state.md. No rule reads it; only the
register bytes of Machine/Flags.lean do. `uartDiv` holds one place for each eight bits of the divisor, the low ones first
(log 19). -/
structure HwProfile where
  busInt : Place
  busAck : Place
  busSta : Place
  busSto : Place
  busEn : Place
  busIe : Place
  busData : Place
  busDiv : Place
  busStatus : Place
  rxcie : Place
  udrie : Place
  rxen : Place
  txen : Place
  rxc : Place
  udre : Place
  rxData : Place
  txData : Place
  uartDiv : List Place
  gie : Place
deriving DecidableEq, Repr, Inhabited

/-- The parameters a launch fixes (R7). `busDivisor` is `BUS_DIVISOR` as a list of (speed class in kHz, divisor byte), and
`BUS_SPEEDS` is its domain; `uartDivisor` is the partial function `UART_DIVISOR` as a list of (baud rate, divisor), and its
domain is the listed baud rates. -/
structure Params where
  capRx : Nat
  capTx : Nat
  idxWidth : Nat
  addrWidth : Nat
  countWidth : Nat
  ovfWidth : Nat
  rxPolicy : OverflowPolicy
  rxHwDepth : Nat
  busDivisor : List (Nat × Byte)
  uartDivisor : List (Nat × Nat)
  uartDivWidth : Nat
  frameFormat : FrameFormat
  printBuf : Nat
  hwProfile : HwProfile
deriving DecidableEq, Repr, Inhabited

/-- `BUS_SPEEDS` (R7): the accepted speed classes, in kHz (log 24). -/
def Params.busSpeeds (p : Params) : List Nat := p.busDivisor.map Prod.fst

end Config

/-- One schedulable step (00_scope.md R4, 30_encoding.md R113). `busComplete` carries the two draws of 40_bus_engine.md R136:
the byte the slave drives and the value `BUS_STATUS` takes (log 16); `busStopDone` carries the value `BUS_STATUS` takes
(10_state.md R29; log 29). -/
inductive AgentStep where
  /-- one micro-step of the foreground `FG` -/
  | fg
  /-- `BUS_HW.COMPLETE(d)` -/
  | busComplete (d status : Byte)
  /-- `BUS_HW.STOP_DONE` -/
  | busStopDone (status : Byte)
  /-- `UART_RX_HW.ARRIVE` -/
  | rxArrive
  /-- `UART_RX_HW.DROP` -/
  | rxDrop
  /-- `UART_TX_HW.SHIFT` -/
  | txShift
  /-- `ISR_RX` -/
  | isrRx
  /-- `ISR_TX` -/
  | isrTx
deriving DecidableEq, Repr, Inhabited

/-- The free choice of the next step where the launch's schedule lists none (R4, R250, R254; log 3). Uninterpreted: nothing
constrains it. -/
opaque Config.freeStep : Nat → AgentStep

end Sys2Proof
end

