-- ==== Sys2Proof/Syntax.lean ====
section
/-! DEFINITION. The thirteen operations of 30_encoding.md R95, one constructor per row of the opcode table. Each operand has
exactly the width of its field (R92, R93), so no operand out of its field's range can be written. -/

namespace Sys2Proof

/-- A command: one source call (30_encoding.md R95). -/
inductive Instr where
  /-- bus `begin(speedClass)`; `v` is the speed class in kHz (R94, R127). -/
  | busBegin (v : Val24)
  /-- `beginTransmission(address)` (R128). -/
  | busBeginTx (addr : Addr7)
  /-- bus `write(byte)` (R129). -/
  | busWrite (d : Byte)
  /-- `requestFrom(address, count)` (R130). -/
  | busRequestFrom (addr : Addr7) (count : Count)
  /-- `read()`; no acknowledgement operand is encoded (R131, R134). -/
  | busRead
  /-- `endTransmission()` (R132). -/
  | busEndTx
  /-- transport `begin(baudRate)`; `v` is the baud rate in bit/s (R94, R171). -/
  | uartBegin (v : Val24)
  /-- `send(byte)` (R173). -/
  | uartSend (d : Byte)
  /-- `available()` (R175). -/
  | uartAvailable
  /-- the consumer dequeue (R176). -/
  | uartReceive
  /-- `flush()` (R177). -/
  | uartFlush
  /-- interrupts disabled (R220). -/
  | irqDisable
  /-- interrupts re-enabled (R221). -/
  | irqEnable
deriving DecidableEq, Repr

end Sys2Proof
end

