-- ==== Sys2Proof/Decode.lean ====
section
/-! DEFINITION. Decoding of command words and of the bytes that store them, and encoding, both from the tables of
30_encoding.md (R91, R92, R93, R95, R105, R108). -/

namespace Sys2Proof

/-- The mnemonics of R95. -/
inductive Mnemonic where
  | BUS_BEGIN
  | BUS_BEGIN_TX
  | BUS_WRITE
  | BUS_REQUEST_FROM
  | BUS_READ
  | BUS_END_TX
  | UART_BEGIN
  | UART_SEND
  | UART_AVAILABLE
  | UART_RECEIVE
  | UART_FLUSH
  | IRQ_DISABLE
  | IRQ_ENABLE
deriving DecidableEq, Repr

/-- The row of R95 an instruction belongs to. -/
def Instr.mnemonic : Instr → Mnemonic
  | .busBegin _ => .BUS_BEGIN
  | .busBeginTx _ => .BUS_BEGIN_TX
  | .busWrite _ => .BUS_WRITE
  | .busRequestFrom _ _ => .BUS_REQUEST_FROM
  | .busRead => .BUS_READ
  | .busEndTx => .BUS_END_TX
  | .uartBegin _ => .UART_BEGIN
  | .uartSend _ => .UART_SEND
  | .uartAvailable => .UART_AVAILABLE
  | .uartReceive => .UART_RECEIVE
  | .uartFlush => .UART_FLUSH
  | .irqDisable => .IRQ_DISABLE
  | .irqEnable => .IRQ_ENABLE

/-- One row of the opcode map (R95): a word spells the row's operation exactly when `word &&& mask = pattern`. -/
structure OpRow where
  mnemonic : Mnemonic
  pattern : Word
  mask : Word
deriving DecidableEq, Repr

/-- The opcode map of R95, column "match" as `pattern`. -/
def opcodeMap : List OpRow :=
  [ ⟨.BUS_BEGIN, 0x10000000, 0xFF000000⟩,
    ⟨.BUS_BEGIN_TX, 0x11000000, 0xFF80FFFF⟩,
    ⟨.BUS_WRITE, 0x12000000, 0xFF00FFFF⟩,
    ⟨.BUS_REQUEST_FROM, 0x13000000, 0xFF80FF00⟩,
    ⟨.BUS_READ, 0x14000000, 0xFFFFFFFF⟩,
    ⟨.BUS_END_TX, 0x15000000, 0xFFFFFFFF⟩,
    ⟨.UART_BEGIN, 0x20000000, 0xFF000000⟩,
    ⟨.UART_SEND, 0x21000000, 0xFF00FFFF⟩,
    ⟨.UART_AVAILABLE, 0x22000000, 0xFFFFFFFF⟩,
    ⟨.UART_RECEIVE, 0x23000000, 0xFFFFFFFF⟩,
    ⟨.UART_FLUSH, 0x24000000, 0xFFFFFFFF⟩,
    ⟨.IRQ_DISABLE, 0x30000000, 0xFFFFFFFF⟩,
    ⟨.IRQ_ENABLE, 0x31000000, 0xFFFFFFFF⟩ ]

/-- A word spells a row's operation (R95). -/
abbrev OpRow.Spells (r : OpRow) (w : Word) : Prop := w &&& r.mask = r.pattern

/-- Why a word or a byte list spells no operation (R104, R105). -/
inductive DecodeError where
  /-- the `op` byte is none of the thirteen -/
  | unassignedOpcode (op : Byte)
  /-- a reserved bit of the format is not zero -/
  | reservedBits (op : Byte)
  /-- fewer than the four bytes of a command word are left -/
  | truncated (left : Nat)
deriving DecidableEq, Repr

/-- Field `op`, bits 31:24 (R91). -/
def opField (w : Word) : Byte := w.extractLsb' 24 8

/-- The byte operand `d`, bits 23:16 (R92, R93). -/
def byteField (w : Word) : Byte := w.extractLsb' 16 8

/-- The address operand, bits 22:16 (R92, R93). -/
def addrField (w : Word) : Addr7 := w.extractLsb' 16 7

/-- The count operand, bits 7:0 (R92, R93). -/
def countField (w : Word) : Count := w.extractLsb' 0 8

/-- The 24-bit operand, bits 23:0 (R92, R93). -/
def valueField (w : Word) : Val24 := w.extractLsb' 0 24

/-- The reserved bits of format `N` are zero: bits 23:0 (R105). -/
def reservedN (w : Word) : Bool := w.extractLsb' 0 24 = 0

/-- The reserved bits of format `BY` are zero: bits 15:0 (R105). -/
def reservedBY (w : Word) : Bool := w.extractLsb' 0 16 = 0

/-- The reserved bits of format `AD` are zero: bit 23 and bits 15:0 (R105). -/
def reservedAD (w : Word) : Bool := w.extractLsb' 23 1 = 0 && w.extractLsb' 0 16 = 0

/-- The reserved bits of format `AC` are zero: bit 23 and bits 15:8 (R105). -/
def reservedAC (w : Word) : Bool := w.extractLsb' 23 1 = 0 && w.extractLsb' 8 8 = 0

/-- Accept an instruction when its format's reserved bits are zero (R105). -/
def accept (w : Word) (reserved : Bool) (i : Instr) : Except DecodeError Instr :=
  if reserved then .ok i else .error (.reservedBits (opField w))

/-- Decode one command word; total, and rejecting by name (R95, R104). -/
def decodeWord (w : Word) : Except DecodeError Instr :=
  if opField w = 0x10 then .ok (.busBegin (valueField w))
  else if opField w = 0x11 then accept w (reservedAD w) (.busBeginTx (addrField w))
  else if opField w = 0x12 then accept w (reservedBY w) (.busWrite (byteField w))
  else if opField w = 0x13 then accept w (reservedAC w) (.busRequestFrom (addrField w) (countField w))
  else if opField w = 0x14 then accept w (reservedN w) .busRead
  else if opField w = 0x15 then accept w (reservedN w) .busEndTx
  else if opField w = 0x20 then .ok (.uartBegin (valueField w))
  else if opField w = 0x21 then accept w (reservedBY w) (.uartSend (byteField w))
  else if opField w = 0x22 then accept w (reservedN w) .uartAvailable
  else if opField w = 0x23 then accept w (reservedN w) .uartReceive
  else if opField w = 0x24 then accept w (reservedN w) .uartFlush
  else if opField w = 0x30 then accept w (reservedN w) .irqDisable
  else if opField w = 0x31 then accept w (reservedN w) .irqEnable
  else .error (.unassignedOpcode (opField w))

/-- The word four stored bytes spell, least significant byte first (R108). -/
def wordOfBytes (b0 b1 b2 b3 : Byte) : Word := b3 ++ b2 ++ b1 ++ b0

/-- Decode the command at the front of a byte list and return the rest (R107, R108). -/
def decode : List Byte → Except DecodeError (Instr × List Byte)
  | b0 :: b1 :: b2 :: b3 :: rest =>
    match decodeWord (wordOfBytes b0 b1 b2 b3) with
    | .ok i => .ok (i, rest)
    | .error e => .error e
  | short => .error (.truncated short.length)

/-- The command words a byte file holds (R108); none when its length is no multiple of four. A word that spells no operation
is loaded like any other: it is refused when it is fetched (R104). -/
def loadProgram : List Byte → Option (List Word)
  | [] => some []
  | b0 :: b1 :: b2 :: b3 :: rest => (loadProgram rest).map (wordOfBytes b0 b1 b2 b3 :: ·)
  | _ => none

/-- The command word of an instruction (R92, R95, R109). -/
def encode : Instr → Word
  | .busBegin v => 0x10#8 ++ v
  | .busBeginTx a => 0x11#8 ++ 0#1 ++ a ++ 0#16
  | .busWrite d => 0x12#8 ++ d ++ 0#16
  | .busRequestFrom a c => 0x13#8 ++ 0#1 ++ a ++ 0#8 ++ c
  | .busRead => 0x14#8 ++ 0#24
  | .busEndTx => 0x15#8 ++ 0#24
  | .uartBegin v => 0x20#8 ++ v
  | .uartSend d => 0x21#8 ++ d ++ 0#16
  | .uartAvailable => 0x22#8 ++ 0#24
  | .uartReceive => 0x23#8 ++ 0#24
  | .uartFlush => 0x24#8 ++ 0#24
  | .irqDisable => 0x30#8 ++ 0#24
  | .irqEnable => 0x31#8 ++ 0#24

/-- The four stored bytes of a word, least significant byte first (R108). -/
def wordBytes (w : Word) : List Byte :=
  [w.extractLsb' 0 8, w.extractLsb' 8 8, w.extractLsb' 16 8, w.extractLsb' 24 8]

/-- The bytes of a stored program (R108). -/
def storeProgram (ws : List Word) : List Byte := ws.flatMap wordBytes

/-- The instruction the decoder reads from the table word `w` of `nbits` bits, laid out as R108 stores it. -/
def decodeTableWord (nbits w : Nat) : Option Instr :=
  match decode (wordBytes (BitVec.ofNat 32 (w % 2 ^ nbits))) with
  | .ok (i, _) => some i
  | .error _ => none

end Sys2Proof
end

