-- ==== Sys2Proof/Machine/State.lean ====
section
/-! DEFINITION. Every piece of state of 10_state.md, grouped by the spec's own prefixes (`be`, `bh`, `uh`, `ut`, `fg`), the
reasons a step can stop, and the state after reset (R53, R280). -/

namespace Sys2Proof.Machine

/-- The bus-session phase `be.phase` (10_state.md R21). -/
inductive Phase where
  | off
  | idle
  | started
  | addressedW
  | addressedR
  | transferringW
  | transferringR
  | stopped
deriving DecidableEq, Repr

/-- The bus session attributes (10_state.md R21, R22, R23). -/
structure BusSession where
  phase : Phase
  addr : Addr7
  remaining : Count
deriving DecidableEq, Repr

/-- The fields of `BUS_CTRL` that hold their last value (10_state.md R25); `INT` is `BusHw.int`. -/
structure BusCtrl where
  en : Bool
  sta : Bool
  sto : Bool
  ack : Bool
  ie : Bool
deriving DecidableEq, Repr

/-- `bh.pending`, the bus phase in progress on the wire (10_state.md R30). -/
inductive Pending where
  | none
  | start
  | addr
  | txData
  | rxData (ack : Bool)
  | stop
deriving DecidableEq, Repr

/-- An element of `bus_trace` (10_state.md R31). -/
inductive BusEvent where
  | start
  | addr (b : Byte)
  | tx (b : Byte)
  | rx (b : Byte) (ack : Bool)
  | stop
deriving DecidableEq, Repr

/-- The bus hardware registers and hidden bus state (10_state.md R25 to R31). -/
structure BusHw where
  ctrl : BusCtrl
  int : Bool
  data : Byte
  div : Byte
  status : Byte
  pending : Pending
  trace : List BusEvent
deriving DecidableEq, Repr

/-- The fields of `UART_CTRL` (10_state.md R32). -/
structure UartCtrl where
  rxen : Bool
  txen : Bool
  rxcie : Bool
  udrie : Bool
deriving DecidableEq, Repr

/-- The UART hardware registers (10_state.md R32 to R37). `div` is `UART_DIV`, below 2 ^ `UART_DIV_WIDTH` (log 13). -/
structure UartHw where
  ctrl : UartCtrl
  rxFifo : List Byte
  txReg : Option Byte
  div : Nat
  hwOvr : Nat
deriving DecidableEq, Repr

/-- The host's serial wire (10_state.md R36). -/
structure Wire where
  rxIn : List Byte
  txOut : List Byte
deriving DecidableEq, Repr

/-- Byte storage: (address, byte) pairs, addresses strictly rising, no entry equal to what an unlisted address reads as
(`Memory.wf`). -/
abbrev Memory := List Host.Cell

/-- One ring: its storage, keyed by slot number, the next write slot and the next read slot (10_state.md R42, R43). -/
structure Ring where
  buf : Memory
  head : Idx
  tail : Idx
deriving DecidableEq, Repr

/-- The transport state (10_state.md R41 to R46). `rxOvf` is `rx_ovf`, below 2 ^ `OVF_WIDTH` (log 14). -/
structure Transport where
  started : Bool
  rx : Ring
  tx : Ring
  rxOvf : Nat
deriving DecidableEq, Repr

/-- The micro-step labels of 40_bus_engine.md and 41_transport.md (10_state.md R49). -/
inductive Label where
  | fetch
  | bt1 | bt2 | bt3 | bt4
  | w1 | w2
  | rq1 | rq2 | rq3 | rq4
  | d1 | d2
  | e1
  | u1 | u2 | u3
  | s1 | s2 | s3 | s4
  | v1 | v2
  | f1
deriving DecidableEq, Repr

/-- The foreground's position, its locals and its result log (10_state.md R48, R49, R50). A local that is `none` is the
spec's "unwritten" (R49, R53; log 8). -/
structure Foreground where
  pc : Nat
  ms : Label
  n : Option Idx
  h : Option Idx
  b : Option Byte
  sv : Option Bool
  results : List Byte
deriving DecidableEq, Repr

/-- The two units a fault record can name (60_exceptions.md R232). -/
inductive BlockUnit where
  | bus
  | uart
deriving DecidableEq, Repr

/-- A fault and the `info` it records (60_exceptions.md R232). -/
inductive FaultInfo where
  | unsupportedConfiguration (unit : BlockUnit) (value : Val24)
  | protocolSequenceError (op : Mnemonic) (phase : Phase) (remaining : Count)
  | notStarted (unit : BlockUnit) (op : Mnemonic)
  | receiveEmpty
deriving DecidableEq, Repr

/-- The sticky fault record: what was raised, and at which command word (60_exceptions.md R231, R232). -/
structure FaultRecord where
  info : FaultInfo
  index : Nat
deriving DecidableEq, Repr

/-- Why the machine stops with a fault. -/
inductive Fault where
  /-- Raised by `step` in a state whose sticky fault is set: no agent has a step (60_exceptions.md R231). Safe: it is the
  spec's own quiescent faulted state. -/
  | halted (record : FaultRecord)
  /-- Raised by a meaning whose command has no micro-step at the current label; no run reaches it (10_state.md R49; log 7).
  Safe: the model stops. -/
  | strayLabel
  /-- Raised by a read of an unwritten foreground local, a model fault no rule can produce (10_state.md R49, U31). Safe. -/
  | unwrittenLocal
  /-- Raised by a ring access at a slot index at or above the capacity, a model fault no rule can produce (20_memory.md R62,
  U32). Safe. -/
  | ringSlotOutOfRange
deriving DecidableEq, Repr

/-- Why no meaning is given. -/
inductive Refusal where
  /-- Raised by `exec` for an instruction without a meaning. Safe. No arm uses it. -/
  | notModelled (mnemonic : String)
  /-- Raised by `step` in a state whose sticky refusal mark is set: the word at that index spells no operation, and no agent
  has a step (30_encoding.md R104, 60_exceptions.md R240). Safe: it is the spec's own refused state. -/
  | noOperation (index : Nat)
deriving DecidableEq, Repr

/-- The whole machine. `params` and `program` are the launch's, and no step writes them (00_scope.md R7, 20_memory.md R79;
log 1, log 2). `sched` lists who moves next, and `tick` numbers the free choices after it (00_scope.md R4; log 3). -/
structure State where
  params : Config.Params
  program : List Word
  sched : List AgentStep
  tick : Nat
  be : BusSession
  bh : BusHw
  uh : UartHw
  wire : Wire
  ut : Transport
  gie : Bool
  fg : Foreground
  fault : Option FaultRecord
  refused : Option Nat
deriving DecidableEq, Repr

/-- What a launch brings: the parameters, the program, the host's input, the schedule, and the draws for the state that
10_state.md R53 leaves at "any value". -/
structure Launch where
  params : Config.Params
  program : List Word
  sched : List AgentStep
  tick : Nat
  rxIn : List Byte
  busData : Byte
  busDiv : Byte
  busStatus : Byte
  uartDiv : Nat
  rxBuf : Memory
  txBuf : Memory
deriving DecidableEq, Repr

/-- The state right after power-on reset of a launch (10_state.md R53, 70_reset_and_hazards.md R280, R282). -/
def State.launch (l : Launch) : State where
  params := l.params
  program := l.program
  sched := l.sched
  tick := l.tick
  be := { phase := .off, addr := 0, remaining := 0 }
  bh :=
    { ctrl := { en := false, sta := false, sto := false, ack := false, ie := false }
      int := false
      data := l.busData
      div := l.busDiv
      status := l.busStatus
      pending := .none
      trace := [] }
  uh :=
    { ctrl := { rxen := false, txen := false, rxcie := false, udrie := false }
      rxFifo := []
      txReg := none
      div := l.uartDiv
      hwOvr := 0 }
  wire := { rxIn := l.rxIn, txOut := [] }
  ut :=
    { started := false
      rx := { buf := l.rxBuf, head := 0, tail := 0 }
      tx := { buf := l.txBuf, head := 0, tail := 0 }
      rxOvf := 0 }
  gie := false
  fg := { pc := 0, ms := .fetch, n := none, h := none, b := none, sv := none, results := [] }
  fault := none
  refused := none

/-- The informative ATmega16A register map of 10_state.md R55, by data address. PRESUMED (log 19). -/
def atmega16a : Config.HwProfile where
  busInt := ⟨0x56, 7⟩
  busAck := ⟨0x56, 6⟩
  busSta := ⟨0x56, 5⟩
  busSto := ⟨0x56, 4⟩
  busEn := ⟨0x56, 2⟩
  busIe := ⟨0x56, 0⟩
  busData := ⟨0x23, 0⟩
  busDiv := ⟨0x20, 0⟩
  busStatus := ⟨0x21, 3⟩
  rxcie := ⟨0x2A, 7⟩
  udrie := ⟨0x2A, 5⟩
  rxen := ⟨0x2A, 4⟩
  txen := ⟨0x2A, 3⟩
  rxc := ⟨0x2B, 7⟩
  udre := ⟨0x2B, 5⟩
  rxData := ⟨0x2C, 0⟩
  txData := ⟨0x2C, 0⟩
  uartDiv := [⟨0x29, 0⟩, ⟨0x40, 0⟩]
  gie := ⟨0x5F, 7⟩

/-- One set of parameters: 00_scope.md R7's values where it gives one, and for each one it leaves OPEN a value of the
ATmega16A family. PRESUMED (log 11); no statement of the model rests on the OPEN ones. -/
def familyParams : Config.Params where
  capRx := 128
  capTx := 128
  idxWidth := 8
  addrWidth := 7
  countWidth := 8
  ovfWidth := 8
  rxPolicy := .wrap
  rxHwDepth := 2
  busDivisor := [(100, 72), (250, 24), (400, 12)]
  uartDivisor := [(9600, 103)]
  uartDivWidth := 12
  frameFormat := { dataBits := 8, parity := .none, stopHalfBits := 2 }
  printBuf := 64
  hwProfile := atmega16a

/-- The launch of `State.reset`: no program, no host input, no schedule; the draws at the ATmega16A family's reset values
(PRESUMED, log 9), the ring storage with nothing listed (DESIGN CHOICE, log 10). -/
def Launch.plain : Launch where
  params := familyParams
  program := []
  sched := []
  tick := 0
  rxIn := []
  busData := 0xFF
  busDiv := 0x00
  busStatus := 0x1F
  uartDiv := 0
  rxBuf := []
  txBuf := []

/-- The machine right after reset. -/
def State.reset : State := State.launch Launch.plain

end Sys2Proof.Machine
end

