-- ==== Sys2Proof/Machine/Ops.lean ====
section
/-! DEFINITION. The named operations over memory, rings, registers and the foreground's position (the primitives of
00_scope.md R9), raising a fault (60_exceptions.md R231), the refusal (R240), and taking an interrupt handler and returning
from it (R251, R252). -/

namespace Sys2Proof.Machine

/-- What one micro-step answers. -/
abbrev Result := Host.Outcome State Fault Refusal

/-! ### Byte storage -/

/-- What a slot that nothing has written reads as. 10_state.md R53 says "any value"; DESIGN CHOICE (log 10). -/
def unlisted : Byte := 0

/-- Read one byte. -/
def Memory.read : Memory → Nat → Byte
  | [], _ => unlisted
  | (k, v) :: m, a => if k = a then v else Memory.read m a

/-- Write one byte, keeping the form of `Memory.wf`. -/
def Memory.write : Memory → Nat → Byte → Memory
  | [], a, v => if v = unlisted then [] else [(a, v)]
  | (k, x) :: m, a, v =>
    if a < k then (if v = unlisted then (k, x) :: m else (a, v) :: (k, x) :: m)
    else if a = k then (if v = unlisted then m else (a, v) :: m)
    else (k, x) :: Memory.write m a v

/-- The one form a memory is held in: addresses strictly rising, no entry equal to what an unlisted address reads as. -/
abbrev Memory.wf (m : Memory) : Prop := m.Pairwise (fun c d => c.1 < d.1) ∧ ∀ c ∈ m, c.2 ≠ unlisted

/-- A value truncated to `k` bits (00_scope.md R8). -/
def low {w : Nat} (k : Nat) (x : BitVec w) : BitVec w := BitVec.ofNat w (x.toNat % 2 ^ k)

/-! ### Ring index arithmetic (10_state.md R42, R43, R44) -/

/-- `MASK = C - 1`, in `width` = `IDX_WIDTH` bits (00_scope.md R7; log 14). -/
def mask (width cap : Nat) : Idx := low width (BitVec.ofNat 8 (cap - 1))

/-- `MASK_RX` (00_scope.md R7). -/
def maskRx (p : Config.Params) : Idx := mask p.idxWidth p.capRx

/-- `MASK_TX` (00_scope.md R7). -/
def maskTx (p : Config.Params) : Idx := mask p.idxWidth p.capTx

/-- The slot after `i`: `(i + 1) & MASK`. -/
def nextIdx (m i : Idx) : Idx := (i + 1) &&& m

/-- The number of buffered bytes: `(head - tail) & MASK` over wrapping subtraction. -/
def Ring.count (m : Idx) (r : Ring) : Idx := (r.head - r.tail) &&& m

/-- Empty exactly when `head = tail`. -/
def Ring.isEmpty (r : Ring) : Bool := r.head = r.tail

/-- Full exactly when advancing the head would give the tail. -/
def Ring.isFull (m : Idx) (r : Ring) : Bool := nextIdx m r.head = r.tail

/-- `MemRead(ring, i, 1)`; none for a slot outside the ring (20_memory.md R62). -/
def Ring.slotRead (cap : Nat) (r : Ring) (i : Idx) : Option Byte :=
  if i.toNat < cap then some (r.buf.read i.toNat) else none

/-- `MemWrite(ring, i, 1, v)`; none for a slot outside the ring (20_memory.md R62). -/
def Ring.slotWrite (cap : Nat) (r : Ring) (i : Idx) (v : Byte) : Option Ring :=
  if i.toNat < cap then some { r with buf := r.buf.write i.toNat v } else none

/-! ### Bus control register (10_state.md R40) -/

/-- A field name of `BUS_CTRL`. -/
inductive BusField where
  | INT
  | STA
  | STO
  | ACK
  | EN
  | IE
deriving DecidableEq, Repr

/-- The kind of phase a trigger starts when it names neither `STA` nor `STO` (10_state.md R40). -/
inductive PhaseKind where
  | address
  | tx
  | rx
deriving DecidableEq, Repr

/-- The phase a trigger starts (10_state.md R40). -/
def triggered (S : List BusField) (kind : PhaseKind) : Pending :=
  if BusField.STA ∈ S then .start
  else if BusField.STO ∈ S then .stop
  else match kind with
    | .address => .addr
    | .tx => .txData
    | .rx => .rxData (ack := decide (BusField.ACK ∈ S))

/-- `CtrlWrite(BUS_CTRL, S)`: each named field becomes 1 and every other 0; naming `INT` makes the write a trigger, which
clears `bh.INT` and starts the phase (10_state.md R40). `kind` is read by a trigger that names neither `STA` nor `STO`. -/
def busCtrlWrite (S : List BusField) (s : State) (kind : PhaseKind := .rx) : State :=
  { s with
    bh.ctrl :=
      { en := decide (BusField.EN ∈ S)
        sta := decide (BusField.STA ∈ S)
        sto := decide (BusField.STO ∈ S)
        ack := decide (BusField.ACK ∈ S)
        ie := decide (BusField.IE ∈ S) }
    bh.int := if BusField.INT ∈ S then false else s.bh.int
    bh.pending := if BusField.INT ∈ S then triggered S kind else s.bh.pending }

/-! ### UART control register (10_state.md R32, R39) -/

/-- A field name of `UART_CTRL`. -/
inductive UartField where
  | RXEN
  | TXEN
  | RXCIE
  | UDRIE
deriving DecidableEq, Repr

/-- `CtrlWrite(UART_CTRL, S)`: each named field becomes 1 and every other 0 (10_state.md R39); writing `RXEN` 0 flushes the
receive data register (20_memory.md R69). -/
def uartCtrlWrite (S : List UartField) (s : State) : State :=
  { s with
    uh.ctrl :=
      { rxen := decide (UartField.RXEN ∈ S)
        txen := decide (UartField.TXEN ∈ S)
        rxcie := decide (UartField.RXCIE ∈ S)
        udrie := decide (UartField.UDRIE ∈ S) }
    uh.rxFifo := if UartField.RXEN ∈ S then s.uh.rxFifo else [] }

/-- `UART_CTRL.UDRIE <- v`: a one-field write (10_state.md R39). -/
def setUdrie (v : Bool) (s : State) : State := { s with uh.ctrl.udrie := v }

/-- `TxDataWrite(b)` fills the transmit data register (10_state.md R34, 20_memory.md R69). -/
def txDataWrite (b : Byte) (s : State) : State := { s with uh.txReg := some b }

/-! ### Observation (00_scope.md R9) -/

/-- `emit(e)` on `bus_trace`. -/
def emit (e : BusEvent) (s : State) : State := { s with bh.trace := s.bh.trace ++ [e] }

/-- `result(v)`. -/
def result (v : Byte) (s : State) : State := { s with fg.results := s.fg.results ++ [v] }

/-! ### The foreground's position (10_state.md R48, R49) -/

/-- `fg.ms <- l`. -/
def goto (l : Label) (s : State) : State := { s with fg.ms := l }

/-- `pc <- pc + 1; fg.ms <- FETCH`: the end of an operation. -/
def endOp (s : State) : State := { s with fg.pc := s.fg.pc + 1, fg.ms := .fetch }

/-- `hold until P`: the micro-step goes on when `P` holds; a poll that finds it false changes nothing (00_scope.md R11;
log 5). -/
def holdUntil (P : Bool) (s : State) (k : Result) : Result := if P then k else .next s

/-! ### Faults and refusals -/

/-- The numeric code of a phase (10_state.md R21). -/
def Phase.code : Phase → BitVec 3
  | .off => 0
  | .idle => 1
  | .started => 2
  | .addressedW => 3
  | .addressedR => 4
  | .transferringW => 5
  | .transferringR => 6
  | .stopped => 7

/-- `code(F)`: the number of a fault (60_exceptions.md R232). -/
def FaultInfo.code : FaultInfo → Byte
  | .unsupportedConfiguration _ _ => 0x01
  | .protocolSequenceError _ _ _ => 0x02
  | .notStarted _ _ => 0x03
  | .receiveEmpty => 0x04

/-- `raise F(info)`: the sticky record is set and nothing else is written (60_exceptions.md R231). -/
def raise (info : FaultInfo) (s : State) : Result :=
  .next { s with fault := some { info := info, index := s.fg.pc } }

/-- The refusal of a word that spells no operation: the sticky mark is set and nothing else is written
(30_encoding.md R104, 60_exceptions.md R240). -/
def refuse (s : State) : Result := .next { s with refused := some s.fg.pc }

/-- The guards of a bus operation other than `BUS_BEGIN`, in the order of 40_bus_engine.md R120: `NotStarted` in `OFF`, then
`ProtocolSequenceError` unless the phase guard holds. -/
def busGuard (op : Mnemonic) (ok : Bool) (s : State) (k : Result) : Result :=
  if s.be.phase = .off then raise (.notStarted .bus op) s
  else if ok then k
  else raise (.protocolSequenceError op s.be.phase s.be.remaining) s

/-- The guard of a transport operation other than `UART_BEGIN` (41_transport.md R170). -/
def uartGuard (op : Mnemonic) (s : State) (k : Result) : Result :=
  if s.ut.started then k else raise (.notStarted .uart op) s

/-! ### Interrupt handlers: entry and return (60_exceptions.md R251, R252, R253) -/

/-- Entry to a handler: interrupts are disabled while it runs, so handlers do not nest; no foreground state is touched
(R251, R253; log 15). -/
def enterHandler (s : State) : State := { s with gie := false }

/-- Return from a handler: `gie = 1` again, and the foreground resumes at the label it had (R252). -/
def returnFromHandler (s : State) : State := { s with gie := true }

/-- Taking a handler: entry, body and return as one atomic step (R251). -/
def takeHandler (body : State → Result) (s : State) : Result :=
  match body (enterHandler s) with
  | .next t => .next (returnFromHandler t)
  | .fault f => .fault f
  | .refused r => .refused r

end Sys2Proof.Machine
end

