-- ==== Sys2Proof/Machine/Flags.lean ====
section
/-! DEFINITION. The derived flags (10_state.md R33, R34), the interrupt-pending conditions (60_exceptions.md R246), the holds
of the foreground (00_scope.md R11), and the bytes the registers show under an `HW_PROFILE` (00_scope.md R12). -/

namespace Sys2Proof.Machine

/-- `RXC`: the receive data register holds a byte (10_state.md R33). -/
def rxc (s : State) : Bool := !s.uh.rxFifo.isEmpty

/-- `UDRE`: the transmit data register is empty (10_state.md R34). -/
def udre (s : State) : Bool := s.uh.txReg.isNone

/-- `pend_RX` (60_exceptions.md R246). -/
def pendRx (s : State) : Bool := s.uh.ctrl.rxcie && rxc s

/-- `pend_TX` (60_exceptions.md R246). -/
def pendTx (s : State) : Bool := s.uh.ctrl.udrie && udre s

/-- Neither sticky mark is set: agents have steps (60_exceptions.md R231, R240). -/
def running (s : State) : Bool := s.fault.isNone && s.refused.isNone

/-- `full_before` of the receive handler: the ring already holds `C_RX - 1` bytes (41_transport.md R180). -/
def rxFull (s : State) : Bool := s.ut.rx.isFull (maskRx s.params)

/-- `rx_ovf` after one more overflow: saturating at the largest value of its `width` = `OVF_WIDTH` bits, 255 at R7's width
(10_state.md R46, 41_transport.md R180). -/
def bumpOvf (width v : Nat) : Nat := min (v + 1) (2 ^ width - 1)

/-- The foreground is held: it stands at a `hold until` whose condition is false (00_scope.md R10, R11). -/
def held (s : State) : Bool :=
  match s.fg.ms with
  | .bt1 | .bt4 | .w2 | .rq1 | .rq4 | .d2 => !s.bh.int
  | .e1 => s.bh.ctrl.sto
  | .s1 => decide (s.fg.n = some s.ut.tx.tail)
  | .fetch | .bt2 | .bt3 | .w1 | .rq2 | .rq3 | .d1 | .u1 | .u2 | .u3 | .s2 | .s3 | .s4 | .v1 | .v2 | .f1 => false

/-! ### Register bytes under an `HW_PROFILE` (00_scope.md R12, 10_state.md R55; log 19) -/

/-- A register field at its place, and the value it holds. -/
abbrev PlacedField := Config.Place × Nat

/-- The byte at a data address: every field placed there, from its lowest bit up; what passes bit 7 is not shown. -/
def byteAt (fields : List PlacedField) (a : Nat) : Byte :=
  fields.foldl (fun b f => if f.1.addr = a then b ||| BitVec.ofNat 8 (f.2 * 2 ^ f.1.bit) else b) 0

/-- The fields that `CtrlWrite(BUS_CTRL, S)` writes. -/
def busCtrlFields (p : Config.HwProfile) (S : List BusField) : List PlacedField :=
  [ (p.busInt, (decide (BusField.INT ∈ S)).toNat), (p.busAck, (decide (BusField.ACK ∈ S)).toNat),
    (p.busSta, (decide (BusField.STA ∈ S)).toNat), (p.busSto, (decide (BusField.STO ∈ S)).toNat),
    (p.busEn, (decide (BusField.EN ∈ S)).toNat), (p.busIe, (decide (BusField.IE ∈ S)).toNat) ]

/-- The fields that `CtrlWrite(UART_CTRL, S)` writes. -/
def uartCtrlFields (p : Config.HwProfile) (S : List UartField) : List PlacedField :=
  [ (p.rxcie, (decide (UartField.RXCIE ∈ S)).toNat), (p.udrie, (decide (UartField.UDRIE ∈ S)).toNat),
    (p.rxen, (decide (UartField.RXEN ∈ S)).toNat), (p.txen, (decide (UartField.TXEN ∈ S)).toNat) ]

/-- The field that `TxDataWrite(b)` writes: the transmit data register, at its own place (10_state.md R55). -/
def txDataFields (p : Config.HwProfile) (b : Byte) : List PlacedField := [(p.txData, b.toNat)]

/-- The divisor, eight bits to a place, the low ones first. -/
def uartDivFields (p : Config.HwProfile) (div : Nat) : List PlacedField :=
  p.uartDiv.zipIdx.map fun (place, k) => (place, div / 2 ^ (8 * k) % 2 ^ 8)

/-- The fields a read shows (10_state.md R33, R34, R38, R55). The receive data register shows its oldest byte, and nothing
when it holds none. -/
def shownFields (s : State) : List PlacedField :=
  let p := s.params.hwProfile
  [ (p.busInt, s.bh.int.toNat), (p.busAck, s.bh.ctrl.ack.toNat), (p.busSta, s.bh.ctrl.sta.toNat),
    (p.busSto, s.bh.ctrl.sto.toNat), (p.busEn, s.bh.ctrl.en.toNat), (p.busIe, s.bh.ctrl.ie.toNat),
    (p.busData, s.bh.data.toNat), (p.busDiv, s.bh.div.toNat), (p.busStatus, s.bh.status.toNat),
    (p.rxcie, s.uh.ctrl.rxcie.toNat), (p.udrie, s.uh.ctrl.udrie.toNat), (p.rxen, s.uh.ctrl.rxen.toNat),
    (p.txen, s.uh.ctrl.txen.toNat), (p.rxc, (rxc s).toNat), (p.udre, (udre s).toNat), (p.gie, s.gie.toNat) ] ++
  (s.uh.rxFifo.head?.toList.map fun b => (p.rxData, b.toNat)) ++ uartDivFields p s.uh.div

/-- The byte a read of a data address shows. -/
def registerByte (s : State) (a : Nat) : Byte := byteAt (shownFields s) a

end Sys2Proof.Machine
end

