-- ==== Sys2Proof/Machine/Agents.lean ====
section
/-! DEFINITION. The steps of the agents other than `FG`: the bus hardware (40_bus_engine.md R136, R137), the UART hardware
(41_transport.md R185, R186, R187) and the two interrupt handlers (R180, R183), each with the condition that enables it. -/

namespace Sys2Proof.Machine

/-! ### `BUS_HW` -/

/-- A START, address or data phase is in progress (R136). -/
def Pending.completes : Pending → Bool
  | .start | .addr | .txData | .rxData _ => true
  | .none | .stop => false

/-- `BUS_HW.COMPLETE(d)` is enabled (R136). -/
def busCompleteEnabled (s : State) : Bool := s.bh.pending.completes && s.bh.ctrl.en && running s

/-- The bus event of a phase, and the data register after it (R136). -/
def completion (d : Byte) (s : State) : State :=
  match s.bh.pending with
  | .start => emit .start s
  | .addr => emit (.addr s.bh.data) s
  | .txData => emit (.tx s.bh.data) s
  | .rxData ack => emit (.rx d ack) { s with bh.data := d }
  | .none | .stop => s

/-- `BUS_HW.COMPLETE(d)`: the completion edge. `status` is the value the status register takes (R136, 10_state.md R29). -/
def busComplete (d status : Byte) (s : State) : State :=
  { completion d s with bh.status := status, bh.int := true, bh.pending := .none }

/-- `BUS_HW.STOP_DONE` is enabled (R137). -/
def busStopEnabled (s : State) : Bool := decide (s.bh.pending = .stop) && s.bh.ctrl.en && running s

/-- `BUS_HW.STOP_DONE`: `STO` clears, the completion flag is not set (R137). `status` is the value the status register takes:
10_state.md R29 has it written at every phase completion, and R30 counts STOP as a phase, while R137's pseudocode shows no
such write. DESIGN CHOICE (log 29): any value, the old one among them. -/
def busStopDone (status : Byte) (s : State) : State :=
  { emit .stop s with bh.status := status, bh.ctrl.sto := false, bh.pending := .none }

/-! ### `UART_RX_HW` and `UART_TX_HW` -/

/-- `UART_RX_HW.ARRIVE` is enabled (R185). -/
def arriveEnabled (s : State) : Bool := !s.wire.rxIn.isEmpty && s.uh.ctrl.rxen && running s

/-- `UART_RX_HW.ARRIVE`: the next host byte enters the receive data register, or is lost to an overrun (R185). -/
def arrive (s : State) : State :=
  match s.wire.rxIn with
  | [] => s
  | b :: rest =>
    if s.uh.rxFifo.length < s.params.rxHwDepth then { s with wire.rxIn := rest, uh.rxFifo := s.uh.rxFifo ++ [b] }
    else { s with wire.rxIn := rest, uh.hwOvr := s.uh.hwOvr + 1 }

/-- `UART_RX_HW.DROP` is enabled (R186). -/
def dropEnabled (s : State) : Bool := !s.wire.rxIn.isEmpty && !s.uh.ctrl.rxen && running s

/-- `UART_RX_HW.DROP`: a byte that arrives while the receiver is disabled is lost (R186). -/
def drop (s : State) : State := { s with wire.rxIn := s.wire.rxIn.tail, uh.hwOvr := s.uh.hwOvr + 1 }

/-- `UART_TX_HW.SHIFT` is enabled (R187). -/
def shiftEnabled (s : State) : Bool := s.uh.txReg.isSome && s.uh.ctrl.txen && running s

/-- `UART_TX_HW.SHIFT`: the transmit data register goes onto the wire (R187). -/
def shift (s : State) : State :=
  match s.uh.txReg with
  | none => s
  | some b => { s with wire.txOut := s.wire.txOut ++ [b], uh.txReg := none }

/-! ### The interrupt handlers -/

/-- `ISR_RX` is enabled (R180, 60_exceptions.md R250). -/
def isrRxEnabled (s : State) : Bool := s.gie && pendRx s && running s

/-- `MemWrite(rx_buf, rx_head, 1, b); rx_head <- (rx_head + 1) & MASK_RX` (R180). -/
def rxStore (b : Byte) (s : State) : Result :=
  match s.ut.rx.slotWrite s.params.capRx s.ut.rx.head b with
  | some r => .next { s with ut.rx := { r with head := nextIdx (maskRx s.params) s.ut.rx.head } }
  | none => .fault .ringSlotOutOfRange

/-- The body of `ISR_RX` (R180): pop the data register, count an overflow, and store unless the policy drops. -/
def isrRxBody (s : State) : Result :=
  match s.uh.rxFifo with
  | [] => .next s
  | b :: rest =>
    let popped := { s with uh.rxFifo := rest }
    if rxFull s then
      let counted := { popped with ut.rxOvf := bumpOvf s.params.ovfWidth s.ut.rxOvf }
      match s.params.rxPolicy with
      | .dropNew => .next counted
      | .wrap => rxStore b counted
    else rxStore b popped

/-- `ISR_RX` as one atomic step (R180, 60_exceptions.md R251). -/
def isrRx (s : State) : Result := takeHandler isrRxBody s

/-- `ISR_TX` is enabled (R183, 60_exceptions.md R250). -/
def isrTxEnabled (s : State) : Bool := s.gie && pendTx s && running s

/-- The body of `ISR_TX` (R183): disable itself on an empty ring, else send the next buffered byte. -/
def isrTxBody (s : State) : Result :=
  if s.ut.tx.isEmpty then .next (setUdrie false s)
  else
    match s.ut.tx.slotRead s.params.capTx s.ut.tx.tail with
    | some b => .next { txDataWrite b s with ut.tx.tail := nextIdx (maskTx s.params) s.ut.tx.tail }
    | none => .fault .ringSlotOutOfRange

/-- `ISR_TX` as one atomic step (R183, 60_exceptions.md R251). -/
def isrTx (s : State) : Result := takeHandler isrTxBody s

end Sys2Proof.Machine
end

