-- ==== Sys2Proof/WellFormed.lean ====
section
/-! DEFINITION. The checks on what comes from outside the machine: the parameters of a launch (00_scope.md R7) and the
assembler's statements, whose operands are plain numbers (30_encoding.md R109, R110, R112). Operands of `Instr` have their
fields' widths, so every term of `Instr` is well-formed; an out-of-range operand is caught here, before it becomes one. -/

namespace Sys2Proof

/-- The ring capacities R7 allows: powers of two, 2 to 256. -/
def capacities : List Nat := [2, 4, 8, 16, 32, 64, 128, 256]

/-- A ring capacity R7 allows. -/
abbrev CapacityOk (c : Nat) : Prop := c ∈ capacities

/-- `RX_HW_DEPTH` is at least 1 (R7). -/
abbrev DepthOk (p : Config.Params) : Prop := 1 ≤ p.rxHwDepth

/-- `IDX_WIDTH` is wide enough for both rings' indices (R7, 10_state.md R44). -/
abbrev IdxWidthOk (p : Config.Params) : Prop := p.capRx ≤ 2 ^ p.idxWidth ∧ p.capTx ≤ 2 ^ p.idxWidth

/-- `BUS_DIVISOR` is a function: one entry a speed class (R7); 100 kHz is always one (70_reset_and_hazards.md R289). -/
abbrev BusDivisorOk (p : Config.Params) : Prop := p.busSpeeds.Nodup ∧ 100 ∈ p.busSpeeds

/-- `UART_DIVISOR` is a function into the divisor register: one entry a baud rate, each divisor in `UART_DIV_WIDTH` bits
(R7, 10_state.md R35). -/
abbrev DivisorOk (p : Config.Params) : Prop :=
  (p.uartDivisor.map Prod.fst).Nodup ∧ ∀ e ∈ p.uartDivisor, e.2 < 2 ^ p.uartDivWidth

/-- Parameters inside the ranges of R7. -/
abbrev Config.Params.wf (p : Config.Params) : Prop :=
  CapacityOk p.capRx ∧ CapacityOk p.capTx ∧ DepthOk p ∧ DivisorOk p ∧ IdxWidthOk p ∧ BusDivisorOk p

/-- How a source line spells the argument of `bus.read` (30_encoding.md R110). -/
inductive AckSpelling where
  | omitted
  | auto
  | other
deriving DecidableEq, Repr

/-- One assembler statement (30_encoding.md R109, R112), its operands as the numbers written. -/
inductive Stmt where
  | busBegin (kHz : Nat)
  | busBeginTransmission (addr : Nat)
  | busWrite (byte : Nat)
  | busRequestFrom (addr count : Nat)
  | busRead (ack : AckSpelling)
  | busEndTransmission
  | uartBegin (baud : Nat)
  | uartSend (byte : Nat)
  | uartAvailable
  | uartReceive
  | uartFlush
  | irqDisable
  | irqEnable
  /-- `uart.print` of already rendered bytes -/
  | uartPrint (bytes : List Nat)
deriving DecidableEq, Repr

/-- Why the assembler refuses a statement (30_encoding.md R109, R110, R112; U27, U28, U29). -/
inductive StmtError where
  | addressAbove7F
  | byteAboveFF
  | countAbove255
  | valueAboveFFFFFF
  | ackPolicy
  | stringTooLong
deriving DecidableEq, Repr

/-- What is wrong with a statement, if anything is. -/
def Stmt.problem (p : Config.Params) : Stmt → Option StmtError
  | .busBegin v | .uartBegin v => if v ≤ 0xFFFFFF then none else some .valueAboveFFFFFF
  | .busBeginTransmission a => if a ≤ 0x7F then none else some .addressAbove7F
  | .busWrite d | .uartSend d => if d ≤ 0xFF then none else some .byteAboveFF
  | .busRequestFrom a c => if a ≤ 0x7F then (if c ≤ 255 then none else some .countAbove255) else some .addressAbove7F
  | .busRead k => if k = .other then some .ackPolicy else none
  | .uartPrint s =>
    if s.length + 1 ≤ p.printBuf then (if s.all (· ≤ 0xFF) then none else some .byteAboveFF) else some .stringTooLong
  | .busEndTransmission | .uartAvailable | .uartReceive | .uartFlush | .irqDisable | .irqEnable => none

/-- A statement the assembler accepts. -/
abbrev Stmt.wf (p : Config.Params) (s : Stmt) : Prop := s.problem p = none

end Sys2Proof
end

