-- ==== Sys2Proof/Machine/Operands.lean ====
section
/-! DEFINITION. What the operations make of their operands: the address byte (40_bus_engine.md R121) and the two divisor
lookups (00_scope.md R7, 30_encoding.md R94), and the launch's operand widths. -/

namespace Sys2Proof.Machine

/-- The address byte `SLA(addr, rw) = ((addr << 1) | rw) & 0xFF`: the address in bits 7:1, the direction in bit 0
(40_bus_engine.md R121, 20_memory.md R64). -/
def sla (a : Addr7) (rw : Bool) : Byte := (a.setWidth 8 <<< 1) ||| (BitVec.ofBool rw).setWidth 8

/-- An address operand in the launch's `ADDR_WIDTH` bits; itself at R7's width, 7 (00_scope.md R7, R8; log 14). -/
def addrOperand (p : Config.Params) (a : Addr7) : Addr7 := low p.addrWidth a

/-- A count operand in the launch's `COUNT_WIDTH` bits; itself at R7's width, 8 (00_scope.md R7, R8; log 14). -/
def countOperand (p : Config.Params) (c : Count) : Count := low p.countWidth c

/-- `BUS_DIVISOR(v)`; none for a speed class outside `BUS_SPEEDS` (00_scope.md R7, 40_bus_engine.md R127). -/
def busDivisor (p : Config.Params) (v : Val24) : Option Byte := p.busDivisor.lookup v.toNat

/-- `UART_DIVISOR(v)`; none for a baud rate outside its domain (00_scope.md R7). -/
def uartDivisor (p : Config.Params) (v : Val24) : Option Nat := p.uartDivisor.lookup v.toNat

/-- A divisor as the `UART_DIV_WIDTH`-bit register holds it (10_state.md R35, 00_scope.md R8; log 13). -/
def divRegister (p : Config.Params) (d : Nat) : Nat := d % 2 ^ p.uartDivWidth

end Sys2Proof.Machine
end

