-- ==== Sys2Proof/Machine/Bus.lean ====
section
/-! DEFINITION. The Bus Transaction Engine's operations, one micro-step of `FG` each time they are called, by label
(40_bus_engine.md R127 to R132). A label that is not the operation's own is unreachable (log 7). -/

namespace Sys2Proof.Machine

/-- `BUS_BEGIN` (R127): the phase guard before the operand check. -/
def execBusBegin (v : Val24) (s : State) : Result :=
  match s.fg.ms with
  | .fetch =>
    if s.be.phase = .off ∨ s.be.phase = .idle then
      match busDivisor s.params v with
      | some d => .next (endOp { busCtrlWrite [.EN] { s with bh.div := d } with be.phase := .idle })
      | none => raise (.unsupportedConfiguration .bus v) s
    else raise (.protocolSequenceError .BUS_BEGIN s.be.phase s.be.remaining) s
  | _ => .fault .strayLabel

/-- `BUS_BEGIN_TX` (R128). -/
def execBusBeginTx (a : Addr7) (s : State) : Result :=
  match s.fg.ms with
  | .fetch => busGuard .BUS_BEGIN_TX (s.be.phase = .idle) s (.next (goto .bt1 (busCtrlWrite [.INT, .STA, .EN] s)))
  | .bt1 => holdUntil s.bh.int s (.next (goto .bt2 { s with be.phase := .started }))
  | .bt2 => .next (goto .bt3 { s with bh.data := sla (addrOperand s.params a) false })
  | .bt3 => .next (goto .bt4 (busCtrlWrite [.INT, .EN] s .address))
  | .bt4 => holdUntil s.bh.int s (.next (endOp { s with be.addr := addrOperand s.params a, be.phase := .addressedW }))
  | _ => .fault .strayLabel

/-- `BUS_WRITE` (R129). -/
def execBusWrite (d : Byte) (s : State) : Result :=
  match s.fg.ms with
  | .fetch =>
    busGuard .BUS_WRITE (s.be.phase = .addressedW ∨ s.be.phase = .transferringW) s
      (.next (goto .w1 { s with bh.data := d }))
  | .w1 => .next (goto .w2 (busCtrlWrite [.INT, .EN] s .tx))
  | .w2 => holdUntil s.bh.int s (.next (endOp { s with be.phase := .transferringW }))
  | _ => .fault .strayLabel

/-- `BUS_REQUEST_FROM` (R130). -/
def execBusRequestFrom (a : Addr7) (count : Count) (s : State) : Result :=
  match s.fg.ms with
  | .fetch => busGuard .BUS_REQUEST_FROM (s.be.phase = .idle) s (.next (goto .rq1 (busCtrlWrite [.INT, .STA, .EN] s)))
  | .rq1 => holdUntil s.bh.int s (.next (goto .rq2 { s with be.phase := .started }))
  | .rq2 => .next (goto .rq3 { s with bh.data := sla (addrOperand s.params a) true })
  | .rq3 => .next (goto .rq4 (busCtrlWrite [.INT, .EN] s .address))
  | .rq4 =>
    holdUntil s.bh.int s
      (.next (endOp { s with be.addr := addrOperand s.params a, be.remaining := countOperand s.params count, be.phase := .addressedR }))
  | _ => .fault .strayLabel

/-- `BUS_READ` (R131): the counter is decremented before the acknowledgement is chosen. -/
def execBusRead (s : State) : Result :=
  match s.fg.ms with
  | .fetch =>
    busGuard .BUS_READ ((s.be.phase = .addressedR ∨ s.be.phase = .transferringR) ∧ s.be.remaining ≠ 0) s
      (.next (goto .d1 { s with be.remaining := s.be.remaining - 1 }))
  | .d1 =>
    if s.be.remaining ≠ 0 then .next (goto .d2 (busCtrlWrite [.INT, .ACK, .EN] s .rx))
    else .next (goto .d2 (busCtrlWrite [.INT, .EN] s .rx))
  | .d2 =>
    holdUntil s.bh.int s
      (.next (endOp (result s.bh.data { s with fg.b := some s.bh.data, be.phase := .transferringR })))
  | _ => .fault .strayLabel

/-- `BUS_END_TX` (R132): the hold is on `STO`, not on the completion flag. -/
def execBusEndTx (s : State) : Result :=
  match s.fg.ms with
  | .fetch =>
    busGuard .BUS_END_TX
      (s.be.phase = .addressedW ∨ s.be.phase = .addressedR ∨ s.be.phase = .transferringW ∨ s.be.phase = .transferringR) s
      (.next (goto .e1 { busCtrlWrite [.INT, .STO, .EN] s with be.phase := .stopped }))
  | .e1 => holdUntil (!s.bh.ctrl.sto) s (.next (endOp { s with be.phase := .idle, be.remaining := 0 }))
  | _ => .fault .strayLabel

end Sys2Proof.Machine
end

