-- ==== Sys2Proof/Machine/Irq.lean ====
section
/-! DEFINITION. The interrupt-control operations (42_interrupt_control.md R220, R221). -/

namespace Sys2Proof.Machine

/-- `gie <- v; pc <- pc + 1`, valid in every state at FETCH (R220, R221, 60_exceptions.md R260). -/
def writeGie (v : Bool) (s : State) : Result :=
  match s.fg.ms with
  | .fetch => .next (endOp { s with gie := v })
  | _ => .fault .strayLabel

/-- `IRQ_DISABLE` (R220). -/
def execIrqDisable (s : State) : Result := writeGie false s

/-- `IRQ_ENABLE` (R221). -/
def execIrqEnable (s : State) : Result := writeGie true s

end Sys2Proof.Machine
end

