-- ==== Sys2Proof/Machine/Uart.lean ====
section
/-! DEFINITION. The Byte-Stream Transport's operations, one micro-step of `FG` each time they are called, by label
(41_transport.md R171, R173, R175, R176, R177). A label that is not the operation's own is unreachable (log 7), and so are
a read of an unwritten local (log 8) and a slot outside the ring (20_memory.md R62). -/

namespace Sys2Proof.Machine

/-- `UART_BEGIN` (R171): disable, set the divisor, reset the indices, enable. -/
def execUartBegin (v : Val24) (s : State) : Result :=
  match s.fg.ms with
  | .fetch =>
    match uartDivisor s.params v with
    | some _ => .next (goto .u1 (uartCtrlWrite [] s))
    | none => raise (.unsupportedConfiguration .uart v) s
  | .u1 =>
    match uartDivisor s.params v with
    | some d => .next (goto .u2 { s with uh.div := divRegister s.params d })
    | none => .fault .strayLabel
  | .u2 =>
    .next (goto .u3
      { s with ut.rx.head := 0, ut.rx.tail := 0, ut.tx.head := 0, ut.tx.tail := 0, ut.rxOvf := 0 })
  | .u3 => .next (endOp { uartCtrlWrite [.RXEN, .TXEN, .RXCIE] s with ut.started := true })
  | _ => .fault .strayLabel

/-- `UART_SEND` (R173): store at the head, publish the head, enable the pump, in that order. -/
def execUartSend (d : Byte) (s : State) : Result :=
  match s.fg.ms with
  | .fetch => uartGuard .UART_SEND s (.next (goto .s1 { s with fg.n := some (nextIdx (maskTx s.params) s.ut.tx.head) }))
  | .s1 =>
    match s.fg.n with
    | some n => holdUntil (n ≠ s.ut.tx.tail) s (.next (goto .s2 s))
    | none => .fault .unwrittenLocal
  | .s2 =>
    match s.ut.tx.slotWrite s.params.capTx s.ut.tx.head d with
    | some r => .next (goto .s3 { s with ut.tx := r })
    | none => .fault .ringSlotOutOfRange
  | .s3 =>
    match s.fg.n with
    | some n => .next (goto .s4 { s with ut.tx.head := n })
    | none => .fault .unwrittenLocal
  | .s4 => .next (endOp (setUdrie true s))
  | _ => .fault .strayLabel

/-- Entry to the critical section of `UART_AVAILABLE`: `fg.sv <- gie; gie <- 0` (R175, 20_memory.md R74). -/
def enterCritical (s : State) : State := { s with fg.sv := some s.gie, gie := false }

/-- Exit from it: `gie <- fg.sv`, which restores rather than sets (R175, 20_memory.md R74). -/
def leaveCritical (s : State) : State := { s with gie := s.fg.sv.getD s.gie }

/-- `UART_AVAILABLE` (R175): one critical section, one micro-step. -/
def execUartAvailable (s : State) : Result :=
  match s.fg.ms with
  | .fetch =>
    uartGuard .UART_AVAILABLE s
      (let inside := enterCritical s
       let read := { inside with fg.h := some inside.ut.rx.head }
       .next (endOp (result (read.ut.rx.count (maskRx s.params)) (leaveCritical read))))
  | _ => .fault .strayLabel

/-- `UART_RECEIVE` (R176). -/
def execUartReceive (s : State) : Result :=
  match s.fg.ms with
  | .fetch =>
    uartGuard .UART_RECEIVE s
      (if s.ut.rx.isEmpty then raise .receiveEmpty s
       else .next (goto .v1 { s with fg.h := some s.ut.rx.head }))
  | .v1 =>
    match s.ut.rx.slotRead s.params.capRx s.ut.rx.tail with
    | some b => .next (goto .v2 { s with fg.b := some b })
    | none => .fault .ringSlotOutOfRange
  | .v2 =>
    match s.fg.b with
    | some b => .next (endOp (result b { s with ut.rx.tail := nextIdx (maskRx s.params) s.ut.rx.tail }))
    | none => .fault .unwrittenLocal
  | _ => .fault .strayLabel

/-- `UART_FLUSH` (R177): the tail becomes a snapshot of the head. -/
def execUartFlush (s : State) : Result :=
  match s.fg.ms with
  | .fetch => uartGuard .UART_FLUSH s (.next (goto .f1 { s with fg.h := some s.ut.rx.head }))
  | .f1 =>
    match s.fg.h with
    | some h => .next (endOp { s with ut.rx.tail := h })
    | none => .fault .unwrittenLocal
  | _ => .fault .strayLabel

end Sys2Proof.Machine
end

