-- ==== Sys2Proof/Machine/Dispatch.lean ====
section
/-! DEFINITION. One micro-step of `FG` inside the command it stands at: one arm per instruction. -/

namespace Sys2Proof.Machine

def exec (i : Instr) (s : State) : Host.Outcome State Fault Refusal :=
  match i with
  | .busBegin v => Sys2Proof.Machine.execBusBegin v s
  | .busBeginTx addr => Sys2Proof.Machine.execBusBeginTx addr s
  | .busWrite d => Sys2Proof.Machine.execBusWrite d s
  | .busRequestFrom addr count => Sys2Proof.Machine.execBusRequestFrom addr count s
  | .busRead => Sys2Proof.Machine.execBusRead s
  | .busEndTx => Sys2Proof.Machine.execBusEndTx s
  | .uartBegin v => Sys2Proof.Machine.execUartBegin v s
  | .uartSend d => Sys2Proof.Machine.execUartSend d s
  | .uartAvailable => Sys2Proof.Machine.execUartAvailable s
  | .uartReceive => Sys2Proof.Machine.execUartReceive s
  | .uartFlush => Sys2Proof.Machine.execUartFlush s
  | .irqDisable => Sys2Proof.Machine.execIrqDisable s
  | .irqEnable => Sys2Proof.Machine.execIrqEnable s

end Sys2Proof.Machine
end

