-- ==== Sys2Proof/Machine/Schedule.lean ====
section
/-! DEFINITION. Who moves next, fetching the foreground's command word, and one scheduled step of any agent (00_scope.md R4,
R10, 30_encoding.md R104, R113). -/

namespace Sys2Proof.Machine

/-- The step the schedule chooses: the next listed one, else the free choice (log 3). -/
def nextStep (s : State) : AgentStep := s.sched.head?.getD (Config.freeStep s.tick)

/-- The state with that choice used up. -/
def advance (s : State) : State := { s with sched := s.sched.tail, tick := s.tick + 1 }

/-- The command word at `fg.pc`; none when the foreground is finished (10_state.md R48). -/
def fetchWord (s : State) : Option Word := s.program[s.fg.pc]?

/-- The foreground is finished: `fg.pc = length(program)`; a finished foreground has no step (10_state.md R48). A `fg.pc`
past the end, which no run reaches, counts as finished. -/
def fgFinished (s : State) : Bool := s.program.length ≤ s.fg.pc

/-- The foreground has an enabled step (00_scope.md R10, R11, 10_state.md R48). -/
def fgEnabled (s : State) : Bool := running s && !fgFinished s && !held s

/-- One micro-step of the foreground: fetch the word, refuse it if it spells no operation, else run the command's micro-step
at the current label (30_encoding.md R104). A finished foreground has no step and nothing changes (log 4). -/
def fgStep (s : State) : Result :=
  match fetchWord s with
  | none => .next s
  | some w =>
    match decodeWord w with
    | .ok i => exec i s
    | .error _ => refuse s

/-- The chosen step has what it needs to be taken (00_scope.md R4). -/
def enabled (a : AgentStep) (s : State) : Bool :=
  match a with
  | .fg => fgEnabled s
  | .busComplete _ _ => busCompleteEnabled s
  | .busStopDone _ => busStopEnabled s
  | .rxArrive => arriveEnabled s
  | .rxDrop => dropEnabled s
  | .txShift => shiftEnabled s
  | .isrRx => isrRxEnabled s
  | .isrTx => isrTxEnabled s

/-- Take the step when it is enabled; an agent chosen without an enabled step changes nothing (log 4). -/
def whenEnabled (on : Bool) (s : State) (k : Result) : Result := if on then k else .next s

/-- One scheduled step. The foreground's own holds poll and change nothing (log 5). -/
def agentStep (a : AgentStep) (s : State) : Result :=
  match a with
  | .fg => fgStep s
  | .busComplete d status => whenEnabled (busCompleteEnabled s) s (.next (busComplete d status s))
  | .busStopDone status => whenEnabled (busStopEnabled s) s (.next (busStopDone status s))
  | .rxArrive => whenEnabled (arriveEnabled s) s (.next (arrive s))
  | .rxDrop => whenEnabled (dropEnabled s) s (.next (drop s))
  | .txShift => whenEnabled (shiftEnabled s) s (.next (shift s))
  | .isrRx => whenEnabled (isrRxEnabled s) s (isrRx s)
  | .isrTx => whenEnabled (isrTxEnabled s) s (isrTx s)

/-- A program with `w` at index `k`: the words before it kept, or filled with words that spell no operation (log 22). -/
def placeWord : List Word → Nat → Word → List Word
  | [], 0, w => [w]
  | _ :: rest, 0, w => w :: rest
  | [], k + 1, w => 0 :: placeWord [] k w
  | x :: rest, k + 1, w => x :: placeWord rest k w

end Sys2Proof.Machine
end

