-- ==== Sys2Proof/Machine/Step.lean ====
section
/-! DEFINITION. One step of the whole machine: the next scheduled agent takes one micro-step (00_scope.md R4, R10). -/

namespace Sys2Proof.Machine

/-- A state with a sticky mark has no step (60_exceptions.md R231, R240; log 6). Otherwise the scheduled agent moves. -/
def step (s : State) : Host.Outcome State Fault Refusal :=
  match s.fault with
  | some r => .fault (.halted r)
  | none =>
    match s.refused with
    | some k => .refused (.noOperation k)
    | none => agentStep (nextStep s) (advance s)

/-- `s` with the table word `w` as the command at `fg.pc`, the foreground at its FETCH and scheduled next, and no sticky mark,
so that the next step fetches and runs it (log 1, log 22). -/
def State.withFetchWord (s : State) (nbits w : Nat) : State :=
  { s with
    program := placeWord s.program s.fg.pc (BitVec.ofNat 32 (w % 2 ^ nbits))
    sched := .fg :: s.sched
    fg.ms := .fetch
    fault := none
    refused := none }

end Sys2Proof.Machine
end

