-- ==== Sys2Proof/Machine/Assembler.lean ====
section
/-! DEFINITION. The assembler of 30_encoding.md R109, R110 and R112: statements to instructions and words, and the textual
syntax. It stands outside the machine: no step reads it. -/

namespace Sys2Proof.Machine

/-- The instructions an accepted statement stands for; `uart.print` is one `uart.send` a byte (R112). Operands are in range
by `Stmt.problem`. -/
def rawInstrs : Stmt → List Instr
  | .busBegin v => [.busBegin (BitVec.ofNat 24 v)]
  | .busBeginTransmission a => [.busBeginTx (BitVec.ofNat 7 a)]
  | .busWrite d => [.busWrite (BitVec.ofNat 8 d)]
  | .busRequestFrom a c => [.busRequestFrom (BitVec.ofNat 7 a) (BitVec.ofNat 8 c)]
  | .busRead _ => [.busRead]
  | .busEndTransmission => [.busEndTx]
  | .uartBegin v => [.uartBegin (BitVec.ofNat 24 v)]
  | .uartSend d => [.uartSend (BitVec.ofNat 8 d)]
  | .uartAvailable => [.uartAvailable]
  | .uartReceive => [.uartReceive]
  | .uartFlush => [.uartFlush]
  | .irqDisable => [.irqDisable]
  | .irqEnable => [.irqEnable]
  | .uartPrint bytes => bytes.map fun d => .uartSend (BitVec.ofNat 8 d)

/-- The words of a statement, or why the assembler refuses it (R109, R110, R112). -/
def assembleStmt (p : Config.Params) (s : Stmt) : Except StmtError (List Word) :=
  match s.problem p with
  | some e => .error e
  | none => .ok ((rawInstrs s).map encode)

/-! ### Text (R109; log 20) -/

/-- Why a source line is refused. -/
inductive AsmError where
  /-- no statement of R109 is spelled so -/
  | badStatement
  /-- the statement's operands are refused -/
  | refused (e : StmtError)
deriving DecidableEq, Repr

/-- A line's characters, each with whether it is quoted. -/
abbrev Marked := List (Char × Bool)

/-- The quoted characters of a line: those from one `"` to the next, and the three of a quoted character `'c'`, whatever `c`
is. The first argument says whether a string is open. -/
def markQuoted : Bool → List Char → Marked
  | _, [] => []
  | true, c :: rest => (c, true) :: markQuoted (c ≠ '"') rest
  | false, '\'' :: c :: '\'' :: rest => ('\'', true) :: (c, true) :: ('\'', true) :: markQuoted false rest
  | false, c :: rest => (c, c = '"') :: markQuoted (c = '"') rest

/-- White space inside a line. -/
def isBlank (x : Char × Bool) : Bool := x ∈ [(' ', false), ('\t', false), ('\r', false)]

/-- A text without the white space around it. -/
def trim (m : Marked) : Marked := ((m.dropWhile isBlank).reverse.dropWhile isBlank).reverse

/-- A line up to its comment, which `;` starts (R109). -/
def stripComment (m : Marked) : Marked := m.takeWhile (· ≠ (';', false))

/-- The arguments between commas; blank text is no argument. -/
def splitArgs (m : Marked) : List (List Char) :=
  if trim m = [] then [] else (m.splitOn (',', false)).map fun arg => (trim arg).map Prod.fst

/-- A digit's value in a base of at most sixteen. -/
def digitValue (base : Nat) (c : Char) : Option Nat :=
  let n := c.toNat
  let v :=
    if 48 ≤ n ∧ n ≤ 57 then n - 48
    else if 97 ≤ n ∧ n ≤ 102 then n - 87
    else if 65 ≤ n ∧ n ≤ 70 then n - 55
    else base
  if v < base then some v else none

/-- Digits to a number. -/
def digitsValue (base : Nat) : Nat → List Char → Option Nat
  | acc, [] => some acc
  | acc, c :: rest =>
    match digitValue base c with
    | some v => digitsValue base (acc * base + v) rest
    | none => none

/-- An ASCII character's code; none for any other character. -/
def asciiOf (c : Char) : Option Nat := if c.toNat ≤ 0x7F then some c.toNat else none

/-- A decimal number. -/
def decimalOf : List Char → Option Nat
  | [] => none
  | cs => digitsValue 10 0 cs

/-- A number: decimal, `0x` hexadecimal, or a quoted character. -/
def numberOf : List Char → Option Nat
  | '0' :: 'x' :: c :: rest => digitsValue 16 0 (c :: rest)
  | ['\'', c, '\''] => asciiOf c
  | cs => decimalOf cs

/-- A speed: `100k`, `250k`, `400k` or a decimal kHz value. -/
def speedOf (cs : List Char) : Option Nat :=
  if cs = "100k".toList then some 100
  else if cs = "250k".toList then some 250
  else if cs = "400k".toList then some 400
  else decimalOf cs

/-- A quoted string's characters; none when one of them is `"` or not ASCII. -/
def stringOf (cs : List Char) : Option (List Nat) :=
  match cs with
  | '"' :: rest =>
    match rest.reverse with
    | '"' :: body => if '"' ∈ body then none else body.reverse.mapM asciiOf
    | _ => none
  | _ => none

/-- The two forms of a statement (R109): `name(args)`, and a mnemonic with its operands after it. -/
inductive Form where
  | call
  | mnemonic
deriving DecidableEq, Repr

/-- A name spells an operation in a form: its call name in the one, its mnemonic in the other. -/
def named (form : Form) (name : List Char) (call mnemonic : String) : Bool :=
  match form with
  | .call => name = call.toList
  | .mnemonic => name = mnemonic.toList

/-- The statement that a name and its arguments spell in a form. -/
def stmtOf (form : Form) (name : List Char) (args : List (List Char)) : Option Stmt :=
  match args with
  | [] =>
    if named form name "bus.read" "BUS_READ" then some (.busRead .omitted)
    else if named form name "bus.endTransmission" "BUS_END_TX" then some .busEndTransmission
    else if named form name "uart.available" "UART_AVAILABLE" then some .uartAvailable
    else if named form name "uart.receive" "UART_RECEIVE" then some .uartReceive
    else if named form name "uart.flush" "UART_FLUSH" then some .uartFlush
    else if named form name "irq.disable" "IRQ_DISABLE" then some .irqDisable
    else if named form name "irq.enable" "IRQ_ENABLE" then some .irqEnable
    else none
  | [x] =>
    if named form name "bus.begin" "BUS_BEGIN" then (speedOf x).map .busBegin
    else if named form name "bus.beginTransmission" "BUS_BEGIN_TX" then (numberOf x).map .busBeginTransmission
    else if named form name "bus.write" "BUS_WRITE" then (numberOf x).map .busWrite
    else if named form name "bus.read" "BUS_READ" then
      some (.busRead (if form = .call ∧ x = "auto".toList then .auto else .other))
    else if named form name "uart.begin" "UART_BEGIN" then (numberOf x).map .uartBegin
    else if named form name "uart.send" "UART_SEND" then (numberOf x).map .uartSend
    else if form = .call ∧ name = "uart.print".toList then (stringOf x).map .uartPrint
    else none
  | [x, y] =>
    if named form name "bus.requestFrom" "BUS_REQUEST_FROM" then
      match numberOf x, numberOf y with
      | some a, some c => some (.busRequestFrom a c)
      | _, _ => none
    else none
  | _ => none

/-- The form, the name and the argument text of a line; none when a parenthesis is left open. -/
def formOf (line : Marked) : Option (Form × Marked × Marked) :=
  match line.dropWhile (· ≠ ('(', false)), line.reverse with
  | [], _ => some (.mnemonic, line.takeWhile (!isBlank ·), line.dropWhile (!isBlank ·))
  | _ :: inside, (')', false) :: _ => some (.call, trim (line.takeWhile (· ≠ ('(', false))), inside.dropLast)
  | _, _ => none

/-- The words of one source line; a blank or comment line has none. -/
def assembleLine (p : Config.Params) (line : List Char) : Except AsmError (List Word) :=
  let text := trim (stripComment (markQuoted false line))
  if text = [] then .ok []
  else
    match (formOf text).bind fun (form, name, args) => stmtOf form (name.map Prod.fst) (splitArgs args) with
    | none => .error .badStatement
    | some s =>
      match assembleStmt p s with
      | .ok ws => .ok ws
      | .error e => .error (.refused e)

/-- The words of source lines, in order. -/
def assembleLines (p : Config.Params) : List (List Char) → Except AsmError (List Word)
  | [] => .ok []
  | line :: rest =>
    match assembleLine p line, assembleLines p rest with
    | .ok ws, .ok more => .ok (ws ++ more)
    | .error e, _ => .error e
    | _, .error e => .error e

/-- The program of a source text, one statement per line. -/
def assemble (p : Config.Params) (text : String) : Except AsmError (List Word) :=
  assembleLines p (text.toList.splitOn '\n')

end Sys2Proof.Machine
end

