-- ==== Sys2Proof/Safety.lean ====
section
/-! DEFINITION. The terms the claims use: how a run can stand (70_reset_and_hazards.md R284), the shape of a well-formed
state, the invariants of the bus session, the pump and the foreground's position, the bytes a direction holds in order, and
the fairness premises (40_bus_engine.md R139, 41_transport.md R192). -/

namespace Sys2Proof.Machine

/-! ### How a run can stand (R284) -/

/-- finished: `fg.pc = length(program)` and no sticky mark. -/
def State.finished (s : State) : Prop := s.fg.pc = s.program.length ∧ s.fault = none ∧ s.refused = none

/-- No agent has an enabled step. -/
def State.still (s : State) : Prop := ∀ a, enabled a s = false

/-- quiescent: finished, and no agent has an enabled step. -/
def State.quiescent (s : State) : Prop := s.finished ∧ s.still

/-- The state with a fault record at the current command and nothing else changed (60_exceptions.md R231). -/
def State.withFault (info : FaultInfo) (s : State) : State :=
  { s with fault := some { info := info, index := s.fg.pc } }

/-! ### The shape of a state -/

/-- A ring in range: both indices and every stored slot below the capacity, storage in canonical form (10_state.md R44,
41_transport.md R190). -/
def Ring.wf (cap : Nat) (r : Ring) : Prop :=
  r.head.toNat < cap ∧ r.tail.toNat < cap ∧ r.buf.wf ∧ ∀ c ∈ r.buf, c.1 < cap

/-- Parameters, rings, session attributes and registers inside the ranges 10_state.md gives them (R20, R33, R35, R44, R46). -/
structure State.Shaped (s : State) : Prop where
  params : s.params.wf
  rx : s.ut.rx.wf s.params.capRx
  tx : s.ut.tx.wf s.params.capTx
  fifo : s.uh.rxFifo.length ≤ s.params.rxHwDepth
  div : s.uh.div < 2 ^ s.params.uartDivWidth
  ovf : s.ut.rxOvf < 2 ^ s.params.ovfWidth
  addr : s.be.addr.toNat < 2 ^ s.params.addrWidth
  remaining : s.be.remaining.toNat < 2 ^ s.params.countWidth

/-- A launch whose parameters and draws are in those ranges. -/
structure Launch.wf (l : Launch) : Prop where
  params : l.params.wf
  rxBuf : l.rxBuf.wf ∧ ∀ c ∈ l.rxBuf, c.1 < l.params.capRx
  txBuf : l.txBuf.wf ∧ ∀ c ∈ l.txBuf, c.1 < l.params.capTx
  uartDiv : l.uartDiv < 2 ^ l.params.uartDivWidth

/-! ### The fault table -/

/-- The fault an operation raises at FETCH, and its `info`: the phase table of 40_bus_engine.md R135 and the conditions of
60_exceptions.md R232 in the order of R241. -/
def faultAtFetch (i : Instr) (s : State) : Option FaultInfo :=
  let pse := FaultInfo.protocolSequenceError i.mnemonic s.be.phase s.be.remaining
  let nsBus := FaultInfo.notStarted .bus i.mnemonic
  let nsUart := FaultInfo.notStarted .uart i.mnemonic
  match i, s.be.phase with
  | .busBegin v, .off | .busBegin v, .idle =>
    if v.toNat ∈ s.params.busSpeeds then none else some (.unsupportedConfiguration .bus v)
  | .busBegin _, _ => some pse
  | .busBeginTx _, .off | .busWrite _, .off | .busRequestFrom _ _, .off | .busRead, .off | .busEndTx, .off => some nsBus
  | .busBeginTx _, .idle | .busRequestFrom _ _, .idle => none
  | .busBeginTx _, _ | .busRequestFrom _ _, _ => some pse
  | .busWrite _, .addressedW | .busWrite _, .transferringW => none
  | .busWrite _, _ => some pse
  | .busRead, .addressedR | .busRead, .transferringR => if s.be.remaining.toNat = 0 then some pse else none
  | .busRead, _ => some pse
  | .busEndTx, .addressedW | .busEndTx, .addressedR | .busEndTx, .transferringW | .busEndTx, .transferringR => none
  | .busEndTx, _ => some pse
  | .uartBegin v, _ =>
    if v.toNat ∈ s.params.uartDivisor.map Prod.fst then none else some (.unsupportedConfiguration .uart v)
  | .uartSend _, _ | .uartAvailable, _ | .uartFlush, _ => if s.ut.started then none else some nsUart
  | .uartReceive, _ =>
    if s.ut.started then (if s.ut.rx.head = s.ut.rx.tail then some .receiveEmpty else none) else some nsUart
  | .irqDisable, _ | .irqEnable, _ => none

/-- The operations of the Bus Transaction Engine (40_bus_engine.md). -/
def isBusOp : Instr → Prop
  | .busBegin _ | .busBeginTx _ | .busWrite _ | .busRequestFrom _ _ | .busRead | .busEndTx => True
  | .uartBegin _ | .uartSend _ | .uartAvailable | .uartReceive | .uartFlush | .irqDisable | .irqEnable => False

/-- The operations of the Byte-Stream Transport (41_transport.md). -/
def isTransportOp : Instr → Prop
  | .uartBegin _ | .uartSend _ | .uartAvailable | .uartReceive | .uartFlush => True
  | .busBegin _ | .busBeginTx _ | .busWrite _ | .busRequestFrom _ _ | .busRead | .busEndTx | .irqDisable | .irqEnable =>
    False

/-! ### The foreground's position -/

/-- The labels an operation's pseudocode names besides FETCH. -/
def labelsOf : Instr → List Label
  | .busBegin _ => []
  | .busBeginTx _ => [.bt1, .bt2, .bt3, .bt4]
  | .busWrite _ => [.w1, .w2]
  | .busRequestFrom _ _ => [.rq1, .rq2, .rq3, .rq4]
  | .busRead => [.d1, .d2]
  | .busEndTx => [.e1]
  | .uartBegin _ => [.u1, .u2, .u3]
  | .uartSend _ => [.s1, .s2, .s3, .s4]
  | .uartAvailable => []
  | .uartReceive => [.v1, .v2]
  | .uartFlush => [.f1]
  | .irqDisable => []
  | .irqEnable => []

/-- The command the foreground stands at, when its word spells one. -/
def currentInstr (s : State) : Option Instr :=
  match fetchWord s with
  | none => none
  | some w =>
    match decodeWord w with
    | .ok i => some i
    | .error _ => none

/-- Inside an operation, the label is one of the current command's, a started transport is one whose `begin` has succeeded,
and each local the label reads is written (10_state.md R49). -/
structure State.Positioned (s : State) : Prop where
  label : s.fg.ms = .fetch ∨ ∃ i, currentInstr s = some i ∧ s.fg.ms ∈ labelsOf i
  baud : ∀ v, s.fg.ms = .u1 → currentInstr s = some (.uartBegin v) → (uartDivisor s.params v).isSome
  next : s.fg.ms = .s1 ∨ s.fg.ms = .s2 ∨ s.fg.ms = .s3 → s.fg.n = some (nextIdx (maskTx s.params) s.ut.tx.head)
  room : s.fg.ms = .s2 ∨ s.fg.ms = .s3 → s.fg.n ≠ some s.ut.tx.tail
  stored : ∀ d, s.fg.ms = .s3 → currentInstr s = some (.uartSend d) → s.ut.tx.buf.read s.ut.tx.head.toNat = d
  byte : s.fg.ms = .v2 → s.fg.b.isSome
  snapshot : s.fg.ms = .f1 → ∃ h, s.fg.h = some h ∧ h.toNat < s.params.capRx
  precise : s.fault ≠ none ∨ s.refused ≠ none → s.fg.ms = .fetch

/-! ### The bus session -/

/-- A triggered phase is in flight with the completion flag clear, or has completed with it set (40_bus_engine.md R123). -/
def State.awaits (s : State) (p : Pending) : Prop :=
  (s.bh.pending = p ∧ s.bh.int = false) ∨ (s.bh.pending = .none ∧ s.bh.int = true)

/-- A write session is open and addressed. -/
def Phase.writing (p : Phase) : Prop := p = .addressedW ∨ p = .transferringW

/-- A read session is open and addressed. -/
def Phase.reading (p : Phase) : Prop := p = .addressedR ∨ p = .transferringR

/-- Between operations no phase is in flight; the completion flag is 1 in an open session and 0 outside one; the session is
neither `STARTED` nor `STOPPED` (40_bus_engine.md R126, R135, R138). -/
def State.betweenBusOps (s : State) : Prop :=
  s.bh.pending = .none ∧
    (((s.be.phase = .off ∨ s.be.phase = .idle) ∧ s.bh.int = false) ∨
      ((s.be.phase.writing ∨ s.be.phase.reading) ∧ s.bh.int = true))

/-- What the bus engine looks like at each label (40_bus_engine.md R123, R126 to R132, R135). -/
def State.busAt (s : State) : Prop :=
  match s.fg.ms with
  | .bt1 | .rq1 => s.be.phase = .idle ∧ s.awaits .start
  | .bt2 | .bt3 | .rq2 | .rq3 => s.be.phase = .started ∧ s.bh.pending = .none ∧ s.bh.int = true
  | .bt4 | .rq4 => s.be.phase = .started ∧ s.awaits .addr
  | .w1 => s.be.phase.writing ∧ s.bh.pending = .none ∧ s.bh.int = true
  | .w2 => s.be.phase.writing ∧ s.awaits .txData
  | .d1 => s.be.phase.reading ∧ s.bh.pending = .none ∧ s.bh.int = true
  | .d2 => s.be.phase.reading ∧ s.awaits (.rxData (decide (s.be.remaining ≠ 0)))
  | .e1 => s.be.phase = .stopped ∧ s.bh.int = false ∧ (s.bh.pending = .stop ∨ s.bh.pending = .none)
  | .fetch | .u1 | .u2 | .u3 | .s1 | .s2 | .s3 | .s4 | .v1 | .v2 | .f1 => s.betweenBusOps

/-- `BUS_CTRL.ACK` at a label: the last read's choice, ACK while more bytes are wanted (40_bus_engine.md R131, R133). At D1 the
count has already gone down, and the read before it, if there was one, was not the last. -/
def ackAt (ms : Label) (phase : Phase) (remaining : Count) : Bool :=
  match ms with
  | .d1 => phase = .transferringR
  | .d2 => remaining ≠ 0
  | .fetch | .bt1 | .bt2 | .bt3 | .bt4 | .w1 | .w2 | .rq1 | .rq2 | .rq3 | .rq4 | .e1 | .u1 | .u2 | .u3 | .s1 | .s2 | .s3
  | .s4 | .v1 | .v2 | .f1 => phase = .transferringR ∧ remaining ≠ 0

/-- The control fields a label calls for: `EN` since the first successful `begin`, `STA` from the START trigger to the address
trigger, `STO` while a STOP is in flight, `ACK` as `ackAt`, `IE` never (40_bus_engine.md R127 to R132, 60_exceptions.md
R249). -/
def ctrlAt (ms : Label) (phase : Phase) (pending : Pending) (remaining : Count) : BusCtrl where
  en := phase ≠ .off
  sta := ms ∈ [.bt1, .bt2, .bt3, .rq1, .rq2, .rq3]
  sto := pending = .stop
  ack := ackAt ms phase remaining
  ie := false

/-- The bus session invariant: the engine at its label, and every control field as the label calls for. -/
structure State.SessionOk (s : State) : Prop where
  engine : s.busAt
  ctrl : s.bh.ctrl = ctrlAt s.fg.ms s.be.phase s.bh.pending s.be.remaining

/-- A session is open (10_state.md R24). -/
def Phase.sessionOpen (p : Phase) : Prop :=
  p ∈ [Phase.started, .addressedW, .addressedR, .transferringW, .transferringR, .stopped]

/-- The events of a read session's bytes: every read acknowledged but the last (40_bus_engine.md R133). -/
def ackTrace : List Byte → List BusEvent
  | [] => []
  | [d] => [.rx d false]
  | d :: e :: rest => .rx d true :: ackTrace (e :: rest)

/-- The schedule of one bus phase after another for some slave bytes and status values: the foreground triggers, the bus
completes, the foreground goes on (95_test_vectors.md P1, P2). -/
def readSchedule : List (Byte × Byte) → List AgentStep
  | [] => []
  | (d, status) :: rest => .fg :: .fg :: .busComplete d status :: .fg :: readSchedule rest

/-! ### The transport -/

/-- The pump invariant: a byte in the transmit ring is never stranded with the pump idle, except inside a `send` that is about
to enable it or a `begin` that is about to empty the ring (41_transport.md R184). -/
def State.PumpOk (s : State) : Prop :=
  s.ut.tx.isEmpty = true ∨ s.uh.ctrl.udrie = true ∨ s.fg.ms = .s4 ∨ s.fg.ms = .u1 ∨ s.fg.ms = .u2

/-- Before the first `begin` succeeds, and inside any `begin`, every UART enable is 0 and the receive register is empty;
inside any other transport operation the transport is started; once started, and outside a `begin`, the receiver, the
transmitter and the receive interrupt are enabled (10_state.md R53, 41_transport.md R170, R171). -/
structure State.StartedOk (s : State) : Prop where
  disabled : s.ut.started = false ∨ s.fg.ms ∈ [Label.u1, .u2, .u3] →
    s.uh.ctrl = { rxen := false, txen := false, rxcie := false, udrie := false } ∧ s.uh.rxFifo = []
  guarded : s.fg.ms ∈ [Label.s1, .s2, .s3, .s4, .v1, .v2, .f1] → s.ut.started = true
  active : s.ut.started = true → s.fg.ms ∉ [Label.u1, .u2, .u3] →
    s.uh.ctrl.rxen = true ∧ s.uh.ctrl.txen = true ∧ s.uh.ctrl.rxcie = true
  emptied : s.fg.ms = .u3 →
    s.ut.rx.head = 0 ∧ s.ut.rx.tail = 0 ∧ s.ut.tx.head = 0 ∧ s.ut.tx.tail = 0 ∧ s.ut.rxOvf = 0

/-- Every invariant together. -/
structure State.Inv (s : State) : Prop where
  shaped : s.Shaped
  positioned : s.Positioned
  session : s.SessionOk
  pump : s.PumpOk
  started : s.StartedOk

/-- The bytes a ring holds, oldest first: `count` slots from the tail, wrapping (10_state.md R44). -/
def Ring.contents (m : Idx) (r : Ring) : List Byte :=
  (List.range (r.count m).toNat).map fun k => r.buf.read ((r.tail + BitVec.ofNat 8 k) &&& m).toNat

/-- The bytes on their way out, oldest first: on the wire, in the transmit register, in the ring. -/
def txLine (s : State) : List Byte := s.wire.txOut ++ s.uh.txReg.toList ++ s.ut.tx.contents (maskTx s.params)

/-- The bytes on their way in, oldest first: in the ring, in the receive register, not yet delivered. -/
def rxLine (s : State) : List Byte := s.ut.rx.contents (maskRx s.params) ++ s.uh.rxFifo ++ s.wire.rxIn

/-- The byte the next step publishes: `FG` at S3 of `UART_SEND d` (41_transport.md R173). -/
def publishes (s : State) : Option Byte :=
  match nextStep s, s.fg.ms, currentInstr s with
  | .fg, .s3, some (.uartSend d) => some d
  | _, _, _ => none

/-- The next step is the index reset of `UART_BEGIN` (41_transport.md R171, U2). -/
def resetsRings (s : State) : Prop := nextStep s = .fg ∧ s.fg.ms = .u2

/-- The next step is an `ISR_RX` step that finds the receive ring full: a `BufferOverflow` event (60_exceptions.md R237). -/
def overflows (s : State) : Prop := nextStep s = .isrRx ∧ isrRxEnabled s = true ∧ rxFull s = true

/-- The next step discards received bytes: the FETCH or the index reset of `UART_BEGIN`, or F1 of `UART_FLUSH`
(41_transport.md R171, R172, R177). -/
def discardsReceived (s : State) : Prop :=
  nextStep s = .fg ∧
    (s.fg.ms = .u2 ∨ s.fg.ms = .f1 ∨ (s.fg.ms = .fetch ∧ ∃ v, currentInstr s = some (.uartBegin v)))

/-- The next step is V2 of `UART_RECEIVE` (41_transport.md R176). -/
def dequeues (s : State) : Prop := nextStep s = .fg ∧ s.fg.ms = .v2

/-- Inside `UART_RECEIVE` the ring still holds the byte its FETCH saw, and V1 has read the oldest one. An overflow breaks
this (41_transport.md R191). -/
def State.CaptureOk (s : State) : Prop :=
  (s.fg.ms = .v1 ∨ s.fg.ms = .v2 → s.ut.rx.isEmpty = false) ∧
    (s.fg.ms = .v2 → s.fg.b = some (s.ut.rx.buf.read s.ut.rx.tail.toNat))

/-! ### State no agent reads -/

/-- Two states that differ at most in the state no rule reads: `be.addr`, `BUS_DIV`, `BUS_STATUS`, `bus_trace`, `UART_DIV`,
`uh.hw_ovr`, `tx_out`, `results` (10_state.md R22, R28, R29, R31, R35, R36, R37, R50). -/
def SameButUnread (s t : State) : Prop :=
  t = { s with
    be.addr := t.be.addr
    bh.div := t.bh.div
    bh.status := t.bh.status
    bh.trace := t.bh.trace
    uh.div := t.uh.div
    uh.hwOvr := t.uh.hwOvr
    wire.txOut := t.wire.txOut
    fg.results := t.fg.results }

/-! ### Runs and fairness -/

/-- The foreground stands at a bus `hold until` whose condition is false (40_bus_engine.md R123, R124). -/
def heldOnBus (s : State) : Prop :=
  s.fg.ms ∈ [Label.bt1, .bt4, .w2, .rq1, .rq4, .d2, .e1] ∧ held s = true

/-- The foreground stands at S1 of `UART_SEND` on a full ring (41_transport.md R174). -/
def heldOnSend (s : State) : Prop := s.fg.ms = .s1 ∧ held s = true

/-- `k` steps, stopping at the first fault or refusal. -/
def runSteps : Nat → State → Result
  | 0, s => .next s
  | k + 1, s =>
    match step s with
    | .next t => runSteps k t
    | .fault f => .fault f
    | .refused r => .refused r

/-- An infinite run: each state's step answers the next one. -/
def IsRun (r : Nat → State) : Prop := ∀ k, step (r k) = .next (r (k + 1))

/-- hung: from some point on the foreground stands for ever at one `hold until` (70_reset_and_hazards.md R284). A run property,
not a state. -/
def Hung (r : Nat → State) : Prop := ∃ k, ∀ j, k ≤ j → held (r j) = true ∧ (r j).fg = (r k).fg

/-- Weak fairness for a set of steps: whenever from some point on one of them stays enabled, one of them is taken. -/
def WeaklyFair (which : AgentStep → Prop) (r : Nat → State) : Prop :=
  ∀ k, (∀ j, k ≤ j → ∃ a, which a ∧ enabled a (r j) = true) →
    ∃ j, k ≤ j ∧ which (nextStep (r j)) ∧ enabled (nextStep (r j)) (r j) = true

/-- A step of `BUS_HW`. -/
def isBusHw : AgentStep → Prop
  | .busComplete _ _ | .busStopDone _ => True
  | .fg | .rxArrive | .rxDrop | .txShift | .isrRx | .isrTx => False

/-- `BUS_RESPONSIVE`: every `BUS_HW` step that stays enabled is eventually taken (40_bus_engine.md R139). -/
def BusResponsive (r : Nat → State) : Prop := WeaklyFair isBusHw r

/-- `UART_FAIR`: `ISR_RX`, `ISR_TX` and `UART_TX_HW.SHIFT` are each eventually taken while they stay enabled
(41_transport.md R192). -/
def UartFair (r : Nat → State) : Prop :=
  WeaklyFair (· = .isrRx) r ∧ WeaklyFair (· = .isrTx) r ∧ WeaklyFair (· = .txShift) r

end Sys2Proof.Machine
end

