-- ==== Sys2Proof/Certificates/Slice0/Obligations.lean ====
section
/-! DEFINITION. The statements for the provers. Each is about the machine, in every state its hypotheses admit. -/

open Sys2Proof Sys2Proof.Machine

/-! ### Encoding -/

/-- Words written out from 30_encoding.md R92 and R95 decode as V-DECODE of 95_test_vectors.md says. -/
def Obligations.WrittenWordsDecode : Prop :=
  decodeWord 0x10000064 = .ok (.busBegin 100) ∧ decodeWord 0x10FFFFFF = .ok (.busBegin 0xFFFFFF) ∧
  decodeWord 0x11500000 = .ok (.busBeginTx 0x50) ∧ decodeWord 0x117F0000 = .ok (.busBeginTx 0x7F) ∧
  decodeWord 0x11800000 = .error (.reservedBits 0x11) ∧ decodeWord 0x11500001 = .error (.reservedBits 0x11) ∧
  decodeWord 0x12A50000 = .ok (.busWrite 0xA5) ∧ decodeWord 0x13680003 = .ok (.busRequestFrom 0x68 3) ∧
  decodeWord 0x136800FF = .ok (.busRequestFrom 0x68 255) ∧ decodeWord 0x13680100 = .error (.reservedBits 0x13) ∧
  decodeWord 0x14000000 = .ok .busRead ∧ decodeWord 0x14000001 = .error (.reservedBits 0x14) ∧
  decodeWord 0x15000000 = .ok .busEndTx ∧ decodeWord 0x20002580 = .ok (.uartBegin 9600) ∧
  decodeWord 0x21480000 = .ok (.uartSend 0x48) ∧ decodeWord 0x22000000 = .ok .uartAvailable ∧
  decodeWord 0x23000000 = .ok .uartReceive ∧ decodeWord 0x24000000 = .ok .uartFlush ∧
  decodeWord 0x30000000 = .ok .irqDisable ∧ decodeWord 0x31000000 = .ok .irqEnable ∧
  decodeWord 0x00000000 = .error (.unassignedOpcode 0x00) ∧ decodeWord 0x16000000 = .error (.unassignedOpcode 0x16) ∧
  decodeWord 0xFF000000 = .error (.unassignedOpcode 0xFF)

/-- R95: a word spells a row's operation exactly when `(w & mask) = match`; no two rows match one word; every operation has
its row; the rows are the table's. -/
def Obligations.SpellingIsMaskAndMatch : Prop :=
  opcodeMap.map (fun r => (r.mnemonic, r.pattern, r.mask)) =
    [ (.BUS_BEGIN, 0x10000000, 0xFF000000), (.BUS_BEGIN_TX, 0x11000000, 0xFF80FFFF),
      (.BUS_WRITE, 0x12000000, 0xFF00FFFF), (.BUS_REQUEST_FROM, 0x13000000, 0xFF80FF00),
      (.BUS_READ, 0x14000000, 0xFFFFFFFF), (.BUS_END_TX, 0x15000000, 0xFFFFFFFF),
      (.UART_BEGIN, 0x20000000, 0xFF000000), (.UART_SEND, 0x21000000, 0xFF00FFFF),
      (.UART_AVAILABLE, 0x22000000, 0xFFFFFFFF), (.UART_RECEIVE, 0x23000000, 0xFFFFFFFF),
      (.UART_FLUSH, 0x24000000, 0xFFFFFFFF), (.IRQ_DISABLE, 0x30000000, 0xFFFFFFFF),
      (.IRQ_ENABLE, 0x31000000, 0xFFFFFFFF) ] ∧
  (∀ r ∈ opcodeMap, ∀ w, r.Spells w ↔ ∃ i, decodeWord w = .ok i ∧ i.mnemonic = r.mnemonic) ∧
  (∀ r₁ ∈ opcodeMap, ∀ r₂ ∈ opcodeMap, ∀ w, r₁.Spells w → r₂.Spells w → r₁ = r₂) ∧
  (∀ i : Instr, ∃ r ∈ opcodeMap, r.mnemonic = i.mnemonic)

/-- R105: per format, a word with that format's opcode is an operation exactly when its reserved bits are zero. -/
def Obligations.ReservedBitsMustBeZero : Prop :=
  ∀ w : Word,
    (opField w ∈ [0x14#8, 0x15, 0x22, 0x23, 0x24, 0x30, 0x31] →
      ((w &&& 0x00FFFFFF = 0) ↔ ∃ i, decodeWord w = .ok i)) ∧
    (opField w ∈ [0x12#8, 0x21] → ((w &&& 0x0000FFFF = 0) ↔ ∃ i, decodeWord w = .ok i)) ∧
    (opField w = 0x11#8 → ((w &&& 0x0080FFFF = 0) ↔ ∃ i, decodeWord w = .ok i)) ∧
    (opField w = 0x13#8 → ((w &&& 0x0080FF00 = 0) ↔ ∃ i, decodeWord w = .ok i)) ∧
    (opField w ∈ [0x10#8, 0x20] → ∃ i, decodeWord w = .ok i)

/-- Decoding gives back every encoded instruction with every operand, from its word and from its stored bytes with any bytes
after them; and an operation has one word, so encoding a decoded word gives the word back (R92, R93, R95, R105, R107, R108). -/
def Obligations.DecodeAndEncodeAgree : Prop :=
  (∀ (i : Instr) (rest : List Byte),
    decodeWord (encode i) = .ok i ∧ decode (wordBytes (encode i) ++ rest) = .ok (i, rest)) ∧
  (∀ (w : Word) (i : Instr), decodeWord w = .ok i → encode i = w)

/-- R108: byte 0 of a stored word is `w[7:0]`, byte 3 is `w[31:24]`, words in order; and a stored program loads again. -/
def Obligations.ProgramsAreStoredLittleEndian : Prop :=
  ∀ ws : List Word,
    (storeProgram ws).length = 4 * ws.length ∧
    (∀ k (w : Word), ws[k]? = some w →
      (storeProgram ws)[4 * k]? = some (w.extractLsb' 0 8) ∧ (storeProgram ws)[4 * k + 1]? = some (w.extractLsb' 8 8) ∧
      (storeProgram ws)[4 * k + 2]? = some (w.extractLsb' 16 8) ∧
      (storeProgram ws)[4 * k + 3]? = some (w.extractLsb' 24 8)) ∧
    loadProgram (storeProgram ws) = some ws

/-- The assembler, row by row of R109's table: within R109's ranges a statement gives the row's word, which decodes to the
row's instruction with the numbers written as its operands; beyond them it is refused. `bus.read` takes no argument or `auto`
and no other (R110). `uart.print` gives the word of one `send` a byte, in order, and is refused above `PRINT_BUF - 1` bytes
(R112). -/
def Obligations.AssembledWordsDecode : Prop :=
  ∀ p : Config.Params,
    (∀ v, (v ≤ 0xFFFFFF →
        assembleStmt p (.busBegin v) = .ok [BitVec.ofNat 32 (0x10 * 2 ^ 24 + v)] ∧
        ∃ x : Val24, x.toNat = v ∧ decodeWord (BitVec.ofNat 32 (0x10 * 2 ^ 24 + v)) = .ok (.busBegin x)) ∧
      (0xFFFFFF < v → assembleStmt p (.busBegin v) = .error .valueAboveFFFFFF)) ∧
    (∀ a, (a ≤ 0x7F →
        assembleStmt p (.busBeginTransmission a) = .ok [BitVec.ofNat 32 (0x11 * 2 ^ 24 + a * 2 ^ 16)] ∧
        ∃ x : Addr7, x.toNat = a ∧
          decodeWord (BitVec.ofNat 32 (0x11 * 2 ^ 24 + a * 2 ^ 16)) = .ok (.busBeginTx x)) ∧
      (0x7F < a → assembleStmt p (.busBeginTransmission a) = .error .addressAbove7F)) ∧
    (∀ d, (d ≤ 0xFF →
        assembleStmt p (.busWrite d) = .ok [BitVec.ofNat 32 (0x12 * 2 ^ 24 + d * 2 ^ 16)] ∧
        ∃ x : Byte, x.toNat = d ∧ decodeWord (BitVec.ofNat 32 (0x12 * 2 ^ 24 + d * 2 ^ 16)) = .ok (.busWrite x)) ∧
      (0xFF < d → assembleStmt p (.busWrite d) = .error .byteAboveFF)) ∧
    (∀ a c, (a ≤ 0x7F → c ≤ 255 →
        assembleStmt p (.busRequestFrom a c) = .ok [BitVec.ofNat 32 (0x13 * 2 ^ 24 + a * 2 ^ 16 + c)] ∧
        ∃ (x : Addr7) (y : Count), x.toNat = a ∧ y.toNat = c ∧
          decodeWord (BitVec.ofNat 32 (0x13 * 2 ^ 24 + a * 2 ^ 16 + c)) = .ok (.busRequestFrom x y)) ∧
      (0x7F < a → assembleStmt p (.busRequestFrom a c) = .error .addressAbove7F) ∧
      (a ≤ 0x7F → 255 < c → assembleStmt p (.busRequestFrom a c) = .error .countAbove255)) ∧
    (assembleStmt p (.busRead .omitted) = .ok [0x14000000] ∧ assembleStmt p (.busRead .auto) = .ok [0x14000000] ∧
      assembleStmt p (.busRead .other) = .error .ackPolicy) ∧
    assembleStmt p .busEndTransmission = .ok [0x15000000] ∧
    (∀ v, (v ≤ 0xFFFFFF →
        assembleStmt p (.uartBegin v) = .ok [BitVec.ofNat 32 (0x20 * 2 ^ 24 + v)] ∧
        ∃ x : Val24, x.toNat = v ∧ decodeWord (BitVec.ofNat 32 (0x20 * 2 ^ 24 + v)) = .ok (.uartBegin x)) ∧
      (0xFFFFFF < v → assembleStmt p (.uartBegin v) = .error .valueAboveFFFFFF)) ∧
    (∀ d, (d ≤ 0xFF →
        assembleStmt p (.uartSend d) = .ok [BitVec.ofNat 32 (0x21 * 2 ^ 24 + d * 2 ^ 16)] ∧
        ∃ x : Byte, x.toNat = d ∧ decodeWord (BitVec.ofNat 32 (0x21 * 2 ^ 24 + d * 2 ^ 16)) = .ok (.uartSend x)) ∧
      (0xFF < d → assembleStmt p (.uartSend d) = .error .byteAboveFF)) ∧
    (assembleStmt p .uartAvailable = .ok [0x22000000] ∧ assembleStmt p .uartReceive = .ok [0x23000000] ∧
      assembleStmt p .uartFlush = .ok [0x24000000] ∧ assembleStmt p .irqDisable = .ok [0x30000000] ∧
      assembleStmt p .irqEnable = .ok [0x31000000]) ∧
    (∀ bytes, (bytes.length < p.printBuf → (∀ d ∈ bytes, d ≤ 0xFF) →
        assembleStmt p (.uartPrint bytes) = .ok (bytes.map fun d => BitVec.ofNat 32 (0x21 * 2 ^ 24 + d * 2 ^ 16))) ∧
      (p.printBuf ≤ bytes.length → assembleStmt p (.uartPrint bytes) = .error .stringTooLong) ∧
      (bytes.length < p.printBuf → (∃ d ∈ bytes, 0xFF < d) →
        assembleStmt p (.uartPrint bytes) = .error .byteAboveFF))

/-! ### Stepping, refusals and faults -/

/-- When the foreground is scheduled in a running machine and the word at `fg.pc` decodes, the step is the command's
micro-step, with the schedule's choice used up and nothing else added. -/
def Obligations.StepRunsTheDecodedCommand : Prop :=
  ∀ (s : State) (w : Word) (i : Instr),
    running s = true → nextStep s = .fg → fetchWord s = some w → decodeWord w = .ok i → step s = exec i (advance s)

/-- An agent chosen without an enabled step changes nothing but the schedule: a held or finished foreground, a handler with
interrupts disabled, hardware with nothing to do; and in a quiescent state whatever is chosen (00_scope.md R10, R11,
70_reset_and_hazards.md R284; the model's log 4 and 5). -/
def Obligations.ChoosingADisabledAgentChangesNothing : Prop :=
  (∀ (s : State) (a : AgentStep),
    s.Inv → running s = true → nextStep s = a → enabled a s = false → step s = .next (advance s)) ∧
  (∀ s : State, s.Inv → s.quiescent → step s = .next (advance s))

/-- R104: a fetched word that spells no operation sets the sticky refusal mark and nothing else; from then on no agent has a
step; and the refused words are those no row matches. Beside the mark only the model's own schedule moves on (log 3). That
`step` answers a refusal there is the model's choice (log 6), where R104 says only that no agent has a step. -/
def Obligations.UnspelledWordsAreRefused : Prop :=
  (∀ w : Word, (∃ e, decodeWord w = .error e) ↔ ∀ r ∈ opcodeMap, ¬r.Spells w) ∧
  (∀ (s : State) (w : Word) (e : DecodeError),
    running s = true → nextStep s = .fg → s.fg.ms = .fetch → fetchWord s = some w → decodeWord w = .error e →
      step s = .next { advance s with refused := some s.fg.pc }) ∧
  (∀ (s : State) (k : Nat), s.fault = none → s.refused = some k →
    step s = .refused (.noOperation k) ∧ s.still)

/-- R231: an operation that raises a fault writes the record and nothing else; in the faulted state no agent has a step, so no
step clears the record. That `step` answers a fault there is the model's choice (log 6), where R231 says only that no agent has
a step. -/
def Obligations.FaultsAreStickyAndWriteNothingElse : Prop :=
  (∀ (i : Instr) (s t : State), exec i s = .next t → t.fault ≠ s.fault →
    ∃ info, t = s.withFault info) ∧
  (∀ (s : State) (r : FaultRecord), s.fault = some r →
    step s = .fault (.halted r) ∧ s.still)

/-- At FETCH every operation raises exactly the fault the phase table (R135) and the fault table (R232) give, in the order of
R241, and otherwise raises none and answers a next state. -/
def Obligations.FetchRaisesTheTabulatedFault : Prop :=
  ∀ (i : Instr) (s : State), s.fg.ms = .fetch →
    (∀ info, faultAtFetch i s = some info → exec i s = .next (s.withFault info)) ∧
    (faultAtFetch i s = none → ∃ t, exec i s = .next t ∧ t.fault = s.fault)

/-- Faults are raised only in a FETCH micro-step of the foreground, and no handler or hardware step raises one (R241, R255). -/
def Obligations.FaultsAreRaisedOnlyAtFetch : Prop :=
  ∀ s t : State, step s = .next t → t.fault ≠ none →
    nextStep s = .fg ∧ s.fg.ms = .fetch ∧
      ∃ i info, currentInstr s = some i ∧ faultAtFetch i s = some info ∧ t = (advance s).withFault info

/-! ### The bus operations -/

/-- R127, `BUS_BEGIN`: encoding, phase guard first, operand check, and the effect for each speed class of `BUS_SPEEDS`, which is
{100, 250, 400} where a launch does not say otherwise (R7). -/
def Obligations.BusBeginSetsSpeedAndStarts : Prop :=
  State.reset.params.busSpeeds = [100, 250, 400] ∧
  (∀ v : Val24, decodeWord (0x10#8 ++ v) = .ok (.busBegin v)) ∧
  ∀ (v : Val24) (s : State), s.fg.ms = .fetch →
    (s.be.phase ∉ [Phase.off, .idle] →
      exec (.busBegin v) s = .next (s.withFault (.protocolSequenceError .BUS_BEGIN s.be.phase s.be.remaining))) ∧
    (s.be.phase ∈ [Phase.off, .idle] → v.toNat ∉ s.params.busSpeeds →
      exec (.busBegin v) s = .next (s.withFault (.unsupportedConfiguration .bus v))) ∧
    (s.be.phase ∈ [Phase.off, .idle] → s.params.wf → ∀ d, (v.toNat, d) ∈ s.params.busDivisor →
      exec (.busBegin v) s =
        .next { s with
          bh.div := d
          bh.ctrl := { en := true, sta := false, sto := false, ack := false, ie := false }
          be.phase := .idle
          fg.pc := s.fg.pc + 1
          fg.ms := .fetch })

/-- R128, `BUS_BEGIN_TX`: encoding, guards, every micro-step, and the whole operation with the bus answering at once. A poll
that finds the flag 0 (BT1, BT4) answers the same state: that it is a step is the model's choice (log 5), where R11 gives FG
no enabled step. The address is the operand in `ADDR_WIDTH` bits (log 14), the operand itself at R7's width. -/
def Obligations.BusBeginTxAddressesForWriting : Prop :=
  (∀ a : Addr7, decodeWord (0x11#8 ++ 0#1 ++ a ++ 0#16) = .ok (.busBeginTx a)) ∧
  (∀ (a : Addr7) (s : State),
    (s.fg.ms = .fetch →
      (s.be.phase = .off → exec (.busBeginTx a) s = .next (s.withFault (.notStarted .bus .BUS_BEGIN_TX))) ∧
      (s.be.phase ∉ [Phase.off, .idle] →
        exec (.busBeginTx a) s =
          .next (s.withFault (.protocolSequenceError .BUS_BEGIN_TX s.be.phase s.be.remaining))) ∧
      (s.be.phase = .idle →
        exec (.busBeginTx a) s =
          .next { s with
            bh.ctrl := { en := true, sta := true, sto := false, ack := false, ie := false }
            bh.int := false
            bh.pending := .start
            fg.ms := .bt1 })) ∧
    (s.fg.ms = .bt1 →
      (s.bh.int = false → exec (.busBeginTx a) s = .next s) ∧
      (s.bh.int = true → exec (.busBeginTx a) s = .next { s with be.phase := .started, fg.ms := .bt2 })) ∧
    (s.fg.ms = .bt2 →
      exec (.busBeginTx a) s = .next { s with bh.data := sla (addrOperand s.params a) false, fg.ms := .bt3 }) ∧
    (s.fg.ms = .bt3 →
      exec (.busBeginTx a) s =
        .next { s with
          bh.ctrl := { en := true, sta := false, sto := false, ack := false, ie := false }
          bh.int := false
          bh.pending := .addr
          fg.ms := .bt4 }) ∧
    (s.fg.ms = .bt4 →
      (s.bh.int = false → exec (.busBeginTx a) s = .next s) ∧
      (s.bh.int = true →
        exec (.busBeginTx a) s =
          .next { s with
            be.addr := addrOperand s.params a
            be.phase := .addressedW
            fg.pc := s.fg.pc + 1
            fg.ms := .fetch }))) ∧
  sla 0x00 false = 0x00 ∧ sla 0x7F false = 0xFE ∧
  (∀ (p : Config.Params) (a : Addr7),
    (addrOperand p a).toNat = a.toNat % 2 ^ p.addrWidth ∧ (7 ≤ p.addrWidth → addrOperand p a = a)) ∧
  ∀ (a : Addr7) (s : State) (d₁ st₁ d₂ st₂ : Byte) (rest : List AgentStep),
    running s = true → s.fg.ms = .fetch → s.be.phase = .idle → currentInstr s = some (.busBeginTx a) →
    s.sched = [.fg, .busComplete d₁ st₁, .fg, .fg, .fg, .busComplete d₂ st₂, .fg] ++ rest →
    ∃ t, runSteps 7 s = .next t ∧ t.be.phase = .addressedW ∧ t.be.addr = addrOperand s.params a ∧
      t.bh.trace = s.bh.trace ++ [.start, .addr (sla (addrOperand s.params a) false)] ∧ t.fg.pc = s.fg.pc + 1 ∧ t.fg.ms = .fetch ∧
      t.sched = rest

/-- R129, `BUS_WRITE`: encoding, guards, every micro-step, and the whole operation with the bus answering at once. A poll that
finds the flag 0 (W2) answers the same state: that it is a step is the model's choice (log 5), where R11 gives FG no enabled
step. -/
def Obligations.BusWriteSendsTheByte : Prop :=
  (∀ d : Byte, decodeWord (0x12#8 ++ d ++ 0#16) = .ok (.busWrite d)) ∧
  (∀ (d : Byte) (s : State),
    (s.fg.ms = .fetch →
      (s.be.phase = .off → exec (.busWrite d) s = .next (s.withFault (.notStarted .bus .BUS_WRITE))) ∧
      (s.be.phase ∉ [Phase.off, .addressedW, .transferringW] →
        exec (.busWrite d) s = .next (s.withFault (.protocolSequenceError .BUS_WRITE s.be.phase s.be.remaining))) ∧
      (s.be.phase ∈ [Phase.addressedW, .transferringW] →
        exec (.busWrite d) s = .next { s with bh.data := d, fg.ms := .w1 })) ∧
    (s.fg.ms = .w1 →
      exec (.busWrite d) s =
        .next { s with
          bh.ctrl := { en := true, sta := false, sto := false, ack := false, ie := false }
          bh.int := false
          bh.pending := .txData
          fg.ms := .w2 }) ∧
    (s.fg.ms = .w2 →
      (s.bh.int = false → exec (.busWrite d) s = .next s) ∧
      (s.bh.int = true →
        exec (.busWrite d) s = .next { s with be.phase := .transferringW, fg.pc := s.fg.pc + 1, fg.ms := .fetch }))) ∧
  ∀ (d : Byte) (s : State) (d₁ st₁ : Byte) (rest : List AgentStep),
    running s = true → s.fg.ms = .fetch → s.be.phase ∈ [Phase.addressedW, .transferringW] →
    currentInstr s = some (.busWrite d) → s.sched = [.fg, .fg, .busComplete d₁ st₁, .fg] ++ rest →
    ∃ t, runSteps 4 s = .next t ∧ t.be = { s.be with phase := .transferringW } ∧
      t.bh.trace = s.bh.trace ++ [.tx d] ∧ t.fg.pc = s.fg.pc + 1 ∧ t.fg.ms = .fetch ∧ t.sched = rest

/-- `BUS_REQUEST_FROM`: encoding, guards, every micro-step, and the whole operation with the bus answering at once; a session
opened with count 0 is accepted (R130). A poll that finds the flag 0 (RQ1, RQ4) answers the same state: that it is a step is
the model's choice (log 5), where R11 gives FG no enabled step. The operands are in `ADDR_WIDTH` and `COUNT_WIDTH` bits
(log 14), and themselves at R7's widths. -/
def Obligations.BusRequestFromAddressesForReading : Prop :=
  (∀ (a : Addr7) (c : Count), decodeWord (0x13#8 ++ 0#1 ++ a ++ 0#8 ++ c) = .ok (.busRequestFrom a c)) ∧
  (∀ (a : Addr7) (c : Count) (s : State),
    (s.fg.ms = .fetch →
      (s.be.phase = .off → exec (.busRequestFrom a c) s = .next (s.withFault (.notStarted .bus .BUS_REQUEST_FROM))) ∧
      (s.be.phase ∉ [Phase.off, .idle] →
        exec (.busRequestFrom a c) s =
          .next (s.withFault (.protocolSequenceError .BUS_REQUEST_FROM s.be.phase s.be.remaining))) ∧
      (s.be.phase = .idle →
        exec (.busRequestFrom a c) s =
          .next { s with
            bh.ctrl := { en := true, sta := true, sto := false, ack := false, ie := false }
            bh.int := false
            bh.pending := .start
            fg.ms := .rq1 })) ∧
    (s.fg.ms = .rq1 →
      (s.bh.int = false → exec (.busRequestFrom a c) s = .next s) ∧
      (s.bh.int = true → exec (.busRequestFrom a c) s = .next { s with be.phase := .started, fg.ms := .rq2 })) ∧
    (s.fg.ms = .rq2 →
      exec (.busRequestFrom a c) s = .next { s with bh.data := sla (addrOperand s.params a) true, fg.ms := .rq3 }) ∧
    (s.fg.ms = .rq3 →
      exec (.busRequestFrom a c) s =
        .next { s with
          bh.ctrl := { en := true, sta := false, sto := false, ack := false, ie := false }
          bh.int := false
          bh.pending := .addr
          fg.ms := .rq4 }) ∧
    (s.fg.ms = .rq4 →
      (s.bh.int = false → exec (.busRequestFrom a c) s = .next s) ∧
      (s.bh.int = true →
        exec (.busRequestFrom a c) s =
          .next { s with
            be := { phase := .addressedR, addr := addrOperand s.params a, remaining := countOperand s.params c }
            fg.pc := s.fg.pc + 1
            fg.ms := .fetch }))) ∧
  (∀ (p : Config.Params) (c : Count),
    (countOperand p c).toNat = c.toNat % 2 ^ p.countWidth ∧ (8 ≤ p.countWidth → countOperand p c = c)) ∧
  ∀ (a : Addr7) (c : Count) (s : State) (d₁ st₁ d₂ st₂ : Byte) (rest : List AgentStep),
    running s = true → s.fg.ms = .fetch → s.be.phase = .idle → currentInstr s = some (.busRequestFrom a c) →
    s.sched = [.fg, .busComplete d₁ st₁, .fg, .fg, .fg, .busComplete d₂ st₂, .fg] ++ rest →
    ∃ t, runSteps 7 s = .next t ∧
      t.be = { phase := .addressedR, addr := addrOperand s.params a, remaining := countOperand s.params c } ∧
      t.bh.trace = s.bh.trace ++ [.start, .addr (sla (addrOperand s.params a) true)] ∧ t.fg.pc = s.fg.pc + 1 ∧ t.fg.ms = .fetch ∧
      t.sched = rest

/-- `BUS_READ`: encoding, guards, the decrement before the acknowledgement, every micro-step, and the whole operation with the
bus answering at once (R131, R134). A poll that finds the flag 0 (D2) answers the same state: that it is a step is the model's
choice (log 5), where R11 gives FG no enabled step. -/
def Obligations.BusReadCountsDownAndReturnsTheByte : Prop :=
  decodeWord 0x14000000 = .ok .busRead ∧
  (∀ s : State,
    (s.fg.ms = .fetch →
      (s.be.phase = .off → exec .busRead s = .next (s.withFault (.notStarted .bus .BUS_READ))) ∧
      (s.be.phase ≠ .off → (s.be.phase ∉ [Phase.addressedR, .transferringR] ∨ s.be.remaining = 0) →
        exec .busRead s = .next (s.withFault (.protocolSequenceError .BUS_READ s.be.phase s.be.remaining))) ∧
      (s.be.phase ∈ [Phase.addressedR, .transferringR] → s.be.remaining ≠ 0 →
        exec .busRead s = .next { s with be.remaining := s.be.remaining - 1, fg.ms := .d1 })) ∧
    (s.fg.ms = .d1 →
      exec .busRead s =
        .next { s with
          bh.ctrl := { en := true, sta := false, sto := false, ack := decide (s.be.remaining ≠ 0), ie := false }
          bh.int := false
          bh.pending := .rxData (decide (s.be.remaining ≠ 0))
          fg.ms := .d2 }) ∧
    (s.fg.ms = .d2 →
      (s.bh.int = false → exec .busRead s = .next s) ∧
      (s.bh.int = true →
        exec .busRead s =
          .next { s with
            be.phase := .transferringR
            fg.b := some s.bh.data
            fg.results := s.fg.results ++ [s.bh.data]
            fg.pc := s.fg.pc + 1
            fg.ms := .fetch }))) ∧
  ∀ (s : State) (d st : Byte) (rest : List AgentStep),
    running s = true → s.fg.ms = .fetch → s.be.phase ∈ [Phase.addressedR, .transferringR] → s.be.remaining ≠ 0 →
    currentInstr s = some .busRead → s.sched = [.fg, .fg, .busComplete d st, .fg] ++ rest →
    ∃ t, runSteps 4 s = .next t ∧
      t.be = { s.be with phase := .transferringR, remaining := s.be.remaining - 1 } ∧
      t.bh.trace = s.bh.trace ++ [.rx d (decide (s.be.remaining ≠ 1))] ∧ t.fg.results = s.fg.results ++ [d] ∧
      t.fg.pc = s.fg.pc + 1 ∧ t.fg.ms = .fetch ∧ t.sched = rest

/-- R132, `BUS_END_TX`: encoding, guards, every micro-step, and the whole operation with the bus answering at once; the
completion flag stays 0. A poll that finds `STO` 1 (E1) answers the same state: that it is a step is the model's choice
(log 5), where R11 gives FG no enabled step. What the STOP leaves in `BUS_STATUS` is any value `st` (log 29). -/
def Obligations.BusEndTxStopsTheSession : Prop :=
  decodeWord 0x15000000 = .ok .busEndTx ∧
  (∀ s : State,
    (s.fg.ms = .fetch →
      (s.be.phase = .off → exec .busEndTx s = .next (s.withFault (.notStarted .bus .BUS_END_TX))) ∧
      (s.be.phase ∉ [Phase.off, .addressedW, .addressedR, .transferringW, .transferringR] →
        exec .busEndTx s = .next (s.withFault (.protocolSequenceError .BUS_END_TX s.be.phase s.be.remaining))) ∧
      (s.be.phase ∈ [Phase.addressedW, .addressedR, .transferringW, .transferringR] →
        exec .busEndTx s =
          .next { s with
            bh.ctrl := { en := true, sta := false, sto := true, ack := false, ie := false }
            bh.int := false
            bh.pending := .stop
            be.phase := .stopped
            fg.ms := .e1 })) ∧
    (s.fg.ms = .e1 →
      (s.bh.ctrl.sto = true → exec .busEndTx s = .next s) ∧
      (s.bh.ctrl.sto = false →
        exec .busEndTx s =
          .next { s with be.phase := .idle, be.remaining := 0, fg.pc := s.fg.pc + 1, fg.ms := .fetch }))) ∧
  ∀ (s : State) (st : Byte) (rest : List AgentStep),
    running s = true → s.fg.ms = .fetch →
    s.be.phase ∈ [Phase.addressedW, .addressedR, .transferringW, .transferringR] →
    currentInstr s = some .busEndTx → s.sched = [.fg, .busStopDone st, .fg] ++ rest →
    ∃ t, runSteps 3 s = .next t ∧ t.be.phase = .idle ∧ t.be.remaining = 0 ∧ t.bh.int = false ∧
      t.bh.ctrl.sto = false ∧ t.bh.trace = s.bh.trace ++ [.stop] ∧ t.fg.pc = s.fg.pc + 1 ∧ t.fg.ms = .fetch ∧
      t.sched = rest

/-- R133: in a session opened by `requestFrom(addr, n)`, with the bus answering at once, the `n` reads send ACK but the last,
which sends NACK; the bytes are returned in order; and read `n + 1` faults. `n` is any count `COUNT_WIDTH` holds (log 14). -/
def Obligations.ReadSessionAcknowledgesAllButTheLast : Prop :=
  ∀ (s : State) (a : Addr7) (ds : List (Byte × Byte)) (d₁ st₁ d₂ st₂ : Byte) (rest : List AgentStep),
    running s = true → s.fg.ms = .fetch → s.be.phase = .idle → ds.length < 256 →
    ds.length < 2 ^ s.params.countWidth →
    currentInstr s = some (.busRequestFrom a (BitVec.ofNat 8 ds.length)) →
    (∀ k, k ≤ ds.length → s.program[s.fg.pc + 1 + k]? = some 0x14000000) →
    s.sched = [.fg, .busComplete d₁ st₁, .fg, .fg, .fg, .busComplete d₂ st₂, .fg] ++ readSchedule ds ++ .fg :: rest →
    ∃ t, runSteps (7 + 4 * ds.length) s = .next t ∧
      t.bh.trace = s.bh.trace ++ [.start, .addr (sla (addrOperand s.params a) true)] ++ ackTrace (ds.map Prod.fst) ∧
      t.fg.results = s.fg.results ++ ds.map Prod.fst ∧ t.be.remaining = 0 ∧ t.fg.pc = s.fg.pc + 1 + ds.length ∧
      t.be.phase = (if ds = [] then .addressedR else .transferringR) ∧
      step t = .next ((advance t).withFault (.protocolSequenceError .BUS_READ t.be.phase 0))

/-! ### The transport operations -/

/-- `UART_BEGIN`: encoding, operand check, every micro-step (disable and flush, divisor, index reset, enable), and the whole
operation without interruption (R171). A byte already in the transmit register is kept. -/
def Obligations.UartBeginResetsAndEnables : Prop :=
  (∀ v : Val24, decodeWord (0x20#8 ++ v) = .ok (.uartBegin v)) ∧
  (∀ (v : Val24) (s : State),
    (s.fg.ms = .fetch →
      (v.toNat ∉ s.params.uartDivisor.map Prod.fst →
        exec (.uartBegin v) s = .next (s.withFault (.unsupportedConfiguration .uart v))) ∧
      (v.toNat ∈ s.params.uartDivisor.map Prod.fst →
        exec (.uartBegin v) s =
          .next { s with
            uh.ctrl := { rxen := false, txen := false, rxcie := false, udrie := false }
            uh.rxFifo := []
            fg.ms := .u1 })) ∧
    (s.fg.ms = .u1 → s.params.wf → ∀ d, (v.toNat, d) ∈ s.params.uartDivisor →
      exec (.uartBegin v) s = .next { s with uh.div := d, fg.ms := .u2 }) ∧
    (s.fg.ms = .u2 →
      exec (.uartBegin v) s =
        .next { s with
          ut.rx.head := 0, ut.rx.tail := 0, ut.tx.head := 0, ut.tx.tail := 0, ut.rxOvf := 0, fg.ms := .u3 }) ∧
    (s.fg.ms = .u3 →
      exec (.uartBegin v) s =
        .next { s with
          uh.ctrl := { rxen := true, txen := true, rxcie := true, udrie := false }
          ut.started := true
          fg.pc := s.fg.pc + 1
          fg.ms := .fetch })) ∧
  ∀ (v : Val24) (d : Nat) (s : State) (rest : List AgentStep),
    s.params.wf → running s = true → s.fg.ms = .fetch → (v.toNat, d) ∈ s.params.uartDivisor →
    currentInstr s = some (.uartBegin v) → s.sched = [.fg, .fg, .fg, .fg] ++ rest →
    runSteps 4 s =
      .next { s with
        sched := rest
        tick := s.tick + 4
        uh.ctrl := { rxen := true, txen := true, rxcie := true, udrie := false }
        uh.rxFifo := []
        uh.div := d
        ut := { started := true, rx := { s.ut.rx with head := 0, tail := 0 }, tx := { s.ut.tx with head := 0, tail := 0 },
                rxOvf := 0 }
        fg.pc := s.fg.pc + 1
        fg.ms := .fetch }

/-- `UART_SEND`: encoding, guard, every micro-step, and the whole operation without interruption on a ring with room: the byte
is stored at the old head, the head advances by one slot, the pump is enabled (R173). A poll that finds the ring full (S1)
answers the same state: that it is a step is the model's choice (log 5), where R11 gives FG no enabled step. -/
def Obligations.UartSendStoresPublishesEnables : Prop :=
  (∀ d : Byte, decodeWord (0x21#8 ++ d ++ 0#16) = .ok (.uartSend d)) ∧
  (∀ (d : Byte) (s : State),
    (s.fg.ms = .fetch →
      (s.ut.started = false → exec (.uartSend d) s = .next (s.withFault (.notStarted .uart .UART_SEND))) ∧
      (s.ut.started = true →
        exec (.uartSend d) s = .next { s with fg.n := some (nextIdx (maskTx s.params) s.ut.tx.head), fg.ms := .s1 })) ∧
    (∀ n, s.fg.n = some n → s.fg.ms = .s1 →
      (n = s.ut.tx.tail → exec (.uartSend d) s = .next s) ∧
      (n ≠ s.ut.tx.tail → exec (.uartSend d) s = .next { s with fg.ms := .s2 })) ∧
    (s.fg.ms = .s2 → s.ut.tx.head.toNat < s.params.capTx →
      exec (.uartSend d) s =
        .next { s with ut.tx.buf := s.ut.tx.buf.write s.ut.tx.head.toNat d, fg.ms := .s3 }) ∧
    (∀ n, s.fg.n = some n → s.fg.ms = .s3 →
      exec (.uartSend d) s = .next { s with ut.tx.head := n, fg.ms := .s4 }) ∧
    (s.fg.ms = .s4 →
      exec (.uartSend d) s = .next { s with uh.ctrl.udrie := true, fg.pc := s.fg.pc + 1, fg.ms := .fetch })) ∧
  ∀ (d : Byte) (s : State) (rest : List AgentStep),
    s.Shaped → running s = true → s.fg.ms = .fetch → s.ut.started = true → s.ut.tx.isFull (maskTx s.params) = false →
    currentInstr s = some (.uartSend d) → s.sched = [.fg, .fg, .fg, .fg, .fg] ++ rest →
    ∃ t, runSteps 5 s = .next t ∧
      (∀ a, t.ut.tx.buf.read a = if a = s.ut.tx.head.toNat then d else s.ut.tx.buf.read a) ∧
      t.ut.tx.head.toNat = (s.ut.tx.head.toNat + 1) % s.params.capTx ∧ t.ut.tx.tail = s.ut.tx.tail ∧
      t.ut.rx = s.ut.rx ∧ t.uh = { s.uh with ctrl.udrie := true } ∧ t.fg.pc = s.fg.pc + 1 ∧ t.fg.ms = .fetch ∧
      t.sched = rest

/-- `UART_AVAILABLE`: encoding, guard, and the critical section as one micro-step: the result is
`(C_RX + head - tail) mod C_RX`, `gie` is restored, not set (R175, R74). -/
def Obligations.UartAvailableCountsAtomically : Prop :=
  decodeWord 0x22000000 = .ok .uartAvailable ∧
  ∀ s : State, s.fg.ms = .fetch →
    (s.ut.started = false → exec .uartAvailable s = .next (s.withFault (.notStarted .uart .UART_AVAILABLE))) ∧
    (s.ut.started = true → s.Shaped →
      exec .uartAvailable s =
        .next { s with
          fg.sv := some s.gie
          fg.h := some s.ut.rx.head
          fg.results := s.fg.results ++
            [BitVec.ofNat 8 ((s.params.capRx + s.ut.rx.head.toNat - s.ut.rx.tail.toNat) % s.params.capRx)]
          fg.pc := s.fg.pc + 1
          fg.ms := .fetch })

/-- `UART_RECEIVE`: encoding, guards, every micro-step, and the whole operation without interruption: the oldest byte is
returned and the tail advances by one slot (R176). -/
def Obligations.UartReceiveReturnsTheOldestByte : Prop :=
  decodeWord 0x23000000 = .ok .uartReceive ∧
  (∀ s : State,
    (s.fg.ms = .fetch →
      (s.ut.started = false → exec .uartReceive s = .next (s.withFault (.notStarted .uart .UART_RECEIVE))) ∧
      (s.ut.started = true → s.ut.rx.head = s.ut.rx.tail → exec .uartReceive s = .next (s.withFault .receiveEmpty)) ∧
      (s.ut.started = true → s.ut.rx.head ≠ s.ut.rx.tail →
        exec .uartReceive s = .next { s with fg.h := some s.ut.rx.head, fg.ms := .v1 })) ∧
    (s.fg.ms = .v1 → s.ut.rx.tail.toNat < s.params.capRx →
      exec .uartReceive s = .next { s with fg.b := some (s.ut.rx.buf.read s.ut.rx.tail.toNat), fg.ms := .v2 }) ∧
    (∀ b, s.fg.b = some b → s.fg.ms = .v2 →
      exec .uartReceive s =
        .next { s with
          ut.rx.tail := nextIdx (maskRx s.params) s.ut.rx.tail
          fg.results := s.fg.results ++ [b]
          fg.pc := s.fg.pc + 1
          fg.ms := .fetch })) ∧
  ∀ (s : State) (rest : List AgentStep),
    s.Shaped → running s = true → s.fg.ms = .fetch → s.ut.started = true → s.ut.rx.head ≠ s.ut.rx.tail →
    currentInstr s = some .uartReceive → s.sched = [.fg, .fg, .fg] ++ rest →
    ∃ t b, runSteps 3 s = .next t ∧ s.ut.rx.contents (maskRx s.params) = b :: t.ut.rx.contents (maskRx t.params) ∧
      t.fg.results = s.fg.results ++ [b] ∧ t.ut.rx.buf = s.ut.rx.buf ∧ t.ut.rx.head = s.ut.rx.head ∧
      t.ut.tx = s.ut.tx ∧ t.uh = s.uh ∧ t.fg.pc = s.fg.pc + 1 ∧ t.fg.ms = .fetch ∧ t.sched = rest

/-- R177, `UART_FLUSH`: encoding, guard, both micro-steps, and the whole operation without interruption; the tail becomes the
head that FETCH read, whatever was stored since, and nothing else of the transport changes. -/
def Obligations.UartFlushDiscardsTheSnapshot : Prop :=
  decodeWord 0x24000000 = .ok .uartFlush ∧
  (∀ s : State,
    (s.fg.ms = .fetch →
      (s.ut.started = false → exec .uartFlush s = .next (s.withFault (.notStarted .uart .UART_FLUSH))) ∧
      (s.ut.started = true → exec .uartFlush s = .next { s with fg.h := some s.ut.rx.head, fg.ms := .f1 })) ∧
    (∀ h, s.fg.h = some h → s.fg.ms = .f1 →
      exec .uartFlush s = .next { s with ut.rx.tail := h, fg.pc := s.fg.pc + 1, fg.ms := .fetch })) ∧
  ∀ (s : State) (rest : List AgentStep),
    running s = true → s.fg.ms = .fetch → s.ut.started = true → currentInstr s = some .uartFlush →
    s.sched = [.fg, .fg] ++ rest →
    runSteps 2 s =
      .next { s with
        sched := rest
        tick := s.tick + 2
        ut.rx.tail := s.ut.rx.head
        fg.h := some s.ut.rx.head
        fg.pc := s.fg.pc + 1
        fg.ms := .fetch }

/-- `IRQ_DISABLE` and `IRQ_ENABLE`: encoding and effect in every state at FETCH; with `gie = 0` no handler step is enabled,
and hardware steps do not depend on `gie` (R220, R221, R260). -/
def Obligations.IrqCommandsWriteGie : Prop :=
  decodeWord 0x30000000 = .ok .irqDisable ∧ decodeWord 0x31000000 = .ok .irqEnable ∧
  (∀ s : State, s.fg.ms = .fetch →
    exec .irqDisable s = .next { s with gie := false, fg.pc := s.fg.pc + 1, fg.ms := .fetch } ∧
    exec .irqEnable s = .next { s with gie := true, fg.pc := s.fg.pc + 1, fg.ms := .fetch }) ∧
  (∀ s : State, s.gie = false → enabled .isrRx s = false ∧ enabled .isrTx s = false) ∧
  (∀ (s : State) (g : Bool) (a : AgentStep), a ≠ .isrRx → a ≠ .isrTx → enabled a { s with gie := g } = enabled a s)

/-! ### Hardware and handlers -/

/-- R136: when `BUS_HW.COMPLETE(d)` is enabled, and its effect on each kind of phase; `status` is any value. -/
def Obligations.BusCompletionSetsTheEdge : Prop :=
  (∀ (s : State) (d st : Byte), enabled (.busComplete d st) s = true ↔
    ((s.bh.pending = .start ∨ s.bh.pending = .addr ∨ s.bh.pending = .txData ∨ ∃ k, s.bh.pending = .rxData k) ∧
      s.bh.ctrl.en = true ∧ s.fault = none ∧ s.refused = none)) ∧
  ∀ (s : State) (d st : Byte), nextStep s = .busComplete d st → enabled (.busComplete d st) s = true →
    (s.bh.pending = .start →
      step s = .next { advance s with
        bh.trace := s.bh.trace ++ [.start], bh.status := st, bh.int := true, bh.pending := .none }) ∧
    (s.bh.pending = .addr →
      step s = .next { advance s with
        bh.trace := s.bh.trace ++ [.addr s.bh.data], bh.status := st, bh.int := true, bh.pending := .none }) ∧
    (s.bh.pending = .txData →
      step s = .next { advance s with
        bh.trace := s.bh.trace ++ [.tx s.bh.data], bh.status := st, bh.int := true, bh.pending := .none }) ∧
    (∀ k, s.bh.pending = .rxData k →
      step s = .next { advance s with
        bh.data := d, bh.trace := s.bh.trace ++ [.rx d k], bh.status := st, bh.int := true, bh.pending := .none })

/-- When `BUS_HW.STOP_DONE` is enabled, and its effect: `STO` clears, the completion flag is not set (R137). `BUS_STATUS` takes
any value `st`, the old one among them: whether a STOP writes it is left open between R29 and R137, and the model's choice
(log 29). -/
def Obligations.StopCompletionClearsSto : Prop :=
  (∀ (s : State) (st : Byte), enabled (.busStopDone st) s = true ↔
    (s.bh.pending = .stop ∧ s.bh.ctrl.en = true ∧ s.fault = none ∧ s.refused = none)) ∧
  ∀ (s : State) (st : Byte), nextStep s = .busStopDone st → enabled (.busStopDone st) s = true →
    step s = .next { advance s with
      bh.trace := s.bh.trace ++ [.stop], bh.status := st, bh.ctrl.sto := false, bh.pending := .none }

/-- R185, R186, R187: when each UART hardware step is enabled, and its effect. -/
def Obligations.UartHardwareMovesBytes : Prop :=
  (∀ s : State,
    (enabled .rxArrive s = true ↔ (s.wire.rxIn ≠ [] ∧ s.uh.ctrl.rxen = true ∧ s.fault = none ∧ s.refused = none)) ∧
    (enabled .rxDrop s = true ↔ (s.wire.rxIn ≠ [] ∧ s.uh.ctrl.rxen = false ∧ s.fault = none ∧ s.refused = none)) ∧
    (enabled .txShift s = true ↔ (s.uh.txReg ≠ none ∧ s.uh.ctrl.txen = true ∧ s.fault = none ∧ s.refused = none))) ∧
  ∀ (s : State) (b : Byte) (rest : List Byte),
    (nextStep s = .rxArrive → enabled .rxArrive s = true → s.wire.rxIn = b :: rest →
      (s.uh.rxFifo.length < s.params.rxHwDepth →
        step s = .next { advance s with wire.rxIn := rest, uh.rxFifo := s.uh.rxFifo ++ [b] }) ∧
      (s.params.rxHwDepth ≤ s.uh.rxFifo.length →
        step s = .next { advance s with wire.rxIn := rest, uh.hwOvr := s.uh.hwOvr + 1 })) ∧
    (nextStep s = .rxDrop → enabled .rxDrop s = true → s.wire.rxIn = b :: rest →
      step s = .next { advance s with wire.rxIn := rest, uh.hwOvr := s.uh.hwOvr + 1 }) ∧
    (nextStep s = .txShift → enabled .txShift s = true → s.uh.txReg = some b →
      step s = .next { advance s with wire.txOut := s.wire.txOut ++ [b], uh.txReg := none })

/-- R180: when `ISR_RX` is enabled, and its effect with room, on a full ring under `DROP_NEW`, and on a full ring under
`WRAP`. The counter saturates at 255 at R7's width (R46); that it saturates at the largest value of `OVF_WIDTH` bits for another
width is the model's choice (log 14). -/
def Obligations.ReceiveHandlerStoresOrCounts : Prop :=
  (∀ s : State, enabled .isrRx s = true ↔
    (s.gie = true ∧ s.uh.ctrl.rxcie = true ∧ s.uh.rxFifo ≠ [] ∧ s.fault = none ∧ s.refused = none)) ∧
  (∀ v, bumpOvf 8 v = min (v + 1) 255) ∧
  ∀ (s : State) (b : Byte) (rest : List Byte),
    nextStep s = .isrRx → enabled .isrRx s = true → s.uh.rxFifo = b :: rest →
    s.ut.rx.head.toNat < s.params.capRx →
    (nextIdx (maskRx s.params) s.ut.rx.head ≠ s.ut.rx.tail →
      step s = .next { advance s with
        uh.rxFifo := rest
        ut.rx.buf := s.ut.rx.buf.write s.ut.rx.head.toNat b
        ut.rx.head := nextIdx (maskRx s.params) s.ut.rx.head }) ∧
    (nextIdx (maskRx s.params) s.ut.rx.head = s.ut.rx.tail → s.params.rxPolicy = .dropNew →
      step s = .next { advance s with
        uh.rxFifo := rest
        ut.rxOvf := min (s.ut.rxOvf + 1) (2 ^ s.params.ovfWidth - 1) }) ∧
    (nextIdx (maskRx s.params) s.ut.rx.head = s.ut.rx.tail → s.params.rxPolicy = .wrap →
      step s = .next { advance s with
        uh.rxFifo := rest
        ut.rxOvf := min (s.ut.rxOvf + 1) (2 ^ s.params.ovfWidth - 1)
        ut.rx.buf := s.ut.rx.buf.write s.ut.rx.head.toNat b
        ut.rx.head := nextIdx (maskRx s.params) s.ut.rx.head })

/-- R183: when `ISR_TX` is enabled, and its effect: self-disable on an empty ring, else the byte at the tail goes to the
transmit register. -/
def Obligations.TransmitHandlerSendsOrDisables : Prop :=
  (∀ s : State, enabled .isrTx s = true ↔
    (s.gie = true ∧ s.uh.ctrl.udrie = true ∧ s.uh.txReg = none ∧ s.fault = none ∧ s.refused = none)) ∧
  ∀ s : State, nextStep s = .isrTx → enabled .isrTx s = true →
    (s.ut.tx.head = s.ut.tx.tail → step s = .next { advance s with uh.ctrl.udrie := false }) ∧
    (s.ut.tx.head ≠ s.ut.tx.tail → s.ut.tx.tail.toNat < s.params.capTx →
      step s = .next { advance s with
        uh.txReg := some (s.ut.tx.buf.read s.ut.tx.tail.toNat)
        ut.tx.tail := nextIdx (maskTx s.params) s.ut.tx.tail })

/-- R181, R182: under `WRAP` an overflow leaves the ring counted empty, and the next arrival gives count 1 with its byte in
the slot of the oldest one; under `DROP_NEW` an overflow leaves the ring and its contents unchanged, and loses exactly the
arriving byte. -/
def Obligations.OverflowPoliciesLoseWhatTheySay : Prop :=
  (∀ s : State, s.Shaped → s.params.rxPolicy = .wrap → rxc s = true →
    (s.ut.rx.count (maskRx s.params)).toNat = s.params.capRx - 1 →
    ∃ t, isrRx s = .next t ∧ t.ut.rx.head = t.ut.rx.tail ∧ (t.ut.rx.count (maskRx s.params)).toNat = 0 ∧
      t.ut.rx.contents (maskRx s.params) = [] ∧
      ∀ (b : Byte) (rest : List Byte), t.uh.rxFifo = b :: rest →
        ∃ u, isrRx t = .next u ∧ (u.ut.rx.count (maskRx s.params)).toNat = 1 ∧
          u.ut.rx.contents (maskRx s.params) = [b] ∧ u.ut.rx.buf.read s.ut.rx.tail.toNat = b) ∧
  (∀ (s : State) (b : Byte) (rest : List Byte), s.params.rxPolicy = .dropNew → s.uh.rxFifo = b :: rest →
    rxFull s = true → ∃ t, isrRx s = .next t ∧ t.ut.rx = s.ut.rx ∧ t.uh.rxFifo = rest ∧
      t.ut.rx.contents (maskRx t.params) = s.ut.rx.contents (maskRx s.params))

/-- The two handlers commute: from a state where both are enabled, taking both in either order gives the same state (R254). -/
def Obligations.HandlersCommute : Prop :=
  ∀ s : State, s.Shaped → enabled .isrRx s = true → enabled .isrTx s = true →
    ∃ t₁ t₂ u, isrRx s = .next t₁ ∧ enabled .isrTx t₁ = true ∧ isrTx t₁ = .next u ∧
      isrTx s = .next t₂ ∧ enabled .isrRx t₂ = true ∧ isrRx t₂ = .next u

/-- R255: no handler step raises a fault, and none is refused: an enabled handler on rings in range answers a next state with
both sticky marks as they were. -/
def Obligations.HandlersNeverFault : Prop :=
  ∀ s : State, s.Shaped →
    (enabled .isrRx s = true → ∃ t, isrRx s = .next t ∧ t.fault = s.fault ∧ t.refused = s.refused) ∧
    (enabled .isrTx s = true → ∃ t, isrTx s = .next t ∧ t.fault = s.fault ∧ t.refused = s.refused)

/-- A handler step leaves the foreground's own state, `gie` and the bus as they were, and writes only its own direction of the
transport: the receive register, storage, head and overflow counter, or `UDRIE`, the transmit register and the transmit tail
(R251, R252, R261). -/
def Obligations.HandlersWriteOnlyTheirOwnDirection : Prop :=
  ∀ s t : State, step s = .next t →
    (nextStep s = .isrRx →
      t.fg = s.fg ∧ t.gie = s.gie ∧ t.be = s.be ∧ t.bh = s.bh ∧ t.wire = s.wire ∧ t.ut.tx = s.ut.tx ∧
      t.ut.started = s.ut.started ∧ t.ut.rx.tail = s.ut.rx.tail ∧ t.uh = { s.uh with rxFifo := t.uh.rxFifo }) ∧
    (nextStep s = .isrTx →
      t.fg = s.fg ∧ t.gie = s.gie ∧ t.be = s.be ∧ t.bh = s.bh ∧ t.wire = s.wire ∧ t.ut.rx = s.ut.rx ∧
      t.ut.rxOvf = s.ut.rxOvf ∧ t.ut.started = s.ut.started ∧ t.ut.tx.head = s.ut.tx.head ∧
      t.ut.tx.buf = s.ut.tx.buf ∧
      t.uh = { s.uh with ctrl.udrie := t.uh.ctrl.udrie, txReg := t.uh.txReg })

/-! ### Registers and index arithmetic -/

/-- R40: `CtrlWrite(BUS_CTRL, S)` writes every field from `S`; with `INT` it clears the flag and starts the phase the table
gives, without it the flag and the phase are unchanged; nothing else is written. -/
def Obligations.BusControlWriteTriggers : Prop :=
  ∀ (S : List BusField) (s : State) (kind : PhaseKind),
    busCtrlWrite S s kind = { s with bh := { s.bh with
      ctrl := (busCtrlWrite S s kind).bh.ctrl
      int := (busCtrlWrite S s kind).bh.int
      pending := (busCtrlWrite S s kind).bh.pending } } ∧
    (busCtrlWrite S s kind).bh.ctrl =
      { en := decide (.EN ∈ S), sta := decide (.STA ∈ S), sto := decide (.STO ∈ S), ack := decide (.ACK ∈ S),
        ie := decide (.IE ∈ S) } ∧
    (.INT ∉ S →
      (busCtrlWrite S s kind).bh.int = s.bh.int ∧ (busCtrlWrite S s kind).bh.pending = s.bh.pending) ∧
    (.INT ∈ S →
      (busCtrlWrite S s kind).bh.int = false ∧
      (.STA ∈ S → (busCtrlWrite S s kind).bh.pending = .start) ∧
      (.STA ∉ S → .STO ∈ S → (busCtrlWrite S s kind).bh.pending = .stop) ∧
      (.STA ∉ S → .STO ∉ S → kind = .address → (busCtrlWrite S s kind).bh.pending = .addr) ∧
      (.STA ∉ S → .STO ∉ S → kind = .tx → (busCtrlWrite S s kind).bh.pending = .txData) ∧
      (.STA ∉ S → .STO ∉ S → kind = .rx →
        (busCtrlWrite S s kind).bh.pending = .rxData (decide (.ACK ∈ S))))

/-- The address byte is twice the address plus the direction, so no address bit is lost (R121, R64). -/
def Obligations.AddressByteShiftsTheAddress : Prop :=
  ∀ a : Addr7, (sla a false).toNat = 2 * a.toNat ∧ (sla a true).toNat = 2 * a.toNat + 1

/-- Ring index arithmetic for every allowed capacity, in an index width that holds it: count, empty, full, and indices that stay in range (R44). -/
def Obligations.RingArithmeticIsModuloCapacity : Prop :=
  ∀ (width cap : Nat) (r : Ring), CapacityOk cap → cap ≤ 2 ^ width → r.head.toNat < cap → r.tail.toNat < cap →
    (r.count (mask width cap)).toNat = (cap + r.head.toNat - r.tail.toNat) % cap ∧
    (r.count (mask width cap)).toNat ≤ cap - 1 ∧
    (nextIdx (mask width cap) r.head).toNat = (r.head.toNat + 1) % cap ∧
    (r.isEmpty = true ↔ r.head = r.tail) ∧ (r.isEmpty = true ↔ (r.count (mask width cap)).toNat = 0) ∧
    (r.isFull (mask width cap) = true ↔ (r.head.toNat + 1) % cap = r.tail.toNat) ∧
    (r.isFull (mask width cap) = true ↔ (r.count (mask width cap)).toNat = cap - 1)

/-! ### Reset -/

/-- R53, R282: after power-on reset of any launch, every piece of state has the value the table gives; the draws are the
launch's, so every value is admitted. -/
def Obligations.ResetLeavesTheTabulatedState : Prop :=
  ∀ l : Launch,
    (State.launch l).be = { phase := .off, addr := 0, remaining := 0 } ∧
    (State.launch l).bh =
      { ctrl := { en := false, sta := false, sto := false, ack := false, ie := false }, int := false,
        data := l.busData, div := l.busDiv, status := l.busStatus, pending := .none, trace := [] } ∧
    (State.launch l).uh =
      { ctrl := { rxen := false, txen := false, rxcie := false, udrie := false }, rxFifo := [], txReg := none,
        div := l.uartDiv, hwOvr := 0 } ∧
    (State.launch l).wire = { rxIn := l.rxIn, txOut := [] } ∧
    (State.launch l).ut =
      { started := false, rx := { buf := l.rxBuf, head := 0, tail := 0 },
        tx := { buf := l.txBuf, head := 0, tail := 0 }, rxOvf := 0 } ∧
    (State.launch l).gie = false ∧
    (State.launch l).fg = { pc := 0, ms := .fetch, n := none, h := none, b := none, sv := none, results := [] } ∧
    (State.launch l).fault = none ∧ (State.launch l).refused = none ∧
    (State.launch l).program = l.program ∧ (State.launch l).params = l.params

/-- R289: the minimal boot sequence brings up both units from any launch whose `BUS_SPEEDS` has 100, as every well-formed
launch's has, and whose `UART_DIVISOR` supports 9600. -/
def Obligations.BootSequenceStartsBothUnits : Prop :=
  ∀ (l : Launch) (more : List Word) (rest : List AgentStep),
    l.program = 0x10000064 :: 0x20002580 :: 0x31000000 :: more → 100 ∈ l.params.busSpeeds → 9600 ∈ l.params.uartDivisor.map Prod.fst →
    l.sched = [.fg, .fg, .fg, .fg, .fg, .fg] ++ rest →
    ∃ t, runSteps 6 (State.launch l) = .next t ∧ t.be.phase = .idle ∧ t.ut.started = true ∧
      t.uh.ctrl = { rxen := true, txen := true, rxcie := true, udrie := false } ∧
      t.ut.rx.head = 0 ∧ t.ut.rx.tail = 0 ∧ t.ut.tx.head = 0 ∧ t.ut.tx.tail = 0 ∧ t.gie = true ∧ t.fg.pc = 3 ∧
      t.fault = none

/-- Every well-formed launch, and the model's own reset state, meets every invariant. -/
def Obligations.LaunchMeetsTheInvariants : Prop :=
  (∀ l : Launch, l.wf → (State.launch l).Inv) ∧ State.reset.Inv

/-! ### Invariants every step keeps -/

/-- Ring indices, storage form, the ranges of the registers, of the session attributes and of the overflow counter, and the
foreground's position stay well-formed under every step of every agent (R20, R44, R46, R49, R62, R190). -/
def Obligations.StepsKeepTheShape : Prop :=
  ∀ s t : State, s.Inv → step s = .next t → t.Shaped ∧ t.Positioned

/-- The bus session invariant: at every label the phase, the triggered phase, the completion flag and every control field
(`EN`, `STA`, `STO`, `ACK`, `IE`) are those the label calls for (R123, R126 to R133, R135, R138, R249). -/
def Obligations.StepsKeepTheBusSession : Prop :=
  ∀ s t : State, s.Inv → step s = .next t → t.SessionOk

/-- R184: the pump is active or the ring is empty, except inside the two operations that are about to restore it; a completed
`send` leaves it active; only `ISR_TX` on an empty ring and `UART_BEGIN` turn it idle. -/
def Obligations.StepsKeepThePump : Prop :=
  (∀ s t : State, s.Inv → step s = .next t → t.PumpOk) ∧
  (∀ (d : Byte) (s t : State), s.fg.ms = .s4 → exec (.uartSend d) s = .next t → t.uh.ctrl.udrie = true) ∧
  (∀ s t : State, step s = .next t → s.uh.ctrl.udrie = true → t.uh.ctrl.udrie = false →
    (nextStep s = .isrTx ∧ s.ut.tx.head = s.ut.tx.tail) ∨
      (nextStep s = .fg ∧ (s.fg.ms = .fetch ∨ s.fg.ms = .u3) ∧ ∃ v, currentInstr s = some (.uartBegin v)))

/-- Before the first successful `begin` and inside any `begin` the UART is disabled; afterwards its enables are set; inside
any other transport operation it is started (R53, R170, R171, R221). -/
def Obligations.StepsKeepTheStartDiscipline : Prop :=
  ∀ s t : State, s.Inv → step s = .next t → t.StartedOk

/-- In a state that meets the invariants and has no sticky mark, every scheduled step answers a next state: no model fault can
be produced (R49, R62, R255). -/
def Obligations.InvariantStatesAlwaysStep : Prop :=
  ∀ s : State, s.Inv → running s = true → ∃ t, step s = .next t

/-! ### What changes what -/

/-- R48: `fg.pc` starts at 0; it advances by exactly 1 when the last micro-step of an operation completes, whether the
operation has several micro-steps or one; no step sets it to any other value. A finished foreground has no step by R48; when
the schedule chooses it all the same, the model moves on the schedule and nothing else, which is the model's choice (log 4). -/
def Obligations.PcAdvancesByOneOrStays : Prop :=
  (∀ l : Launch, (State.launch l).fg.pc = 0) ∧
  (∀ s t : State, step s = .next t →
    t.fg.pc = s.fg.pc ∨ (t.fg.pc = s.fg.pc + 1 ∧ t.fg.ms = .fetch ∧ nextStep s = .fg)) ∧
  (∀ s t : State, step s = .next t → s.fg.ms ≠ .fetch → t.fg.ms = .fetch → t.fg.pc = s.fg.pc + 1) ∧
  (∀ (s t : State) (i : Instr), step s = .next t → nextStep s = .fg → s.fg.ms = .fetch → currentInstr s = some i →
    t.fg.ms = .fetch → t.fault = none → t.fg.pc = s.fg.pc + 1) ∧
  (∀ s : State, running s = true → s.fg.pc = s.program.length → nextStep s = .fg → step s = .next (advance s))

/-- R79: no step writes the program; and no step writes the parameters. -/
def Obligations.ProgramAndParametersNeverChange : Prop :=
  ∀ s t : State, step s = .next t → t.program = s.program ∧ t.params = s.params

/-- R45: each ring index has one writer, plus the index reset of `UART_BEGIN`, which runs with both UART interrupts
disabled. -/
def Obligations.EachRingIndexHasOneWriter : Prop :=
  ∀ s t : State, s.Inv → step s = .next t →
    (t.ut.rx.head ≠ s.ut.rx.head → nextStep s = .isrRx ∨ resetsRings s) ∧
    (t.ut.rx.tail ≠ s.ut.rx.tail →
      (nextStep s = .fg ∧ (currentInstr s = some .uartReceive ∨ currentInstr s = some .uartFlush)) ∨ resetsRings s) ∧
    (t.ut.tx.head ≠ s.ut.tx.head →
      (nextStep s = .fg ∧ ∃ d, currentInstr s = some (.uartSend d)) ∨ resetsRings s) ∧
    (t.ut.tx.tail ≠ s.ut.tx.tail → nextStep s = .isrTx ∨ resetsRings s) ∧
    (resetsRings s → enabled .isrRx s = false ∧ enabled .isrTx s = false)

/-- Every byte of ring storage keeps its value in every micro-step of every operation, except the byte at the head of the
transmit ring in S2 of `UART_SEND d`, which becomes `d` (R45, R61, R173). -/
def Obligations.OperationsStoreOnlyAtTheTransmitHead : Prop :=
  ∀ (i : Instr) (s t : State), s.Shaped → exec i s = .next t →
    (∀ a, t.ut.rx.buf.read a = s.ut.rx.buf.read a) ∧
    (∀ d, i = .uartSend d → s.fg.ms = .s2 → ∀ a,
      t.ut.tx.buf.read a = if a = s.ut.tx.head.toNat then d else s.ut.tx.buf.read a) ∧
    (¬((∃ d, i = .uartSend d) ∧ s.fg.ms = .s2) → ∀ a, t.ut.tx.buf.read a = s.ut.tx.buf.read a)

/-- Every byte of ring storage keeps its value in every step of every other agent, except the byte at the head of the receive
ring in a storing `ISR_RX` step, which becomes the byte popped (R61, R180). -/
def Obligations.OtherAgentsStoreOnlyAtTheReceiveHead : Prop :=
  ∀ (a : AgentStep) (s t : State), s.Shaped → a ≠ .fg → agentStep a s = .next t →
    (∀ k, t.ut.tx.buf.read k = s.ut.tx.buf.read k) ∧
    (∀ k, k ≠ s.ut.rx.head.toNat ∨ a ≠ .isrRx → t.ut.rx.buf.read k = s.ut.rx.buf.read k) ∧
    (t.ut.rx.head ≠ s.ut.rx.head → ∃ b rest, s.uh.rxFifo = b :: rest ∧ t.ut.rx.buf.read s.ut.rx.head.toNat = b)

/-- Neither unit's operations write the other's state: a micro-step of a bus operation leaves the transport, the UART hardware, the wire and `gie`
as they were, and one of a transport operation leaves the bus engine and the bus hardware (R287, R249, R222). -/
def Obligations.UnitsLeaveEachOtherAlone : Prop :=
  ∀ (i : Instr) (s t : State), exec i s = .next t →
    (isBusOp i →
      t.ut = s.ut ∧ t.uh = s.uh ∧ t.wire = s.wire ∧ t.gie = s.gie ∧ t.refused = s.refused ∧ t.sched = s.sched ∧
      t.fg.n = s.fg.n ∧ t.fg.h = s.fg.h ∧ t.fg.sv = s.fg.sv) ∧
    (isTransportOp i →
      t.be = s.be ∧ t.bh = s.bh ∧ t.wire = s.wire ∧ t.gie = s.gie ∧ t.refused = s.refused ∧ t.sched = s.sched ∧
      t.uh.txReg = s.uh.txReg ∧ t.uh.hwOvr = s.uh.hwOvr)

/-- The bus engine works the same with `gie = 0` and `gie = 1` (R249, R298). -/
def Obligations.BusOperationsIgnoreGie : Prop :=
  ∀ (i : Instr) (s : State) (g : Bool), isBusOp i →
    (∀ t, exec i s = .next t → exec i { s with gie := g } = .next { t with gie := g }) ∧
    (∀ f, exec i s = .fault f → exec i { s with gie := g } = .fault f)

/-- `BUS_STATUS`, the divisor registers, `be.addr` and the observation lists are read by no rule: two states that differ only
there step alike, to states that differ only there (R22, R28, R29, R31, R35, R37, R50, R125). -/
def Obligations.UnreadStateIsNeverRead : Prop :=
  ∀ s₁ s₂ : State, SameButUnread s₁ s₂ →
    (∀ t₁, step s₁ = .next t₁ → ∃ t₂, step s₂ = .next t₂ ∧ SameButUnread t₁ t₂) ∧
    (∀ f, step s₁ = .fault f → step s₂ = .fault f) ∧ (∀ r, step s₁ = .refused r → step s₂ = .refused r)

/-- The observation lists only grow at their ends, each by its own agent: `bus_trace` by `BUS_HW`, `tx_out` by the
transmitter, `results` by the foreground; `rx_in` only loses its head, to the receiver (R31, R36, R50). -/
def Obligations.ObservationsOnlyGrow : Prop :=
  ∀ s t : State, step s = .next t →
    (t.bh.trace = s.bh.trace ∨ (isBusHw (nextStep s) ∧ ∃ e, t.bh.trace = s.bh.trace ++ [e])) ∧
    (t.wire.txOut = s.wire.txOut ∨ (nextStep s = .txShift ∧ ∃ b, t.wire.txOut = s.wire.txOut ++ [b])) ∧
    (t.fg.results = s.fg.results ∨ (nextStep s = .fg ∧ ∃ b, t.fg.results = s.fg.results ++ [b])) ∧
    (t.wire.rxIn = s.wire.rxIn ∨ ((nextStep s = .rxArrive ∨ nextStep s = .rxDrop) ∧ t.wire.rxIn = s.wire.rxIn.tail))

/-- A bus session opens only from `IDLE`, only when a START completed by `BUS_BEGIN_TX` or `BUS_REQUEST_FROM` is seen, and
closes only at the end of `BUS_END_TX`; a second opening operation faults (R24, R122). -/
def Obligations.SessionsOpenOnlyFromIdle : Prop :=
  (∀ s t : State, s.Inv → step s = .next t → ¬s.be.phase.sessionOpen → t.be.phase.sessionOpen →
    s.be.phase = .idle ∧ nextStep s = .fg ∧
      ((∃ a, currentInstr s = some (.busBeginTx a)) ∨ ∃ a c, currentInstr s = some (.busRequestFrom a c))) ∧
  (∀ s t : State, s.Inv → step s = .next t → s.be.phase.sessionOpen → ¬t.be.phase.sessionOpen →
    nextStep s = .fg ∧ currentInstr s = some .busEndTx ∧ t.be.phase = .idle) ∧
  (∀ (s : State) (a : Addr7) (c : Count), s.fg.ms = .fetch → s.be.phase.sessionOpen →
    exec (.busBeginTx a) s =
      .next (s.withFault (.protocolSequenceError .BUS_BEGIN_TX s.be.phase s.be.remaining)) ∧
    exec (.busRequestFrom a c) s =
      .next (s.withFault (.protocolSequenceError .BUS_REQUEST_FROM s.be.phase s.be.remaining)))

/-! ### Order of bytes -/

/-- The transmit path is a FIFO: the bytes on the wire, in the transmit register and in the ring, in that order, change only
by a `send` appending its byte at S3 and by `UART_BEGIN` discarding the ring (R188 to R190, R189, R172). -/
def Obligations.TransmitPathIsFifo : Prop :=
  ∀ s t : State, s.Inv → step s = .next t →
    (∀ d, publishes s = some d → txLine t = txLine s ++ [d]) ∧
    (resetsRings s → txLine t = s.wire.txOut ++ s.uh.txReg.toList) ∧
    (publishes s = none → ¬resetsRings s → txLine t = txLine s)

/-- The receive path is a FIFO while nothing is lost: the bytes in the ring, in the receive register and not yet delivered, in
that order, change only by a `receive` returning the oldest; and without an overflow a `receive` in progress keeps the byte it
saw (R188, R191). -/
def Obligations.ReceivePathIsFifo : Prop :=
  ∀ s t : State, s.Inv → s.CaptureOk → step s = .next t → ¬overflows s →
    t.CaptureOk ∧
    (t.uh.hwOvr = s.uh.hwOvr → ¬discardsReceived s →
      (¬dequeues s → rxLine t = rxLine s) ∧
      (dequeues s → ∃ b, rxLine s = b :: rxLine t ∧ t.fg.results = s.fg.results ++ [b]))

/-! ### Waiting -/

/-- A stalled bus is a hang, not a fault: while no `BUS_HW` step is taken, a foreground held on the bus stays where it is and
no fault is recorded, however long the schedule goes on without one; and a full transmit ring with interrupts disabled holds
a `send` for ever (R124, R239, R174, R284, R291). That a schedule may choose the held foreground at all is the model's choice
(log 4, log 5). -/
def Obligations.WaitsEndOnlyByTheirOwnAgent : Prop :=
  (∀ s t : State, s.Inv → heldOnBus s → step s = .next t → ¬isBusHw (nextStep s) →
    t.fg = s.fg ∧ heldOnBus t ∧ t.be = s.be ∧ t.fault = none) ∧
  (∀ (s : State) (quiet rest : List AgentStep), s.Inv → heldOnBus s → running s = true → s.sched = quiet ++ rest →
    (∀ a ∈ quiet, ¬isBusHw a) →
    ∃ t, runSteps quiet.length s = .next t ∧ t.fg = s.fg ∧ heldOnBus t ∧ t.fault = none ∧ t.sched = rest) ∧
  (∀ s t : State, s.Inv → heldOnSend s → step s = .next t → nextStep s ≠ .isrTx → t.fg = s.fg ∧ heldOnSend t) ∧
  (∀ r : Nat → State, IsRun r → (r 0).Inv → heldOnSend (r 0) → (r 0).gie = false → Hung r)

/-- Under `BUS_RESPONSIVE` every bus hold ends (R139). That the premise is weak fairness for the steps of `BUS_HW` is read from
the spec by inference (log 27, DEDUCED). -/
def Obligations.ResponsiveBusEndsEveryHold : Prop :=
  ∀ r : Nat → State, IsRun r → BusResponsive r → (r 0).Inv → heldOnBus (r 0) → ∃ k, held (r k) = false

/-- Under `UART_FAIR`, with interrupts enabled, a `send` held on a full ring goes on; and once the program is finished, every
byte still on its way out reaches the wire, in order (R174, R190, R192, R284). That the premise is weak fairness for each of
the three steps is read from the spec by inference (log 27, DEDUCED). -/
def Obligations.FairUartEndsTheSendHoldAndDrains : Prop :=
  (∀ r : Nat → State, IsRun r → UartFair r → (r 0).Inv → heldOnSend (r 0) → (r 0).gie = true →
    ∃ k, held (r k) = false) ∧
  (∀ r : Nat → State, IsRun r → UartFair r → (r 0).Inv → (r 0).finished → (r 0).ut.started = true → (r 0).gie = true →
    ∃ k, (r k).ut.tx.isEmpty = true ∧ (r k).uh.txReg = none ∧ (r k).wire.txOut = txLine (r 0))
end

