-- ==== Sys2Proof/Laws/Memory.lean ====
section
/-! SUPPORT. Byte storage: a write is read back and touches no other address; every operation keeps the canonical form and
the address range; the ring accesses in terms of them. -/

namespace Sys2Proof.Machine

@[simp] theorem Memory.read_nil (a : Nat) : Memory.read [] a = unlisted := rfl

theorem Memory.read_of_lt_all {m : Memory} {a : Nat} (h : ∀ c ∈ m, a < c.1) : m.read a = unlisted := by
  induction m with
  | nil => rfl
  | cons c m ih =>
    have hc := h c (by simp)
    rw [Memory.read, if_neg (by omega)]
    exact ih fun d hd => h d (by simp [hd])

theorem Memory.mem_write {m : Memory} {a : Nat} {v : Byte} {c : Host.Cell} (h : c ∈ m.write a v) :
    c ∈ m ∨ (c = (a, v) ∧ v ≠ unlisted) := by
  induction m with
  | nil =>
    simp only [Memory.write] at h
    split at h <;> simp_all
  | cons d m ih =>
    simp only [Memory.write] at h
    split at h
    · split at h
      · exact .inl h
      · rcases List.mem_cons.1 h with h | h
        · exact .inr ⟨h, ‹_›⟩
        · exact .inl h
    · split at h
      · split at h
        · exact .inl (List.mem_cons_of_mem _ h)
        · rcases List.mem_cons.1 h with h | h
          · exact .inr ⟨h, ‹_›⟩
          · exact .inl (List.mem_cons_of_mem _ h)
      · rcases List.mem_cons.1 h with h | h
        · exact .inl (by simp [h])
        · exact (ih h).imp (List.mem_cons_of_mem _) id

/-- A write keeps the canonical form. -/
theorem Memory.write_wf {m : Memory} (h : m.wf) (a : Nat) (v : Byte) : (m.write a v).wf := by
  refine ⟨?_, fun c hc => ?_⟩
  · have hs := h.1
    clear h
    induction m with
    | nil => simp only [Memory.write]; split <;> simp
    | cons d m ih =>
      have hd := List.pairwise_cons.1 hs
      simp only [Memory.write]
      split
      · split
        · exact hs
        · refine List.pairwise_cons.2 ⟨fun c hc => ?_, hs⟩
          rcases List.mem_cons.1 hc with rfl | hc
          · assumption
          · exact lt_trans ‹_› (hd.1 c hc)
      · split
        · split
          · exact hd.2
          · subst a
            exact List.pairwise_cons.2 ⟨fun c hc => hd.1 c hc, hd.2⟩
        · refine List.pairwise_cons.2 ⟨fun c hc => ?_, ih hd.2⟩
          rcases Memory.mem_write hc with hc | ⟨rfl, -⟩
          · exact hd.1 c hc
          · simp only; omega
  · rcases Memory.mem_write hc with hc | ⟨rfl, hv⟩
    · exact h.2 c hc
    · exact hv

/-- A write below a bound keeps every listed address below it. -/
theorem Memory.write_bound {m : Memory} {cap a : Nat} (h : ∀ c ∈ m, c.1 < cap) (ha : a < cap) (v : Byte) :
    ∀ c ∈ m.write a v, c.1 < cap := fun _ hc =>
  match Memory.mem_write hc with
  | .inl hc => h _ hc
  | .inr ⟨hc, _⟩ => hc ▸ ha

/-- A read after a write: the written byte at its address, every other address as before. -/
theorem Memory.read_write {m : Memory} (h : m.wf) (a b : Nat) (v : Byte) :
    (m.write a v).read b = if b = a then v else m.read b := by
  have hs := h.1
  clear h
  induction m with
  | nil =>
    simp only [Memory.write]
    split <;> simp only [Memory.read] <;> split <;> simp_all
    all_goals omega
  | cons d m ih =>
    have hd := List.pairwise_cons.1 hs
    have hm : ∀ x ≤ d.1, Memory.read m x = unlisted := fun x hx =>
      Memory.read_of_lt_all fun c hc => lt_of_le_of_lt hx (hd.1 c hc)
    by_cases hlt : a < d.1
    · have ha : Memory.read m a = unlisted := hm a (by omega)
      by_cases hv : v = unlisted <;> by_cases hb : b = a
      all_goals simp only [Memory.write, hlt, hv, hb, if_true, if_false, Memory.read]
      · rw [if_neg (by omega), ha]
      · rw [if_neg (by omega)]
    · by_cases hae : a = d.1
      · by_cases hv : v = unlisted <;> by_cases hb : b = a
        all_goals simp only [Memory.write, hae, hv, if_true, if_false, Memory.read, lt_irrefl]
        · rw [hb, hae, if_pos rfl, hm _ le_rfl]
        · rw [if_neg (by omega), if_neg (by omega)]
        · rw [if_pos (by omega), if_pos (by omega)]
        · rw [if_neg (by omega), if_neg (by omega), if_neg (by omega)]
      · simp only [Memory.write, hlt, hae, if_false, Memory.read]
        by_cases hb : d.1 = b
        · rw [if_pos hb, if_neg (by omega), if_pos hb]
        · rw [if_neg hb, if_neg hb, ih hd.2]

/-- Equal reads make equal memories: the canonical form is canonical. -/
theorem Memory.ext_read {m n : Memory} (hm : m.wf) (hn : n.wf) (h : ∀ a, m.read a = n.read a) : m = n := by
  induction m generalizing n with
  | nil =>
    cases n with
    | nil => rfl
    | cons d n =>
      have := h d.1
      simp [Memory.read] at this
      exact absurd this.symm (hn.2 d (by simp))
  | cons c m ih =>
    cases n with
    | nil =>
      have := h c.1
      simp [Memory.read] at this
      exact absurd this (hm.2 c (by simp))
    | cons d n =>
      have hmc := List.pairwise_cons.1 hm.1
      have hnd := List.pairwise_cons.1 hn.1
      have hc0 := hm.2 c (by simp)
      have hd0 := hn.2 d (by simp)
      have key : c.1 = d.1 := by
        rcases lt_trichotomy c.1 d.1 with hl | he | hl
        · have := h c.1
          rw [Memory.read, if_pos rfl, Memory.read_of_lt_all] at this
          · exact absurd this hc0
          · intro e he
            rcases List.mem_cons.1 he with rfl | he
            · exact hl
            · exact lt_trans hl (hnd.1 e he)
        · exact he
        · have := h d.1
          rw [eq_comm, Memory.read, if_pos rfl, Memory.read_of_lt_all] at this
          · exact absurd this hd0
          · intro e he
            rcases List.mem_cons.1 he with rfl | he
            · exact hl
            · exact lt_trans hl (hmc.1 e he)
      have hv : c.2 = d.2 := by
        have := h c.1
        rwa [Memory.read, if_pos rfl, Memory.read, if_pos key.symm] at this
      have htail : m = n := by
        refine ih ⟨hmc.2, fun e he => hm.2 e (by simp [he])⟩ ⟨hnd.2, fun e he => hn.2 e (by simp [he])⟩ fun a => ?_
        have ha := h a
        simp only [Memory.read] at ha
        by_cases hca : c.1 = a
        · rw [Memory.read_of_lt_all fun e he => hca ▸ hmc.1 e he,
            Memory.read_of_lt_all fun e he => hca ▸ key ▸ hnd.1 e he]
        · rwa [if_neg hca, if_neg (by omega)] at ha
      rw [htail, Prod.ext key hv]

/-- Everything a slot write can do. -/
theorem Ring.slotWrite_eq_some {cap : Nat} {r r' : Ring} {i : Idx} {v : Byte} (h : r.slotWrite cap i v = some r') :
    i.toNat < cap ∧ r' = { r with buf := r.buf.write i.toNat v } := by
  unfold Ring.slotWrite at h
  split at h
  · exact ⟨‹_›, (Option.some.inj h).symm⟩
  · cases h

theorem Ring.slotWrite_of_lt {cap : Nat} {r : Ring} {i : Idx} (h : i.toNat < cap) (v : Byte) :
    r.slotWrite cap i v = some { r with buf := r.buf.write i.toNat v } := if_pos h

/-- Everything a slot read can do. -/
theorem Ring.slotRead_eq_some {cap : Nat} {r : Ring} {i : Idx} {v : Byte} (h : r.slotRead cap i = some v) :
    i.toNat < cap ∧ v = r.buf.read i.toNat := by
  unfold Ring.slotRead at h
  split at h
  · exact ⟨‹_›, (Option.some.inj h).symm⟩
  · cases h

theorem Ring.slotRead_of_lt {cap : Nat} {r : Ring} {i : Idx} (h : i.toNat < cap) :
    r.slotRead cap i = some (r.buf.read i.toNat) := if_pos h

end Sys2Proof.Machine
end

