-- ==== Sys2Proof/Laws/State.lean ====
section
/-! SUPPORT. One lemma per field per update, true by rfl, so that no later proof unfolds a record update. -/

namespace Sys2Proof.Machine

/-! ### `busCtrlWrite` -/

@[simp] theorem busCtrlWrite_params (S : List BusField) (s : State) (k : PhaseKind) : (busCtrlWrite S s k).params = s.params := rfl
@[simp] theorem busCtrlWrite_program (S : List BusField) (s : State) (k : PhaseKind) : (busCtrlWrite S s k).program = s.program := rfl
@[simp] theorem busCtrlWrite_sched (S : List BusField) (s : State) (k : PhaseKind) : (busCtrlWrite S s k).sched = s.sched := rfl
@[simp] theorem busCtrlWrite_tick (S : List BusField) (s : State) (k : PhaseKind) : (busCtrlWrite S s k).tick = s.tick := rfl
@[simp] theorem busCtrlWrite_be (S : List BusField) (s : State) (k : PhaseKind) : (busCtrlWrite S s k).be = s.be := rfl
@[simp] theorem busCtrlWrite_uh (S : List BusField) (s : State) (k : PhaseKind) : (busCtrlWrite S s k).uh = s.uh := rfl
@[simp] theorem busCtrlWrite_wire (S : List BusField) (s : State) (k : PhaseKind) : (busCtrlWrite S s k).wire = s.wire := rfl
@[simp] theorem busCtrlWrite_ut (S : List BusField) (s : State) (k : PhaseKind) : (busCtrlWrite S s k).ut = s.ut := rfl
@[simp] theorem busCtrlWrite_gie (S : List BusField) (s : State) (k : PhaseKind) : (busCtrlWrite S s k).gie = s.gie := rfl
@[simp] theorem busCtrlWrite_fg (S : List BusField) (s : State) (k : PhaseKind) : (busCtrlWrite S s k).fg = s.fg := rfl
@[simp] theorem busCtrlWrite_fault (S : List BusField) (s : State) (k : PhaseKind) : (busCtrlWrite S s k).fault = s.fault := rfl
@[simp] theorem busCtrlWrite_refused (S : List BusField) (s : State) (k : PhaseKind) : (busCtrlWrite S s k).refused = s.refused := rfl
@[simp] theorem busCtrlWrite_bh_int (S : List BusField) (s : State) (k : PhaseKind) : (busCtrlWrite S s k).bh.int = (if BusField.INT ∈ S then false else s.bh.int) := rfl
@[simp] theorem busCtrlWrite_bh_pending (S : List BusField) (s : State) (k : PhaseKind) : (busCtrlWrite S s k).bh.pending = (if BusField.INT ∈ S then triggered S k else s.bh.pending) := rfl
@[simp] theorem busCtrlWrite_bh_data (S : List BusField) (s : State) (k : PhaseKind) : (busCtrlWrite S s k).bh.data = s.bh.data := rfl
@[simp] theorem busCtrlWrite_bh_div (S : List BusField) (s : State) (k : PhaseKind) : (busCtrlWrite S s k).bh.div = s.bh.div := rfl
@[simp] theorem busCtrlWrite_bh_status (S : List BusField) (s : State) (k : PhaseKind) : (busCtrlWrite S s k).bh.status = s.bh.status := rfl
@[simp] theorem busCtrlWrite_bh_trace (S : List BusField) (s : State) (k : PhaseKind) : (busCtrlWrite S s k).bh.trace = s.bh.trace := rfl
@[simp] theorem busCtrlWrite_bh_ctrl_en (S : List BusField) (s : State) (k : PhaseKind) : (busCtrlWrite S s k).bh.ctrl.en = (decide (BusField.EN ∈ S)) := rfl
@[simp] theorem busCtrlWrite_bh_ctrl_sta (S : List BusField) (s : State) (k : PhaseKind) : (busCtrlWrite S s k).bh.ctrl.sta = (decide (BusField.STA ∈ S)) := rfl
@[simp] theorem busCtrlWrite_bh_ctrl_sto (S : List BusField) (s : State) (k : PhaseKind) : (busCtrlWrite S s k).bh.ctrl.sto = (decide (BusField.STO ∈ S)) := rfl
@[simp] theorem busCtrlWrite_bh_ctrl_ack (S : List BusField) (s : State) (k : PhaseKind) : (busCtrlWrite S s k).bh.ctrl.ack = (decide (BusField.ACK ∈ S)) := rfl
@[simp] theorem busCtrlWrite_bh_ctrl_ie (S : List BusField) (s : State) (k : PhaseKind) : (busCtrlWrite S s k).bh.ctrl.ie = (decide (BusField.IE ∈ S)) := rfl

/-! ### `uartCtrlWrite` -/

@[simp] theorem uartCtrlWrite_params (S : List UartField) (s : State) : (uartCtrlWrite S s).params = s.params := rfl
@[simp] theorem uartCtrlWrite_program (S : List UartField) (s : State) : (uartCtrlWrite S s).program = s.program := rfl
@[simp] theorem uartCtrlWrite_sched (S : List UartField) (s : State) : (uartCtrlWrite S s).sched = s.sched := rfl
@[simp] theorem uartCtrlWrite_tick (S : List UartField) (s : State) : (uartCtrlWrite S s).tick = s.tick := rfl
@[simp] theorem uartCtrlWrite_be (S : List UartField) (s : State) : (uartCtrlWrite S s).be = s.be := rfl
@[simp] theorem uartCtrlWrite_bh (S : List UartField) (s : State) : (uartCtrlWrite S s).bh = s.bh := rfl
@[simp] theorem uartCtrlWrite_wire (S : List UartField) (s : State) : (uartCtrlWrite S s).wire = s.wire := rfl
@[simp] theorem uartCtrlWrite_ut (S : List UartField) (s : State) : (uartCtrlWrite S s).ut = s.ut := rfl
@[simp] theorem uartCtrlWrite_gie (S : List UartField) (s : State) : (uartCtrlWrite S s).gie = s.gie := rfl
@[simp] theorem uartCtrlWrite_fg (S : List UartField) (s : State) : (uartCtrlWrite S s).fg = s.fg := rfl
@[simp] theorem uartCtrlWrite_fault (S : List UartField) (s : State) : (uartCtrlWrite S s).fault = s.fault := rfl
@[simp] theorem uartCtrlWrite_refused (S : List UartField) (s : State) : (uartCtrlWrite S s).refused = s.refused := rfl
@[simp] theorem uartCtrlWrite_uh_rxFifo (S : List UartField) (s : State) : (uartCtrlWrite S s).uh.rxFifo = (if UartField.RXEN ∈ S then s.uh.rxFifo else []) := rfl
@[simp] theorem uartCtrlWrite_uh_txReg (S : List UartField) (s : State) : (uartCtrlWrite S s).uh.txReg = s.uh.txReg := rfl
@[simp] theorem uartCtrlWrite_uh_div (S : List UartField) (s : State) : (uartCtrlWrite S s).uh.div = s.uh.div := rfl
@[simp] theorem uartCtrlWrite_uh_hwOvr (S : List UartField) (s : State) : (uartCtrlWrite S s).uh.hwOvr = s.uh.hwOvr := rfl
@[simp] theorem uartCtrlWrite_uh_ctrl_rxen (S : List UartField) (s : State) : (uartCtrlWrite S s).uh.ctrl.rxen = (decide (UartField.RXEN ∈ S)) := rfl
@[simp] theorem uartCtrlWrite_uh_ctrl_txen (S : List UartField) (s : State) : (uartCtrlWrite S s).uh.ctrl.txen = (decide (UartField.TXEN ∈ S)) := rfl
@[simp] theorem uartCtrlWrite_uh_ctrl_rxcie (S : List UartField) (s : State) : (uartCtrlWrite S s).uh.ctrl.rxcie = (decide (UartField.RXCIE ∈ S)) := rfl
@[simp] theorem uartCtrlWrite_uh_ctrl_udrie (S : List UartField) (s : State) : (uartCtrlWrite S s).uh.ctrl.udrie = (decide (UartField.UDRIE ∈ S)) := rfl

/-! ### `setUdrie` -/

@[simp] theorem setUdrie_params (v : Bool) (s : State) : (setUdrie v s).params = s.params := rfl
@[simp] theorem setUdrie_program (v : Bool) (s : State) : (setUdrie v s).program = s.program := rfl
@[simp] theorem setUdrie_sched (v : Bool) (s : State) : (setUdrie v s).sched = s.sched := rfl
@[simp] theorem setUdrie_tick (v : Bool) (s : State) : (setUdrie v s).tick = s.tick := rfl
@[simp] theorem setUdrie_be (v : Bool) (s : State) : (setUdrie v s).be = s.be := rfl
@[simp] theorem setUdrie_bh (v : Bool) (s : State) : (setUdrie v s).bh = s.bh := rfl
@[simp] theorem setUdrie_wire (v : Bool) (s : State) : (setUdrie v s).wire = s.wire := rfl
@[simp] theorem setUdrie_ut (v : Bool) (s : State) : (setUdrie v s).ut = s.ut := rfl
@[simp] theorem setUdrie_gie (v : Bool) (s : State) : (setUdrie v s).gie = s.gie := rfl
@[simp] theorem setUdrie_fg (v : Bool) (s : State) : (setUdrie v s).fg = s.fg := rfl
@[simp] theorem setUdrie_fault (v : Bool) (s : State) : (setUdrie v s).fault = s.fault := rfl
@[simp] theorem setUdrie_refused (v : Bool) (s : State) : (setUdrie v s).refused = s.refused := rfl
@[simp] theorem setUdrie_uh_ctrl_udrie (v : Bool) (s : State) : (setUdrie v s).uh.ctrl.udrie = v := rfl
@[simp] theorem setUdrie_uh_ctrl_rxen (v : Bool) (s : State) : (setUdrie v s).uh.ctrl.rxen = s.uh.ctrl.rxen := rfl
@[simp] theorem setUdrie_uh_ctrl_txen (v : Bool) (s : State) : (setUdrie v s).uh.ctrl.txen = s.uh.ctrl.txen := rfl
@[simp] theorem setUdrie_uh_ctrl_rxcie (v : Bool) (s : State) : (setUdrie v s).uh.ctrl.rxcie = s.uh.ctrl.rxcie := rfl
@[simp] theorem setUdrie_uh_rxFifo (v : Bool) (s : State) : (setUdrie v s).uh.rxFifo = s.uh.rxFifo := rfl
@[simp] theorem setUdrie_uh_txReg (v : Bool) (s : State) : (setUdrie v s).uh.txReg = s.uh.txReg := rfl
@[simp] theorem setUdrie_uh_div (v : Bool) (s : State) : (setUdrie v s).uh.div = s.uh.div := rfl
@[simp] theorem setUdrie_uh_hwOvr (v : Bool) (s : State) : (setUdrie v s).uh.hwOvr = s.uh.hwOvr := rfl

/-! ### `txDataWrite` -/

@[simp] theorem txDataWrite_params (b : Byte) (s : State) : (txDataWrite b s).params = s.params := rfl
@[simp] theorem txDataWrite_program (b : Byte) (s : State) : (txDataWrite b s).program = s.program := rfl
@[simp] theorem txDataWrite_sched (b : Byte) (s : State) : (txDataWrite b s).sched = s.sched := rfl
@[simp] theorem txDataWrite_tick (b : Byte) (s : State) : (txDataWrite b s).tick = s.tick := rfl
@[simp] theorem txDataWrite_be (b : Byte) (s : State) : (txDataWrite b s).be = s.be := rfl
@[simp] theorem txDataWrite_bh (b : Byte) (s : State) : (txDataWrite b s).bh = s.bh := rfl
@[simp] theorem txDataWrite_wire (b : Byte) (s : State) : (txDataWrite b s).wire = s.wire := rfl
@[simp] theorem txDataWrite_ut (b : Byte) (s : State) : (txDataWrite b s).ut = s.ut := rfl
@[simp] theorem txDataWrite_gie (b : Byte) (s : State) : (txDataWrite b s).gie = s.gie := rfl
@[simp] theorem txDataWrite_fg (b : Byte) (s : State) : (txDataWrite b s).fg = s.fg := rfl
@[simp] theorem txDataWrite_fault (b : Byte) (s : State) : (txDataWrite b s).fault = s.fault := rfl
@[simp] theorem txDataWrite_refused (b : Byte) (s : State) : (txDataWrite b s).refused = s.refused := rfl
@[simp] theorem txDataWrite_uh_txReg (b : Byte) (s : State) : (txDataWrite b s).uh.txReg = (some b) := rfl
@[simp] theorem txDataWrite_uh_ctrl (b : Byte) (s : State) : (txDataWrite b s).uh.ctrl = s.uh.ctrl := rfl
@[simp] theorem txDataWrite_uh_rxFifo (b : Byte) (s : State) : (txDataWrite b s).uh.rxFifo = s.uh.rxFifo := rfl
@[simp] theorem txDataWrite_uh_div (b : Byte) (s : State) : (txDataWrite b s).uh.div = s.uh.div := rfl
@[simp] theorem txDataWrite_uh_hwOvr (b : Byte) (s : State) : (txDataWrite b s).uh.hwOvr = s.uh.hwOvr := rfl

/-! ### `emit` -/

@[simp] theorem emit_params (e : BusEvent) (s : State) : (emit e s).params = s.params := rfl
@[simp] theorem emit_program (e : BusEvent) (s : State) : (emit e s).program = s.program := rfl
@[simp] theorem emit_sched (e : BusEvent) (s : State) : (emit e s).sched = s.sched := rfl
@[simp] theorem emit_tick (e : BusEvent) (s : State) : (emit e s).tick = s.tick := rfl
@[simp] theorem emit_be (e : BusEvent) (s : State) : (emit e s).be = s.be := rfl
@[simp] theorem emit_uh (e : BusEvent) (s : State) : (emit e s).uh = s.uh := rfl
@[simp] theorem emit_wire (e : BusEvent) (s : State) : (emit e s).wire = s.wire := rfl
@[simp] theorem emit_ut (e : BusEvent) (s : State) : (emit e s).ut = s.ut := rfl
@[simp] theorem emit_gie (e : BusEvent) (s : State) : (emit e s).gie = s.gie := rfl
@[simp] theorem emit_fg (e : BusEvent) (s : State) : (emit e s).fg = s.fg := rfl
@[simp] theorem emit_fault (e : BusEvent) (s : State) : (emit e s).fault = s.fault := rfl
@[simp] theorem emit_refused (e : BusEvent) (s : State) : (emit e s).refused = s.refused := rfl
@[simp] theorem emit_bh_trace (e : BusEvent) (s : State) : (emit e s).bh.trace = (s.bh.trace ++ [e]) := rfl
@[simp] theorem emit_bh_ctrl (e : BusEvent) (s : State) : (emit e s).bh.ctrl = s.bh.ctrl := rfl
@[simp] theorem emit_bh_int (e : BusEvent) (s : State) : (emit e s).bh.int = s.bh.int := rfl
@[simp] theorem emit_bh_data (e : BusEvent) (s : State) : (emit e s).bh.data = s.bh.data := rfl
@[simp] theorem emit_bh_div (e : BusEvent) (s : State) : (emit e s).bh.div = s.bh.div := rfl
@[simp] theorem emit_bh_status (e : BusEvent) (s : State) : (emit e s).bh.status = s.bh.status := rfl
@[simp] theorem emit_bh_pending (e : BusEvent) (s : State) : (emit e s).bh.pending = s.bh.pending := rfl

/-! ### `result` -/

@[simp] theorem result_params (v : Byte) (s : State) : (result v s).params = s.params := rfl
@[simp] theorem result_program (v : Byte) (s : State) : (result v s).program = s.program := rfl
@[simp] theorem result_sched (v : Byte) (s : State) : (result v s).sched = s.sched := rfl
@[simp] theorem result_tick (v : Byte) (s : State) : (result v s).tick = s.tick := rfl
@[simp] theorem result_be (v : Byte) (s : State) : (result v s).be = s.be := rfl
@[simp] theorem result_bh (v : Byte) (s : State) : (result v s).bh = s.bh := rfl
@[simp] theorem result_uh (v : Byte) (s : State) : (result v s).uh = s.uh := rfl
@[simp] theorem result_wire (v : Byte) (s : State) : (result v s).wire = s.wire := rfl
@[simp] theorem result_ut (v : Byte) (s : State) : (result v s).ut = s.ut := rfl
@[simp] theorem result_gie (v : Byte) (s : State) : (result v s).gie = s.gie := rfl
@[simp] theorem result_fault (v : Byte) (s : State) : (result v s).fault = s.fault := rfl
@[simp] theorem result_refused (v : Byte) (s : State) : (result v s).refused = s.refused := rfl
@[simp] theorem result_fg_results (v : Byte) (s : State) : (result v s).fg.results = (s.fg.results ++ [v]) := rfl
@[simp] theorem result_fg_pc (v : Byte) (s : State) : (result v s).fg.pc = s.fg.pc := rfl
@[simp] theorem result_fg_ms (v : Byte) (s : State) : (result v s).fg.ms = s.fg.ms := rfl
@[simp] theorem result_fg_n (v : Byte) (s : State) : (result v s).fg.n = s.fg.n := rfl
@[simp] theorem result_fg_h (v : Byte) (s : State) : (result v s).fg.h = s.fg.h := rfl
@[simp] theorem result_fg_b (v : Byte) (s : State) : (result v s).fg.b = s.fg.b := rfl
@[simp] theorem result_fg_sv (v : Byte) (s : State) : (result v s).fg.sv = s.fg.sv := rfl

/-! ### `goto` -/

@[simp] theorem goto_params (l : Label) (s : State) : (goto l s).params = s.params := rfl
@[simp] theorem goto_program (l : Label) (s : State) : (goto l s).program = s.program := rfl
@[simp] theorem goto_sched (l : Label) (s : State) : (goto l s).sched = s.sched := rfl
@[simp] theorem goto_tick (l : Label) (s : State) : (goto l s).tick = s.tick := rfl
@[simp] theorem goto_be (l : Label) (s : State) : (goto l s).be = s.be := rfl
@[simp] theorem goto_bh (l : Label) (s : State) : (goto l s).bh = s.bh := rfl
@[simp] theorem goto_uh (l : Label) (s : State) : (goto l s).uh = s.uh := rfl
@[simp] theorem goto_wire (l : Label) (s : State) : (goto l s).wire = s.wire := rfl
@[simp] theorem goto_ut (l : Label) (s : State) : (goto l s).ut = s.ut := rfl
@[simp] theorem goto_gie (l : Label) (s : State) : (goto l s).gie = s.gie := rfl
@[simp] theorem goto_fault (l : Label) (s : State) : (goto l s).fault = s.fault := rfl
@[simp] theorem goto_refused (l : Label) (s : State) : (goto l s).refused = s.refused := rfl
@[simp] theorem goto_fg_ms (l : Label) (s : State) : (goto l s).fg.ms = l := rfl
@[simp] theorem goto_fg_pc (l : Label) (s : State) : (goto l s).fg.pc = s.fg.pc := rfl
@[simp] theorem goto_fg_results (l : Label) (s : State) : (goto l s).fg.results = s.fg.results := rfl
@[simp] theorem goto_fg_n (l : Label) (s : State) : (goto l s).fg.n = s.fg.n := rfl
@[simp] theorem goto_fg_h (l : Label) (s : State) : (goto l s).fg.h = s.fg.h := rfl
@[simp] theorem goto_fg_b (l : Label) (s : State) : (goto l s).fg.b = s.fg.b := rfl
@[simp] theorem goto_fg_sv (l : Label) (s : State) : (goto l s).fg.sv = s.fg.sv := rfl

/-! ### `endOp` -/

@[simp] theorem endOp_params (s : State) : (endOp s).params = s.params := rfl
@[simp] theorem endOp_program (s : State) : (endOp s).program = s.program := rfl
@[simp] theorem endOp_sched (s : State) : (endOp s).sched = s.sched := rfl
@[simp] theorem endOp_tick (s : State) : (endOp s).tick = s.tick := rfl
@[simp] theorem endOp_be (s : State) : (endOp s).be = s.be := rfl
@[simp] theorem endOp_bh (s : State) : (endOp s).bh = s.bh := rfl
@[simp] theorem endOp_uh (s : State) : (endOp s).uh = s.uh := rfl
@[simp] theorem endOp_wire (s : State) : (endOp s).wire = s.wire := rfl
@[simp] theorem endOp_ut (s : State) : (endOp s).ut = s.ut := rfl
@[simp] theorem endOp_gie (s : State) : (endOp s).gie = s.gie := rfl
@[simp] theorem endOp_fault (s : State) : (endOp s).fault = s.fault := rfl
@[simp] theorem endOp_refused (s : State) : (endOp s).refused = s.refused := rfl
@[simp] theorem endOp_fg_pc (s : State) : (endOp s).fg.pc = (s.fg.pc + 1) := rfl
@[simp] theorem endOp_fg_ms (s : State) : (endOp s).fg.ms = .fetch := rfl
@[simp] theorem endOp_fg_results (s : State) : (endOp s).fg.results = s.fg.results := rfl
@[simp] theorem endOp_fg_n (s : State) : (endOp s).fg.n = s.fg.n := rfl
@[simp] theorem endOp_fg_h (s : State) : (endOp s).fg.h = s.fg.h := rfl
@[simp] theorem endOp_fg_b (s : State) : (endOp s).fg.b = s.fg.b := rfl
@[simp] theorem endOp_fg_sv (s : State) : (endOp s).fg.sv = s.fg.sv := rfl

/-! ### `enterHandler` -/

@[simp] theorem enterHandler_params (s : State) : (enterHandler s).params = s.params := rfl
@[simp] theorem enterHandler_program (s : State) : (enterHandler s).program = s.program := rfl
@[simp] theorem enterHandler_sched (s : State) : (enterHandler s).sched = s.sched := rfl
@[simp] theorem enterHandler_tick (s : State) : (enterHandler s).tick = s.tick := rfl
@[simp] theorem enterHandler_be (s : State) : (enterHandler s).be = s.be := rfl
@[simp] theorem enterHandler_bh (s : State) : (enterHandler s).bh = s.bh := rfl
@[simp] theorem enterHandler_uh (s : State) : (enterHandler s).uh = s.uh := rfl
@[simp] theorem enterHandler_wire (s : State) : (enterHandler s).wire = s.wire := rfl
@[simp] theorem enterHandler_ut (s : State) : (enterHandler s).ut = s.ut := rfl
@[simp] theorem enterHandler_fg (s : State) : (enterHandler s).fg = s.fg := rfl
@[simp] theorem enterHandler_fault (s : State) : (enterHandler s).fault = s.fault := rfl
@[simp] theorem enterHandler_refused (s : State) : (enterHandler s).refused = s.refused := rfl
@[simp] theorem enterHandler_gie (s : State) : (enterHandler s).gie = false := rfl

/-! ### `returnFromHandler` -/

@[simp] theorem returnFromHandler_params (s : State) : (returnFromHandler s).params = s.params := rfl
@[simp] theorem returnFromHandler_program (s : State) : (returnFromHandler s).program = s.program := rfl
@[simp] theorem returnFromHandler_sched (s : State) : (returnFromHandler s).sched = s.sched := rfl
@[simp] theorem returnFromHandler_tick (s : State) : (returnFromHandler s).tick = s.tick := rfl
@[simp] theorem returnFromHandler_be (s : State) : (returnFromHandler s).be = s.be := rfl
@[simp] theorem returnFromHandler_bh (s : State) : (returnFromHandler s).bh = s.bh := rfl
@[simp] theorem returnFromHandler_uh (s : State) : (returnFromHandler s).uh = s.uh := rfl
@[simp] theorem returnFromHandler_wire (s : State) : (returnFromHandler s).wire = s.wire := rfl
@[simp] theorem returnFromHandler_ut (s : State) : (returnFromHandler s).ut = s.ut := rfl
@[simp] theorem returnFromHandler_fg (s : State) : (returnFromHandler s).fg = s.fg := rfl
@[simp] theorem returnFromHandler_fault (s : State) : (returnFromHandler s).fault = s.fault := rfl
@[simp] theorem returnFromHandler_refused (s : State) : (returnFromHandler s).refused = s.refused := rfl
@[simp] theorem returnFromHandler_gie (s : State) : (returnFromHandler s).gie = true := rfl

/-! ### `enterCritical` -/

@[simp] theorem enterCritical_params (s : State) : (enterCritical s).params = s.params := rfl
@[simp] theorem enterCritical_program (s : State) : (enterCritical s).program = s.program := rfl
@[simp] theorem enterCritical_sched (s : State) : (enterCritical s).sched = s.sched := rfl
@[simp] theorem enterCritical_tick (s : State) : (enterCritical s).tick = s.tick := rfl
@[simp] theorem enterCritical_be (s : State) : (enterCritical s).be = s.be := rfl
@[simp] theorem enterCritical_bh (s : State) : (enterCritical s).bh = s.bh := rfl
@[simp] theorem enterCritical_uh (s : State) : (enterCritical s).uh = s.uh := rfl
@[simp] theorem enterCritical_wire (s : State) : (enterCritical s).wire = s.wire := rfl
@[simp] theorem enterCritical_ut (s : State) : (enterCritical s).ut = s.ut := rfl
@[simp] theorem enterCritical_fault (s : State) : (enterCritical s).fault = s.fault := rfl
@[simp] theorem enterCritical_refused (s : State) : (enterCritical s).refused = s.refused := rfl
@[simp] theorem enterCritical_gie (s : State) : (enterCritical s).gie = false := rfl
@[simp] theorem enterCritical_fg_sv (s : State) : (enterCritical s).fg.sv = (some s.gie) := rfl
@[simp] theorem enterCritical_fg_pc (s : State) : (enterCritical s).fg.pc = s.fg.pc := rfl
@[simp] theorem enterCritical_fg_ms (s : State) : (enterCritical s).fg.ms = s.fg.ms := rfl
@[simp] theorem enterCritical_fg_results (s : State) : (enterCritical s).fg.results = s.fg.results := rfl
@[simp] theorem enterCritical_fg_n (s : State) : (enterCritical s).fg.n = s.fg.n := rfl
@[simp] theorem enterCritical_fg_h (s : State) : (enterCritical s).fg.h = s.fg.h := rfl
@[simp] theorem enterCritical_fg_b (s : State) : (enterCritical s).fg.b = s.fg.b := rfl

/-! ### `leaveCritical` -/

@[simp] theorem leaveCritical_params (s : State) : (leaveCritical s).params = s.params := rfl
@[simp] theorem leaveCritical_program (s : State) : (leaveCritical s).program = s.program := rfl
@[simp] theorem leaveCritical_sched (s : State) : (leaveCritical s).sched = s.sched := rfl
@[simp] theorem leaveCritical_tick (s : State) : (leaveCritical s).tick = s.tick := rfl
@[simp] theorem leaveCritical_be (s : State) : (leaveCritical s).be = s.be := rfl
@[simp] theorem leaveCritical_bh (s : State) : (leaveCritical s).bh = s.bh := rfl
@[simp] theorem leaveCritical_uh (s : State) : (leaveCritical s).uh = s.uh := rfl
@[simp] theorem leaveCritical_wire (s : State) : (leaveCritical s).wire = s.wire := rfl
@[simp] theorem leaveCritical_ut (s : State) : (leaveCritical s).ut = s.ut := rfl
@[simp] theorem leaveCritical_fg (s : State) : (leaveCritical s).fg = s.fg := rfl
@[simp] theorem leaveCritical_fault (s : State) : (leaveCritical s).fault = s.fault := rfl
@[simp] theorem leaveCritical_refused (s : State) : (leaveCritical s).refused = s.refused := rfl
@[simp] theorem leaveCritical_gie (s : State) : (leaveCritical s).gie = (s.fg.sv.getD s.gie) := rfl

/-! ### `advance` -/

@[simp] theorem advance_params (s : State) : (advance s).params = s.params := rfl
@[simp] theorem advance_program (s : State) : (advance s).program = s.program := rfl
@[simp] theorem advance_be (s : State) : (advance s).be = s.be := rfl
@[simp] theorem advance_bh (s : State) : (advance s).bh = s.bh := rfl
@[simp] theorem advance_uh (s : State) : (advance s).uh = s.uh := rfl
@[simp] theorem advance_wire (s : State) : (advance s).wire = s.wire := rfl
@[simp] theorem advance_ut (s : State) : (advance s).ut = s.ut := rfl
@[simp] theorem advance_gie (s : State) : (advance s).gie = s.gie := rfl
@[simp] theorem advance_fg (s : State) : (advance s).fg = s.fg := rfl
@[simp] theorem advance_fault (s : State) : (advance s).fault = s.fault := rfl
@[simp] theorem advance_refused (s : State) : (advance s).refused = s.refused := rfl
@[simp] theorem advance_sched (s : State) : (advance s).sched = s.sched.tail := rfl
@[simp] theorem advance_tick (s : State) : (advance s).tick = (s.tick + 1) := rfl

/-! ### `busStopDone` -/

@[simp] theorem busStopDone_params (st : Byte) (s : State) : (busStopDone st s).params = s.params := rfl
@[simp] theorem busStopDone_program (st : Byte) (s : State) : (busStopDone st s).program = s.program := rfl
@[simp] theorem busStopDone_sched (st : Byte) (s : State) : (busStopDone st s).sched = s.sched := rfl
@[simp] theorem busStopDone_tick (st : Byte) (s : State) : (busStopDone st s).tick = s.tick := rfl
@[simp] theorem busStopDone_be (st : Byte) (s : State) : (busStopDone st s).be = s.be := rfl
@[simp] theorem busStopDone_uh (st : Byte) (s : State) : (busStopDone st s).uh = s.uh := rfl
@[simp] theorem busStopDone_wire (st : Byte) (s : State) : (busStopDone st s).wire = s.wire := rfl
@[simp] theorem busStopDone_ut (st : Byte) (s : State) : (busStopDone st s).ut = s.ut := rfl
@[simp] theorem busStopDone_gie (st : Byte) (s : State) : (busStopDone st s).gie = s.gie := rfl
@[simp] theorem busStopDone_fg (st : Byte) (s : State) : (busStopDone st s).fg = s.fg := rfl
@[simp] theorem busStopDone_fault (st : Byte) (s : State) : (busStopDone st s).fault = s.fault := rfl
@[simp] theorem busStopDone_refused (st : Byte) (s : State) : (busStopDone st s).refused = s.refused := rfl
@[simp] theorem busStopDone_bh_trace (st : Byte) (s : State) : (busStopDone st s).bh.trace = (s.bh.trace ++ [.stop]) := rfl
@[simp] theorem busStopDone_bh_int (st : Byte) (s : State) : (busStopDone st s).bh.int = s.bh.int := rfl
@[simp] theorem busStopDone_bh_data (st : Byte) (s : State) : (busStopDone st s).bh.data = s.bh.data := rfl
@[simp] theorem busStopDone_bh_div (st : Byte) (s : State) : (busStopDone st s).bh.div = s.bh.div := rfl
@[simp] theorem busStopDone_bh_status (st : Byte) (s : State) : (busStopDone st s).bh.status = st := rfl
@[simp] theorem busStopDone_bh_pending (st : Byte) (s : State) : (busStopDone st s).bh.pending = .none := rfl
@[simp] theorem busStopDone_bh_ctrl_sto (st : Byte) (s : State) : (busStopDone st s).bh.ctrl.sto = false := rfl
@[simp] theorem busStopDone_bh_ctrl_en (st : Byte) (s : State) : (busStopDone st s).bh.ctrl.en = s.bh.ctrl.en := rfl
@[simp] theorem busStopDone_bh_ctrl_sta (st : Byte) (s : State) : (busStopDone st s).bh.ctrl.sta = s.bh.ctrl.sta := rfl
@[simp] theorem busStopDone_bh_ctrl_ack (st : Byte) (s : State) : (busStopDone st s).bh.ctrl.ack = s.bh.ctrl.ack := rfl
@[simp] theorem busStopDone_bh_ctrl_ie (st : Byte) (s : State) : (busStopDone st s).bh.ctrl.ie = s.bh.ctrl.ie := rfl

/-! ### `drop` -/

@[simp] theorem drop_params (s : State) : (drop s).params = s.params := rfl
@[simp] theorem drop_program (s : State) : (drop s).program = s.program := rfl
@[simp] theorem drop_sched (s : State) : (drop s).sched = s.sched := rfl
@[simp] theorem drop_tick (s : State) : (drop s).tick = s.tick := rfl
@[simp] theorem drop_be (s : State) : (drop s).be = s.be := rfl
@[simp] theorem drop_bh (s : State) : (drop s).bh = s.bh := rfl
@[simp] theorem drop_ut (s : State) : (drop s).ut = s.ut := rfl
@[simp] theorem drop_gie (s : State) : (drop s).gie = s.gie := rfl
@[simp] theorem drop_fg (s : State) : (drop s).fg = s.fg := rfl
@[simp] theorem drop_fault (s : State) : (drop s).fault = s.fault := rfl
@[simp] theorem drop_refused (s : State) : (drop s).refused = s.refused := rfl
@[simp] theorem drop_wire_rxIn (s : State) : (drop s).wire.rxIn = s.wire.rxIn.tail := rfl
@[simp] theorem drop_wire_txOut (s : State) : (drop s).wire.txOut = s.wire.txOut := rfl
@[simp] theorem drop_uh_hwOvr (s : State) : (drop s).uh.hwOvr = (s.uh.hwOvr + 1) := rfl
@[simp] theorem drop_uh_ctrl (s : State) : (drop s).uh.ctrl = s.uh.ctrl := rfl
@[simp] theorem drop_uh_rxFifo (s : State) : (drop s).uh.rxFifo = s.uh.rxFifo := rfl
@[simp] theorem drop_uh_txReg (s : State) : (drop s).uh.txReg = s.uh.txReg := rfl
@[simp] theorem drop_uh_div (s : State) : (drop s).uh.div = s.uh.div := rfl

/-! ### `withFetchWord` -/

@[simp] theorem withFetchWord_params (s : State) (n w : Nat) : (s.withFetchWord n w).params = s.params := rfl
@[simp] theorem withFetchWord_tick (s : State) (n w : Nat) : (s.withFetchWord n w).tick = s.tick := rfl
@[simp] theorem withFetchWord_be (s : State) (n w : Nat) : (s.withFetchWord n w).be = s.be := rfl
@[simp] theorem withFetchWord_bh (s : State) (n w : Nat) : (s.withFetchWord n w).bh = s.bh := rfl
@[simp] theorem withFetchWord_uh (s : State) (n w : Nat) : (s.withFetchWord n w).uh = s.uh := rfl
@[simp] theorem withFetchWord_wire (s : State) (n w : Nat) : (s.withFetchWord n w).wire = s.wire := rfl
@[simp] theorem withFetchWord_ut (s : State) (n w : Nat) : (s.withFetchWord n w).ut = s.ut := rfl
@[simp] theorem withFetchWord_gie (s : State) (n w : Nat) : (s.withFetchWord n w).gie = s.gie := rfl
@[simp] theorem withFetchWord_sched (s : State) (n w : Nat) : (s.withFetchWord n w).sched = (.fg :: s.sched) := rfl
@[simp] theorem withFetchWord_fault (s : State) (n w : Nat) : (s.withFetchWord n w).fault = none := rfl
@[simp] theorem withFetchWord_refused (s : State) (n w : Nat) : (s.withFetchWord n w).refused = none := rfl
@[simp] theorem withFetchWord_fg_ms (s : State) (n w : Nat) : (s.withFetchWord n w).fg.ms = .fetch := rfl
@[simp] theorem withFetchWord_fg_pc (s : State) (n w : Nat) : (s.withFetchWord n w).fg.pc = s.fg.pc := rfl
@[simp] theorem withFetchWord_program (s : State) (n w : Nat) : (s.withFetchWord n w).program = (placeWord s.program s.fg.pc (BitVec.ofNat 32 (w % 2 ^ n))) := rfl

end Sys2Proof.Machine
end

