-- ==== Sys2Proof/Laws/Ops.lean ====
section
/-! SUPPORT. Everything each shared operation can do, said once: guards, holds, faults, handlers, ring index arithmetic. -/

namespace Sys2Proof.Machine

/-! ### Results -/

@[simp] theorem next_inj {s t : State} : (Host.Outcome.next s : Result) = .next t ↔ s = t :=
  ⟨fun h => by cases h; rfl, fun h => h ▸ rfl⟩

/-! ### Faults, guards, holds -/

@[simp] theorem raise_eq (info : FaultInfo) (s : State) : raise info s = .next (s.withFault info) := rfl

theorem refuse_eq (s : State) : refuse s = .next { s with refused := some s.fg.pc } := rfl

/-- A hold either goes on or, polled in vain, changes nothing. -/
theorem holdUntil_next {P : Bool} {s t : State} {k : Result} (h : holdUntil P s k = .next t) :
    (P = true ∧ k = .next t) ∨ (P = false ∧ t = s) := by
  cases P
  · exact .inr ⟨rfl, (next_inj.1 h).symm⟩
  · exact .inl ⟨rfl, h⟩

@[simp] theorem holdUntil_true (s : State) (k : Result) : holdUntil true s k = k := rfl

@[simp] theorem holdUntil_false (s : State) (k : Result) : holdUntil false s k = .next s := rfl

/-- A bus guard raises `NotStarted`, raises `ProtocolSequenceError`, or goes on. -/
theorem busGuard_next {op : Mnemonic} {ok : Bool} {s t : State} {k : Result} (h : busGuard op ok s k = .next t) :
    (s.be.phase = .off ∧ t = s.withFault (.notStarted .bus op)) ∨
      (s.be.phase ≠ .off ∧ ok = false ∧ t = s.withFault (.protocolSequenceError op s.be.phase s.be.remaining)) ∨
      (s.be.phase ≠ .off ∧ ok = true ∧ k = .next t) := by
  unfold busGuard at h
  split at h
  · exact .inl ⟨‹_›, (next_inj.1 h).symm⟩
  · split at h
    · exact .inr (.inr ⟨‹_›, ‹_›, h⟩)
    · exact .inr (.inl ⟨‹_›, by simpa using ‹¬ok = true›, (next_inj.1 h).symm⟩)

/-- A transport guard raises `NotStarted` or goes on. -/
theorem uartGuard_next {op : Mnemonic} {s t : State} {k : Result} (h : uartGuard op s k = .next t) :
    (s.ut.started = false ∧ t = s.withFault (.notStarted .uart op)) ∨ (s.ut.started = true ∧ k = .next t) := by
  unfold uartGuard at h
  split at h
  · exact .inr ⟨‹_›, h⟩
  · exact .inl ⟨by simpa using ‹¬s.ut.started = true›, (next_inj.1 h).symm⟩

/-! ### Handlers -/

/-- Taking a handler answers a next state exactly when its body does, inside entry and return. -/
theorem takeHandler_next {body : State → Result} {s t : State} (h : takeHandler body s = .next t) :
    ∃ u, body (enterHandler s) = .next u ∧ t = returnFromHandler u := by
  unfold takeHandler at h
  split at h
  · exact ⟨_, ‹_›, (next_inj.1 h).symm⟩
  · cases h
  · cases h

theorem takeHandler_of_next {body : State → Result} {s u : State} (h : body (enterHandler s) = .next u) :
    takeHandler body s = .next (returnFromHandler u) := by
  unfold takeHandler
  rw [h]

/-! ### Ring index arithmetic -/

theorem capacity_pos {cap : Nat} (h : CapacityOk cap) : 2 ≤ cap ∧ cap ≤ 256 := by
  simp only [CapacityOk, capacities, List.mem_cons, List.not_mem_nil, or_false] at h
  omega

/-- Truncation keeps what fits. -/
theorem low_of_lt {w k : Nat} {x : BitVec w} (h : x.toNat < 2 ^ k) : low k x = x := by
  rw [low, Nat.mod_eq_of_lt h, BitVec.ofNat_toNat, BitVec.setWidth_eq]

/-- Truncation is the remainder modulo 2 ^ `k`, and so below it. -/
@[simp] theorem low_toNat {w : Nat} (k : Nat) (x : BitVec w) : (low k x).toNat = x.toNat % 2 ^ k := by
  rw [low, BitVec.toNat_ofNat]
  exact Nat.mod_eq_of_lt (lt_of_le_of_lt (Nat.mod_le _ _) x.isLt)

theorem low_lt {w : Nat} (k : Nat) (x : BitVec w) : (low k x).toNat < 2 ^ k := by
  rw [low_toNat]
  exact Nat.mod_lt _ (Nat.two_pow_pos k)

/-- A saturating count stays in its width. -/
theorem bumpOvf_lt (width v : Nat) : bumpOvf width v < 2 ^ width := by
  have := Nat.two_pow_pos width
  unfold bumpOvf
  omega

/-- Masking is the remainder modulo the capacity. -/
theorem toNat_and_mask {width cap : Nat} (h : CapacityOk cap) (hw : cap ≤ 2 ^ width) (x : Idx) :
    (x &&& mask width cap).toNat = x.toNat % cap := by
  have hcap := capacity_pos h
  have hmask : mask width cap = BitVec.ofNat 8 (cap - 1) := by
    rw [mask, low_of_lt]
    rw [BitVec.toNat_ofNat]
    omega
  rw [hmask]
  have key : ∀ k, k ≤ 8 → (x &&& BitVec.ofNat 8 (2 ^ k - 1)).toNat = x.toNat % 2 ^ k := by
    intro k hk
    have hpow : 2 ^ k ≤ 2 ^ 8 := Nat.pow_le_pow_right (by omega) hk
    have hpos : 0 < 2 ^ k := Nat.two_pow_pos k
    rw [BitVec.toNat_and, BitVec.toNat_ofNat, Nat.mod_eq_of_lt (by omega), Nat.and_two_pow_sub_one_eq_mod]
  simp only [CapacityOk, capacities, List.mem_cons, List.not_mem_nil, or_false] at h
  rcases h with rfl | rfl | rfl | rfl | rfl | rfl | rfl | rfl
  exacts [key 1 (by omega), key 2 (by omega), key 3 (by omega), key 4 (by omega), key 5 (by omega), key 6 (by omega),
    key 7 (by omega), key 8 (by omega)]

/-- A capacity divides 256, so wrapping at 256 and wrapping at the capacity agree. -/
theorem mod_256_mod {cap : Nat} (h : CapacityOk cap) (x : Nat) : x % 256 % cap = x % cap := by
  refine Nat.mod_mod_of_dvd x ?_
  simp only [CapacityOk, capacities, List.mem_cons, List.not_mem_nil, or_false] at h
  rcases h with rfl | rfl | rfl | rfl | rfl | rfl | rfl | rfl <;> decide

theorem nextIdx_toNat {width cap : Nat} (h : CapacityOk cap) (hw : cap ≤ 2 ^ width) (i : Idx) :
    (nextIdx (mask width cap) i).toNat = (i.toNat + 1) % cap := by
  rw [nextIdx, toNat_and_mask h hw, BitVec.toNat_add]
  exact mod_256_mod h _

theorem nextIdx_lt {width cap : Nat} (h : CapacityOk cap) (hw : cap ≤ 2 ^ width) (i : Idx) :
    (nextIdx (mask width cap) i).toNat < cap := by
  rw [nextIdx_toNat h hw]
  exact Nat.mod_lt _ (by have := capacity_pos h; omega)

theorem count_toNat {width cap : Nat} (h : CapacityOk cap) (hw : cap ≤ 2 ^ width) (r : Ring) :
    (r.count (mask width cap)).toNat = (256 + r.head.toNat - r.tail.toNat) % cap := by
  rw [Ring.count, toNat_and_mask h hw, BitVec.toNat_sub, mod_256_mod h]
  have := r.tail.isLt
  congr 1
  omega

/-- The two masks of well-formed parameters, in the form the three lemmas above take. -/
theorem wf_masks {p : Config.Params} (h : p.wf) :
    (CapacityOk p.capRx ∧ p.capRx ≤ 2 ^ p.idxWidth) ∧ (CapacityOk p.capTx ∧ p.capTx ≤ 2 ^ p.idxWidth) :=
  ⟨⟨h.1, h.2.2.2.2.1.1⟩, ⟨h.2.1, h.2.2.2.2.1.2⟩⟩

@[simp] theorem isEmpty_iff (r : Ring) : r.isEmpty = true ↔ r.head = r.tail := by simp [Ring.isEmpty]

@[simp] theorem isEmpty_false_iff (r : Ring) : r.isEmpty = false ↔ r.head ≠ r.tail := by simp [Ring.isEmpty]

@[simp] theorem isFull_iff (m : Idx) (r : Ring) : r.isFull m = true ↔ nextIdx m r.head = r.tail := by
  simp [Ring.isFull]

/-- A ring stays in range when a byte is stored at an index in range. -/
theorem Ring.wf_write {cap : Nat} {r : Ring} (h : r.wf cap) (v : Byte) :
    Ring.wf cap { r with buf := r.buf.write r.head.toNat v } :=
  ⟨h.1, h.2.1, Memory.write_wf h.2.2.1 _ _, Memory.write_bound h.2.2.2 h.1 _⟩

/-! ### Running -/

theorem running_iff (s : State) : running s = true ↔ s.fault = none ∧ s.refused = none := by
  simp [running, Option.isNone_iff_eq_none]

end Sys2Proof.Machine
end

