-- ==== Sys2Proof/Laws/Bus.lean ====
section
/-! SUPPORT. Everything one micro-step of each bus operation can do when it answers a next state, by label. -/

namespace Sys2Proof.Machine

variable {s t : State}

/-- `BUS_BEGIN`. -/
theorem execBusBegin_next {v : Val24} (h : execBusBegin v s = .next t) :
    s.fg.ms = .fetch ∧
      ((∃ d, (s.be.phase = .off ∨ s.be.phase = .idle) ∧ busDivisor s.params v = some d ∧
          t = endOp { busCtrlWrite [.EN] { s with bh.div := d } with be.phase := .idle }) ∨
        ((s.be.phase = .off ∨ s.be.phase = .idle) ∧ busDivisor s.params v = none ∧
          t = s.withFault (.unsupportedConfiguration .bus v)) ∨
        (¬(s.be.phase = .off ∨ s.be.phase = .idle) ∧
          t = s.withFault (.protocolSequenceError .BUS_BEGIN s.be.phase s.be.remaining))) := by
  unfold execBusBegin at h
  split at h
  · refine ⟨‹_›, ?_⟩
    split at h
    · split at h
      · exact .inl ⟨_, ‹_›, ‹_›, (next_inj.1 h).symm⟩
      · exact .inr (.inl ⟨‹_›, ‹_›, (next_inj.1 h).symm⟩)
    · exact .inr (.inr ⟨‹_›, (next_inj.1 h).symm⟩)
  · cases h

/-- `BUS_BEGIN_TX`. -/
theorem execBusBeginTx_next {a : Addr7} (h : execBusBeginTx a s = .next t) :
    (s.fg.ms = .fetch ∧
        ((s.be.phase = .off ∧ t = s.withFault (.notStarted .bus .BUS_BEGIN_TX)) ∨
          (s.be.phase ≠ .off ∧ s.be.phase ≠ .idle ∧
            t = s.withFault (.protocolSequenceError .BUS_BEGIN_TX s.be.phase s.be.remaining)) ∨
          (s.be.phase = .idle ∧ t = goto .bt1 (busCtrlWrite [.INT, .STA, .EN] s)))) ∨
      (s.fg.ms = .bt1 ∧ ((s.bh.int = true ∧ t = goto .bt2 { s with be.phase := .started }) ∨ (s.bh.int = false ∧ t = s))) ∨
      (s.fg.ms = .bt2 ∧ t = goto .bt3 { s with bh.data := sla (addrOperand s.params a) false }) ∨
      (s.fg.ms = .bt3 ∧ t = goto .bt4 (busCtrlWrite [.INT, .EN] s .address)) ∨
      (s.fg.ms = .bt4 ∧
        ((s.bh.int = true ∧ t = endOp { s with be.addr := addrOperand s.params a, be.phase := .addressedW }) ∨ (s.bh.int = false ∧ t = s))) := by
  unfold execBusBeginTx at h
  split at h
  · refine .inl ⟨‹_›, ?_⟩
    rcases busGuard_next h with h | ⟨h1, h2, h3⟩ | ⟨h1, h2, h3⟩
    · exact .inl h
    · exact .inr (.inl ⟨h1, by simpa using h2, h3⟩)
    · exact .inr (.inr ⟨by simpa using h2, (next_inj.1 h3).symm⟩)
  · refine .inr (.inl ⟨‹_›, ?_⟩)
    exact (holdUntil_next h).imp_left fun h => ⟨h.1, (next_inj.1 h.2).symm⟩
  · exact .inr (.inr (.inl ⟨‹_›, (next_inj.1 h).symm⟩))
  · exact .inr (.inr (.inr (.inl ⟨‹_›, (next_inj.1 h).symm⟩)))
  · refine .inr (.inr (.inr (.inr ⟨‹_›, ?_⟩)))
    exact (holdUntil_next h).imp_left fun h => ⟨h.1, (next_inj.1 h.2).symm⟩
  · cases h

/-- `BUS_WRITE`. -/
theorem execBusWrite_next {d : Byte} (h : execBusWrite d s = .next t) :
    (s.fg.ms = .fetch ∧
        ((s.be.phase = .off ∧ t = s.withFault (.notStarted .bus .BUS_WRITE)) ∨
          (s.be.phase ≠ .off ∧ ¬s.be.phase.writing ∧
            t = s.withFault (.protocolSequenceError .BUS_WRITE s.be.phase s.be.remaining)) ∨
          (s.be.phase.writing ∧ t = goto .w1 { s with bh.data := d }))) ∨
      (s.fg.ms = .w1 ∧ t = goto .w2 (busCtrlWrite [.INT, .EN] s .tx)) ∨
      (s.fg.ms = .w2 ∧
        ((s.bh.int = true ∧ t = endOp { s with be.phase := .transferringW }) ∨ (s.bh.int = false ∧ t = s))) := by
  unfold execBusWrite at h
  split at h
  · refine .inl ⟨‹_›, ?_⟩
    rcases busGuard_next h with h | ⟨h1, h2, h3⟩ | ⟨h1, h2, h3⟩
    · exact .inl h
    · exact .inr (.inl ⟨h1, by simpa [Phase.writing] using h2, h3⟩)
    · exact .inr (.inr ⟨by simpa [Phase.writing] using h2, (next_inj.1 h3).symm⟩)
  · exact .inr (.inl ⟨‹_›, (next_inj.1 h).symm⟩)
  · refine .inr (.inr ⟨‹_›, ?_⟩)
    exact (holdUntil_next h).imp_left fun h => ⟨h.1, (next_inj.1 h.2).symm⟩
  · cases h

/-- `BUS_REQUEST_FROM`. -/
theorem execBusRequestFrom_next {a : Addr7} {count : Count} (h : execBusRequestFrom a count s = .next t) :
    (s.fg.ms = .fetch ∧
        ((s.be.phase = .off ∧ t = s.withFault (.notStarted .bus .BUS_REQUEST_FROM)) ∨
          (s.be.phase ≠ .off ∧ s.be.phase ≠ .idle ∧
            t = s.withFault (.protocolSequenceError .BUS_REQUEST_FROM s.be.phase s.be.remaining)) ∨
          (s.be.phase = .idle ∧ t = goto .rq1 (busCtrlWrite [.INT, .STA, .EN] s)))) ∨
      (s.fg.ms = .rq1 ∧ ((s.bh.int = true ∧ t = goto .rq2 { s with be.phase := .started }) ∨ (s.bh.int = false ∧ t = s))) ∨
      (s.fg.ms = .rq2 ∧ t = goto .rq3 { s with bh.data := sla (addrOperand s.params a) true }) ∨
      (s.fg.ms = .rq3 ∧ t = goto .rq4 (busCtrlWrite [.INT, .EN] s .address)) ∨
      (s.fg.ms = .rq4 ∧
        ((s.bh.int = true ∧
            t = endOp { s with
              be.addr := addrOperand s.params a, be.remaining := countOperand s.params count, be.phase := .addressedR }) ∨
          (s.bh.int = false ∧ t = s))) := by
  unfold execBusRequestFrom at h
  split at h
  · refine .inl ⟨‹_›, ?_⟩
    rcases busGuard_next h with h | ⟨h1, h2, h3⟩ | ⟨h1, h2, h3⟩
    · exact .inl h
    · exact .inr (.inl ⟨h1, by simpa using h2, h3⟩)
    · exact .inr (.inr ⟨by simpa using h2, (next_inj.1 h3).symm⟩)
  · refine .inr (.inl ⟨‹_›, ?_⟩)
    exact (holdUntil_next h).imp_left fun h => ⟨h.1, (next_inj.1 h.2).symm⟩
  · exact .inr (.inr (.inl ⟨‹_›, (next_inj.1 h).symm⟩))
  · exact .inr (.inr (.inr (.inl ⟨‹_›, (next_inj.1 h).symm⟩)))
  · refine .inr (.inr (.inr (.inr ⟨‹_›, ?_⟩)))
    exact (holdUntil_next h).imp_left fun h => ⟨h.1, (next_inj.1 h.2).symm⟩
  · cases h

/-- `BUS_READ`. -/
theorem execBusRead_next (h : execBusRead s = .next t) :
    (s.fg.ms = .fetch ∧
        ((s.be.phase = .off ∧ t = s.withFault (.notStarted .bus .BUS_READ)) ∨
          (s.be.phase ≠ .off ∧ ¬(s.be.phase.reading ∧ s.be.remaining ≠ 0) ∧
            t = s.withFault (.protocolSequenceError .BUS_READ s.be.phase s.be.remaining)) ∨
          (s.be.phase.reading ∧ s.be.remaining ≠ 0 ∧ t = goto .d1 { s with be.remaining := s.be.remaining - 1 }))) ∨
      (s.fg.ms = .d1 ∧
        ((s.be.remaining ≠ 0 ∧ t = goto .d2 (busCtrlWrite [.INT, .ACK, .EN] s .rx)) ∨
          (s.be.remaining = 0 ∧ t = goto .d2 (busCtrlWrite [.INT, .EN] s .rx)))) ∨
      (s.fg.ms = .d2 ∧
        ((s.bh.int = true ∧
            t = endOp (result s.bh.data { s with fg.b := some s.bh.data, be.phase := .transferringR })) ∨
          (s.bh.int = false ∧ t = s))) := by
  unfold execBusRead at h
  split at h
  · refine .inl ⟨‹_›, ?_⟩
    rcases busGuard_next h with h | ⟨h1, h2, h3⟩ | ⟨h1, h2, h3⟩
    · exact .inl h
    · exact .inr (.inl ⟨h1, by simpa [Phase.reading] using h2, h3⟩)
    · have h2 : s.be.phase.reading ∧ s.be.remaining ≠ 0 := by simpa [Phase.reading] using h2
      exact .inr (.inr ⟨h2.1, h2.2, (next_inj.1 h3).symm⟩)
  · refine .inr (.inl ⟨‹_›, ?_⟩)
    split at h
    · exact .inl ⟨‹_›, (next_inj.1 h).symm⟩
    · exact .inr ⟨not_not.1 ‹_›, (next_inj.1 h).symm⟩
  · refine .inr (.inr ⟨‹_›, ?_⟩)
    exact (holdUntil_next h).imp_left fun h => ⟨h.1, (next_inj.1 h.2).symm⟩
  · cases h

/-- `BUS_END_TX`. -/
theorem execBusEndTx_next (h : execBusEndTx s = .next t) :
    (s.fg.ms = .fetch ∧
        ((s.be.phase = .off ∧ t = s.withFault (.notStarted .bus .BUS_END_TX)) ∨
          (s.be.phase ≠ .off ∧ ¬(s.be.phase.writing ∨ s.be.phase.reading) ∧
            t = s.withFault (.protocolSequenceError .BUS_END_TX s.be.phase s.be.remaining)) ∨
          ((s.be.phase.writing ∨ s.be.phase.reading) ∧
            t = goto .e1 { busCtrlWrite [.INT, .STO, .EN] s with be.phase := .stopped }))) ∨
      (s.fg.ms = .e1 ∧
        ((s.bh.ctrl.sto = false ∧ t = endOp { s with be.phase := .idle, be.remaining := 0 }) ∨
          (s.bh.ctrl.sto = true ∧ t = s))) := by
  unfold execBusEndTx at h
  split at h
  · refine .inl ⟨‹_›, ?_⟩
    rcases busGuard_next h with h | ⟨h1, h2, h3⟩ | ⟨h1, h2, h3⟩
    · exact .inl h
    · refine .inr (.inl ⟨h1, ?_, h3⟩)
      simp only [decide_eq_false_iff_not] at h2
      unfold Phase.writing Phase.reading
      tauto
    · refine .inr (.inr ⟨?_, (next_inj.1 h3).symm⟩)
      simp only [decide_eq_true_eq] at h2
      unfold Phase.writing Phase.reading
      tauto
  · refine .inr ⟨‹_›, ?_⟩
    rcases holdUntil_next h with ⟨h1, h2⟩ | ⟨h1, h2⟩
    · exact .inl ⟨by simpa using h1, (next_inj.1 h2).symm⟩
    · exact .inr ⟨by simpa using h1, h2⟩
  · cases h

end Sys2Proof.Machine
end

