-- ==== Sys2Proof/Laws/PerInstr.lean ====
section
/-! SUPPORT. Statements made of every instruction, one lemma a constructor: an instruction's word spells its own row of the
opcode map (30_encoding.md R92, R95), whatever its operands are. -/

namespace Sys2Proof.Laws.SpellsItsRow

open Sys2Proof

/-- The word of `i` matches the row of the opcode map that has its mnemonic. -/
def Statement (i : Instr) : Prop := ∃ r ∈ opcodeMap, r.mnemonic = i.mnemonic ∧ r.Spells (encode i)

/-- A word is masked bit by bit. -/
theorem masked {w mask pattern : Word} (h : ∀ k, k < 32 → (w.getLsbD k && mask.getLsbD k) = pattern.getLsbD k) :
    w &&& mask = pattern :=
  BitVec.eq_of_getLsbD_eq fun k hk => by rw [BitVec.getLsbD_and]; exact h k hk

theorem busBegin (v : Val24) : Statement (.busBegin v) :=
  ⟨⟨.BUS_BEGIN, 0x10000000, 0xFF000000⟩, by simp [opcodeMap], rfl, masked fun k hk => by
    simp only [encode, BitVec.getLsbD_append]
    interval_cases k <;> simp⟩

theorem busBeginTx (addr : Addr7) : Statement (.busBeginTx addr) :=
  ⟨⟨.BUS_BEGIN_TX, 0x11000000, 0xFF80FFFF⟩, by simp [opcodeMap], rfl, masked fun k hk => by
    simp only [encode, BitVec.getLsbD_append]
    interval_cases k <;> simp⟩

theorem busWrite (d : Byte) : Statement (.busWrite d) :=
  ⟨⟨.BUS_WRITE, 0x12000000, 0xFF00FFFF⟩, by simp [opcodeMap], rfl, masked fun k hk => by
    simp only [encode, BitVec.getLsbD_append]
    interval_cases k <;> simp⟩

theorem busRequestFrom (addr : Addr7) (count : Count) : Statement (.busRequestFrom addr count) :=
  ⟨⟨.BUS_REQUEST_FROM, 0x13000000, 0xFF80FF00⟩, by simp [opcodeMap], rfl, masked fun k hk => by
    simp only [encode, BitVec.getLsbD_append]
    interval_cases k <;> simp⟩

theorem busRead : Statement .busRead := ⟨⟨.BUS_READ, 0x14000000, 0xFFFFFFFF⟩, by decide⟩

theorem busEndTx : Statement .busEndTx := ⟨⟨.BUS_END_TX, 0x15000000, 0xFFFFFFFF⟩, by decide⟩

theorem uartBegin (v : Val24) : Statement (.uartBegin v) :=
  ⟨⟨.UART_BEGIN, 0x20000000, 0xFF000000⟩, by simp [opcodeMap], rfl, masked fun k hk => by
    simp only [encode, BitVec.getLsbD_append]
    interval_cases k <;> simp⟩

theorem uartSend (d : Byte) : Statement (.uartSend d) :=
  ⟨⟨.UART_SEND, 0x21000000, 0xFF00FFFF⟩, by simp [opcodeMap], rfl, masked fun k hk => by
    simp only [encode, BitVec.getLsbD_append]
    interval_cases k <;> simp⟩

theorem uartAvailable : Statement .uartAvailable := ⟨⟨.UART_AVAILABLE, 0x22000000, 0xFFFFFFFF⟩, by decide⟩

theorem uartReceive : Statement .uartReceive := ⟨⟨.UART_RECEIVE, 0x23000000, 0xFFFFFFFF⟩, by decide⟩

theorem uartFlush : Statement .uartFlush := ⟨⟨.UART_FLUSH, 0x24000000, 0xFFFFFFFF⟩, by decide⟩

theorem irqDisable : Statement .irqDisable := ⟨⟨.IRQ_DISABLE, 0x30000000, 0xFFFFFFFF⟩, by decide⟩

theorem irqEnable : Statement .irqEnable := ⟨⟨.IRQ_ENABLE, 0x31000000, 0xFFFFFFFF⟩, by decide⟩

end Sys2Proof.Laws.SpellsItsRow
end

