-- ==== Sys2Proof/Laws/Uart.lean ====
section
/-! SUPPORT. Everything one micro-step of each transport and interrupt-control operation can do when it answers a next state,
by label. -/

namespace Sys2Proof.Machine

variable {s t : State}

/-- `UART_BEGIN`. -/
theorem execUartBegin_next {v : Val24} (h : execUartBegin v s = .next t) :
    (s.fg.ms = .fetch ∧
        (((uartDivisor s.params v).isSome ∧ t = goto .u1 (uartCtrlWrite [] s)) ∨
          (uartDivisor s.params v = none ∧ t = s.withFault (.unsupportedConfiguration .uart v)))) ∨
      (s.fg.ms = .u1 ∧ ∃ d, uartDivisor s.params v = some d ∧
        t = goto .u2 { s with uh.div := divRegister s.params d }) ∨
      (s.fg.ms = .u2 ∧
        t = goto .u3 { s with ut.rx.head := 0, ut.rx.tail := 0, ut.tx.head := 0, ut.tx.tail := 0, ut.rxOvf := 0 }) ∨
      (s.fg.ms = .u3 ∧ t = endOp { uartCtrlWrite [.RXEN, .TXEN, .RXCIE] s with ut.started := true }) := by
  unfold execUartBegin at h
  split at h
  · refine .inl ⟨‹_›, ?_⟩
    split at h
    · exact .inl ⟨by simp [*], (next_inj.1 h).symm⟩
    · exact .inr ⟨‹_›, (next_inj.1 h).symm⟩
  · refine .inr (.inl ⟨‹_›, ?_⟩)
    split at h
    · exact ⟨_, ‹_›, (next_inj.1 h).symm⟩
    · cases h
  · exact .inr (.inr (.inl ⟨‹_›, (next_inj.1 h).symm⟩))
  · exact .inr (.inr (.inr ⟨‹_›, (next_inj.1 h).symm⟩))
  · cases h

/-- `UART_SEND`. -/
theorem execUartSend_next {d : Byte} (h : execUartSend d s = .next t) :
    (s.fg.ms = .fetch ∧
        ((s.ut.started = false ∧ t = s.withFault (.notStarted .uart .UART_SEND)) ∨
          (s.ut.started = true ∧ t = goto .s1 { s with fg.n := some (nextIdx (maskTx s.params) s.ut.tx.head) }))) ∨
      (s.fg.ms = .s1 ∧ ∃ n, s.fg.n = some n ∧ ((n ≠ s.ut.tx.tail ∧ t = goto .s2 s) ∨ (n = s.ut.tx.tail ∧ t = s))) ∨
      (s.fg.ms = .s2 ∧ s.ut.tx.head.toNat < s.params.capTx ∧
        t = goto .s3 { s with ut.tx.buf := s.ut.tx.buf.write s.ut.tx.head.toNat d }) ∨
      (s.fg.ms = .s3 ∧ ∃ n, s.fg.n = some n ∧ t = goto .s4 { s with ut.tx.head := n }) ∨
      (s.fg.ms = .s4 ∧ t = endOp (setUdrie true s)) := by
  unfold execUartSend at h
  split at h
  · refine .inl ⟨‹_›, ?_⟩
    exact (uartGuard_next h).imp_right fun h => ⟨h.1, (next_inj.1 h.2).symm⟩
  · refine .inr (.inl ⟨‹_›, ?_⟩)
    split at h
    · refine ⟨_, ‹_›, ?_⟩
      rcases holdUntil_next h with ⟨h1, h2⟩ | ⟨h1, h2⟩
      · exact .inl ⟨by simpa using h1, (next_inj.1 h2).symm⟩
      · exact .inr ⟨by simpa using h1, h2⟩
    · cases h
  · refine .inr (.inr (.inl ⟨‹_›, ?_⟩))
    split at h
    · obtain ⟨hlt, rfl⟩ := Ring.slotWrite_eq_some ‹_›
      exact ⟨hlt, (next_inj.1 h).symm⟩
    · cases h
  · refine .inr (.inr (.inr (.inl ⟨‹_›, ?_⟩)))
    split at h
    · exact ⟨_, ‹_›, (next_inj.1 h).symm⟩
    · cases h
  · exact .inr (.inr (.inr (.inr ⟨‹_›, (next_inj.1 h).symm⟩)))
  · cases h

/-- `UART_AVAILABLE`. -/
theorem execUartAvailable_next (h : execUartAvailable s = .next t) :
    s.fg.ms = .fetch ∧
      ((s.ut.started = false ∧ t = s.withFault (.notStarted .uart .UART_AVAILABLE)) ∨
        (s.ut.started = true ∧
          t = endOp (result (s.ut.rx.count (maskRx s.params)) { s with fg.sv := some s.gie, fg.h := some s.ut.rx.head }))) := by
  unfold execUartAvailable at h
  split at h
  · refine ⟨‹_›, ?_⟩
    exact (uartGuard_next h).imp_right fun h => ⟨h.1, (next_inj.1 h.2).symm⟩
  · cases h

/-- `UART_RECEIVE`. -/
theorem execUartReceive_next (h : execUartReceive s = .next t) :
    (s.fg.ms = .fetch ∧
        ((s.ut.started = false ∧ t = s.withFault (.notStarted .uart .UART_RECEIVE)) ∨
          (s.ut.started = true ∧ s.ut.rx.head = s.ut.rx.tail ∧ t = s.withFault .receiveEmpty) ∨
          (s.ut.started = true ∧ s.ut.rx.head ≠ s.ut.rx.tail ∧ t = goto .v1 { s with fg.h := some s.ut.rx.head }))) ∨
      (s.fg.ms = .v1 ∧ s.ut.rx.tail.toNat < s.params.capRx ∧
        t = goto .v2 { s with fg.b := some (s.ut.rx.buf.read s.ut.rx.tail.toNat) }) ∨
      (s.fg.ms = .v2 ∧ ∃ b, s.fg.b = some b ∧
        t = endOp (result b { s with ut.rx.tail := nextIdx (maskRx s.params) s.ut.rx.tail })) := by
  unfold execUartReceive at h
  split at h
  · refine .inl ⟨‹_›, ?_⟩
    rcases uartGuard_next h with h | ⟨h1, h2⟩
    · exact .inl h
    · split at h2
      · exact .inr (.inl ⟨h1, (isEmpty_iff _).1 ‹_›, (next_inj.1 h2).symm⟩)
      · exact .inr (.inr ⟨h1, fun e => ‹¬_› ((isEmpty_iff _).2 e), (next_inj.1 h2).symm⟩)
  · refine .inr (.inl ⟨‹_›, ?_⟩)
    split at h
    · obtain ⟨hlt, rfl⟩ := Ring.slotRead_eq_some ‹_›
      exact ⟨hlt, (next_inj.1 h).symm⟩
    · cases h
  · refine .inr (.inr ⟨‹_›, ?_⟩)
    split at h
    · exact ⟨_, ‹_›, (next_inj.1 h).symm⟩
    · cases h
  · cases h

/-- `UART_FLUSH`. -/
theorem execUartFlush_next (h : execUartFlush s = .next t) :
    (s.fg.ms = .fetch ∧
        ((s.ut.started = false ∧ t = s.withFault (.notStarted .uart .UART_FLUSH)) ∨
          (s.ut.started = true ∧ t = goto .f1 { s with fg.h := some s.ut.rx.head }))) ∨
      (s.fg.ms = .f1 ∧ ∃ k, s.fg.h = some k ∧ t = endOp { s with ut.rx.tail := k }) := by
  unfold execUartFlush at h
  split at h
  · refine .inl ⟨‹_›, ?_⟩
    exact (uartGuard_next h).imp_right fun h => ⟨h.1, (next_inj.1 h.2).symm⟩
  · refine .inr ⟨‹_›, ?_⟩
    split at h
    · exact ⟨_, ‹_›, (next_inj.1 h).symm⟩
    · cases h
  · cases h

/-- `IRQ_DISABLE` and `IRQ_ENABLE`. -/
theorem writeGie_next {v : Bool} (h : writeGie v s = .next t) : s.fg.ms = .fetch ∧ t = endOp { s with gie := v } := by
  unfold writeGie at h
  split at h
  · exact ⟨‹_›, (next_inj.1 h).symm⟩
  · cases h

end Sys2Proof.Machine
end

