-- ==== Sys2Proof/Laws/Step.lean ====
section
/-! SUPPORT. Everything a handler step, a hardware step and a whole step can do when they answer a next state. -/

namespace Sys2Proof.Machine

variable {s t : State}

/-! ### The handlers -/

theorem rxStore_next {b : Byte} (h : rxStore b s = .next t) :
    s.ut.rx.head.toNat < s.params.capRx ∧
      t = { s with
        ut.rx := { s.ut.rx with
          buf := s.ut.rx.buf.write s.ut.rx.head.toNat b, head := nextIdx (maskRx s.params) s.ut.rx.head } } := by
  unfold rxStore at h
  split at h
  · obtain ⟨hlt, rfl⟩ := Ring.slotWrite_eq_some ‹_›
    exact ⟨hlt, (next_inj.1 h).symm⟩
  · cases h

/-- `ISR_RX` on a data register that holds a byte: stored with room, dropped, or stored over the tail. -/
theorem isrRx_next {b : Byte} {rest : List Byte} (hq : s.uh.rxFifo = b :: rest) (h : isrRx s = .next t) :
    (rxFull s = true ∧ s.params.rxPolicy = .dropNew ∧
        t = { s with uh.rxFifo := rest, ut.rxOvf := bumpOvf s.params.ovfWidth s.ut.rxOvf, gie := true }) ∨
      (s.ut.rx.head.toNat < s.params.capRx ∧
        ((rxFull s = true ∧ s.params.rxPolicy = .wrap ∧
            t = { s with
              uh.rxFifo := rest
              ut.rxOvf := bumpOvf s.params.ovfWidth s.ut.rxOvf
              ut.rx := { s.ut.rx with
                buf := s.ut.rx.buf.write s.ut.rx.head.toNat b, head := nextIdx (maskRx s.params) s.ut.rx.head }
              gie := true }) ∨
          (rxFull s = false ∧
            t = { s with
              uh.rxFifo := rest
              ut.rx := { s.ut.rx with
                buf := s.ut.rx.buf.write s.ut.rx.head.toNat b, head := nextIdx (maskRx s.params) s.ut.rx.head }
              gie := true }))) := by
  obtain ⟨u, hu, rfl⟩ := takeHandler_next h
  have hq' : (enterHandler s).uh.rxFifo = b :: rest := hq
  have hf : rxFull (enterHandler s) = rxFull s := rfl
  unfold isrRxBody at hu
  rw [hq'] at hu
  simp only [hf] at hu
  split at hu
  · split at hu
    · refine .inl ⟨‹_›, ‹_›, ?_⟩
      rw [← next_inj.1 hu]
      rfl
    · obtain ⟨hlt, rfl⟩ := rxStore_next hu
      exact .inr ⟨hlt, .inl ⟨‹_›, ‹_›, rfl⟩⟩
  · obtain ⟨hlt, rfl⟩ := rxStore_next hu
    exact .inr ⟨hlt, .inr ⟨by simpa using ‹¬_ = true›, rfl⟩⟩

/-- `ISR_TX`: it disables itself on an empty ring, else sends the byte at the tail. -/
theorem isrTx_next (h : isrTx s = .next t) :
    (s.ut.tx.head = s.ut.tx.tail ∧ t = { setUdrie false s with gie := true }) ∨
      (s.ut.tx.head ≠ s.ut.tx.tail ∧ s.ut.tx.tail.toNat < s.params.capTx ∧
        t = { s with
          uh.txReg := some (s.ut.tx.buf.read s.ut.tx.tail.toNat)
          ut.tx.tail := nextIdx (maskTx s.params) s.ut.tx.tail
          gie := true }) := by
  obtain ⟨u, hu, rfl⟩ := takeHandler_next h
  unfold isrTxBody at hu
  split at hu
  · refine .inl ⟨(isEmpty_iff _).1 ‹_›, ?_⟩
    rw [← next_inj.1 hu]
    rfl
  · have hne : s.ut.tx.head ≠ s.ut.tx.tail := fun e => ‹¬_› ((isEmpty_iff _).2 e)
    split at hu
    · obtain ⟨hlt, rfl⟩ := Ring.slotRead_eq_some ‹_›
      refine .inr ⟨hne, hlt, ?_⟩
      rw [← next_inj.1 hu]
      rfl
    · cases hu

/-! ### Fetching and one scheduled step -/

/-- The foreground runs the command it stands at. -/
theorem fgStep_of_decode {w : Word} {i : Instr} (hw : fetchWord s = some w) (hi : decodeWord w = .ok i) :
    fgStep s = exec i s := by
  simp only [fgStep, hw, hi]

theorem fgStep_of_current {i : Instr} (h : currentInstr s = some i) : fgStep s = exec i s := by
  unfold currentInstr at h
  split at h
  · cases h
  · split at h
    · cases h
      exact fgStep_of_decode ‹_› ‹_›
    · cases h

/-- The foreground is finished, refuses its word, or runs its command. -/
theorem fgStep_next (h : fgStep s = .next t) :
    (fetchWord s = none ∧ t = s) ∨
      (∃ w e, fetchWord s = some w ∧ decodeWord w = .error e ∧ t = { s with refused := some s.fg.pc }) ∨
      ∃ i, currentInstr s = some i ∧ exec i s = .next t := by
  unfold fgStep at h
  split at h
  · exact .inl ⟨‹_›, (next_inj.1 h).symm⟩
  · split at h
    · exact .inr (.inr ⟨_, by simp [currentInstr, *], h⟩)
    · exact .inr (.inl ⟨_, _, ‹_›, ‹_›, (next_inj.1 h).symm⟩)

theorem whenEnabled_next {on : Bool} {k : Result} (h : whenEnabled on s k = .next t) :
    (on = true ∧ k = .next t) ∨ (on = false ∧ t = s) := by
  cases on
  · exact .inr ⟨rfl, (next_inj.1 h).symm⟩
  · exact .inl ⟨rfl, h⟩

/-- A step happens only without a sticky mark, and is the scheduled agent's. -/
theorem step_next (h : step s = .next t) :
    s.fault = none ∧ s.refused = none ∧ agentStep (nextStep s) (advance s) = .next t := by
  unfold step at h
  split at h
  · cases h
  · split at h
    · cases h
    · exact ⟨‹_›, ‹_›, h⟩

theorem step_of_running (h : running s = true) : step s = agentStep (nextStep s) (advance s) := by
  obtain ⟨h1, h2⟩ := (running_iff s).1 h
  simp [step, h1, h2]

/-- Everything one scheduled step can do: nothing, a foreground micro-step, a hardware step or a handler step. -/
theorem agentStep_next {a : AgentStep} (h : agentStep a s = .next t) :
    t = s ∨ (a = .fg ∧ fgStep s = .next t) ∨
      (∃ d status, a = .busComplete d status ∧ busCompleteEnabled s = true ∧ t = busComplete d status s) ∨
      (∃ status, a = .busStopDone status ∧ busStopEnabled s = true ∧ t = busStopDone status s) ∨
      (a = .rxArrive ∧ arriveEnabled s = true ∧ t = arrive s) ∨
      (a = .rxDrop ∧ dropEnabled s = true ∧ t = drop s) ∨
      (a = .txShift ∧ shiftEnabled s = true ∧ t = shift s) ∨
      (a = .isrRx ∧ isrRxEnabled s = true ∧ isrRx s = .next t) ∨
      (a = .isrTx ∧ isrTxEnabled s = true ∧ isrTx s = .next t) := by
  cases a <;> simp only [agentStep] at h
  case fg => exact .inr (.inl ⟨rfl, h⟩)
  case busComplete d status =>
    rcases whenEnabled_next h with ⟨h1, h2⟩ | ⟨-, h2⟩
    · exact .inr (.inr (.inl ⟨d, status, rfl, h1, (next_inj.1 h2).symm⟩))
    · exact .inl h2
  case busStopDone status =>
    rcases whenEnabled_next h with ⟨h1, h2⟩ | ⟨-, h2⟩
    · exact .inr (.inr (.inr (.inl ⟨status, rfl, h1, (next_inj.1 h2).symm⟩)))
    · exact .inl h2
  case rxArrive =>
    rcases whenEnabled_next h with ⟨h1, h2⟩ | ⟨-, h2⟩
    · exact .inr (.inr (.inr (.inr (.inl ⟨rfl, h1, (next_inj.1 h2).symm⟩))))
    · exact .inl h2
  case rxDrop =>
    rcases whenEnabled_next h with ⟨h1, h2⟩ | ⟨-, h2⟩
    · exact .inr (.inr (.inr (.inr (.inr (.inl ⟨rfl, h1, (next_inj.1 h2).symm⟩)))))
    · exact .inl h2
  case txShift =>
    rcases whenEnabled_next h with ⟨h1, h2⟩ | ⟨-, h2⟩
    · exact .inr (.inr (.inr (.inr (.inr (.inr (.inl ⟨rfl, h1, (next_inj.1 h2).symm⟩))))))
    · exact .inl h2
  case isrRx =>
    rcases whenEnabled_next h with ⟨h1, h2⟩ | ⟨-, h2⟩
    · exact .inr (.inr (.inr (.inr (.inr (.inr (.inr (.inl ⟨rfl, h1, h2⟩)))))))
    · exact .inl h2
  case isrTx =>
    rcases whenEnabled_next h with ⟨h1, h2⟩ | ⟨-, h2⟩
    · exact .inr (.inr (.inr (.inr (.inr (.inr (.inr (.inr ⟨rfl, h1, h2⟩)))))))
    · exact .inl h2

/-- Both ring storages are in canonical form at reset. -/
theorem reset_memories_wf : State.reset.ut.rx.buf.wf ∧ State.reset.ut.tx.buf.wf := by decide

/-! ### `withFetchWord` -/

theorem placeWord_get (ws : List Word) (k : Nat) (w : Word) : (placeWord ws k w)[k]? = some w := by
  induction k generalizing ws with
  | zero => cases ws <;> rfl
  | succ k ih => cases ws <;> simpa [placeWord] using ih _

/-- The step after `withFetchWord` fetches and runs exactly the placed word. -/
theorem step_withFetchWord {n w : Nat} {i : Instr} (s : State)
    (h : decodeWord (BitVec.ofNat 32 (w % 2 ^ n)) = .ok i) :
    step (s.withFetchWord n w) = exec i (advance (s.withFetchWord n w)) := by
  rw [step_of_running rfl]
  refine fgStep_of_decode (w := BitVec.ofNat 32 (w % 2 ^ n)) ?_ h
  exact placeWord_get _ _ _

end Sys2Proof.Machine
end

