-- ==== Sys2Proof/Tests/Slice0.lean ====
section
/-! SUPPORT. Tests of the model against numbers written out from the spec (95_test_vectors.md and the worked examples of the
rules), the refusals of every well-formedness check, and for every obligation with hypotheses a named witness that meets
them. -/

namespace Sys2Proof.Tests

open Sys2Proof Sys2Proof.Machine

/-! ### Helpers -/

/-- One field of a next state; none for a fault or a refusal. -/
def look {α : Type} (r : Result) (f : State → α) : Option α :=
  match r with
  | .next t => some (f t)
  | .fault _ => none
  | .refused _ => none

/-- `C_RX = C_TX = 4`. -/
def four : Config.Params := { familyParams with capRx := 4, capTx := 4 }

/-- After reset with one command and a schedule. -/
def fresh (w : Word) (sched : List AgentStep) : State :=
  State.launch { Launch.plain with params := four, program := [w], sched := sched }

/-- The bus engine at a phase and a label, with the completion flag, the phase in flight and the remaining count, the control
fields as the label calls for. -/
def busState (w : Word) (ms : Label) (ph : Phase) (int : Bool) (pending : Pending) (remaining : Count)
    (sched : List AgentStep) : State :=
  { fresh w sched with
    be := { phase := ph, addr := 0x50, remaining := remaining }
    bh.ctrl := ctrlAt ms ph pending remaining
    bh.int := int
    bh.pending := pending
    fg.ms := ms }

/-- A started transport with the given rings, at a label. -/
def uartState (w : Word) (ms : Label) (rx tx : Ring) (sched : List AgentStep) : State :=
  { fresh w sched with
    ut := { started := true, rx := rx, tx := tx, rxOvf := 0 }
    uh.ctrl := { rxen := true, txen := true, rxcie := true, udrie := true }
    gie := true
    fg.ms := ms }

/-- Two bytes, oldest in slot 3: `head = 1`, `tail = 3`. -/
def ringTwo : Ring := { buf := [(0, 0x0B), (3, 0x0A)], head := 1, tail := 3 }

/-- Full at capacity 4: `head = 3`, `tail = 0`. -/
def ringFull : Ring := { buf := [(0, 0x61), (1, 0x62), (2, 0x63)], head := 3, tail := 0 }

def ringEmpty : Ring := { buf := [], head := 0, tail := 0 }

/-! ### Decoding: words written out field by field (30_encoding.md R91, R92, R95; V-DECODE) -/

theorem test_decode_busBegin :
    decodeWord (0b00010000#8 ++ 0b000000000000000001100100#24) = .ok (.busBegin 100) := by decide
theorem test_decode_busBeginTx :
    decodeWord (0b00010001#8 ++ 0b0#1 ++ 0b1010000#7 ++ 0b0000000000000000#16) = .ok (.busBeginTx 0x50) := by decide
theorem test_decode_busWrite :
    decodeWord (0b00010010#8 ++ 0b10100101#8 ++ 0b0000000000000000#16) = .ok (.busWrite 0xA5) := by decide
theorem test_decode_busRequestFrom :
    decodeWord (0b00010011#8 ++ 0b0#1 ++ 0b1101000#7 ++ 0b00000000#8 ++ 0b11111111#8) = .ok (.busRequestFrom 0x68 255) := by
  decide
theorem test_decode_busRead : decodeWord (0b00010100#8 ++ 0#24) = .ok .busRead := by decide
theorem test_decode_busEndTx : decodeWord (0b00010101#8 ++ 0#24) = .ok .busEndTx := by decide
theorem test_decode_uartBegin :
    decodeWord (0b00100000#8 ++ 0b000000000010010110000000#24) = .ok (.uartBegin 9600) := by decide
theorem test_decode_uartSend :
    decodeWord (0b00100001#8 ++ 0b01001000#8 ++ 0b0000000000000000#16) = .ok (.uartSend 0x48) := by decide
theorem test_decode_uartAvailable : decodeWord (0b00100010#8 ++ 0#24) = .ok .uartAvailable := by decide
theorem test_decode_uartReceive : decodeWord (0b00100011#8 ++ 0#24) = .ok .uartReceive := by decide
theorem test_decode_uartFlush : decodeWord (0b00100100#8 ++ 0#24) = .ok .uartFlush := by decide
theorem test_decode_irqDisable : decodeWord (0b00110000#8 ++ 0#24) = .ok .irqDisable := by decide
theorem test_decode_irqEnable : decodeWord (0b00110001#8 ++ 0#24) = .ok .irqEnable := by decide

/-- Reserved bits and unassigned opcodes are rejected by name (V-DECODE). -/
theorem test_decode_rejects :
    decodeWord 0x11800000 = .error (.reservedBits 0x11) ∧ decodeWord 0x13680100 = .error (.reservedBits 0x13) ∧
    decodeWord 0x25000000 = .error (.unassignedOpcode 0x25) ∧ decodeWord 0x32000000 = .error (.unassignedOpcode 0x32) := by
  decide

/-- Byte 0 of a stored word is its low byte; a rest of fewer than four bytes is rejected (R108). -/
theorem test_decode_bytes :
    decode [0x64, 0x00, 0x00, 0x10, 0x99] = .ok (.busBegin 100, [0x99]) ∧ decode [0x64, 0x00] = .error (.truncated 2) := by
  decide

theorem test_encode : encode (.busRequestFrom 0x68 3) = 0x13680003 ∧ encode (.uartSend 0x48) = 0x21480000 := by decide

theorem test_decodeTableWord :
    decodeTableWord 32 0x13680003 = some (.busRequestFrom 0x68 3) ∧ decodeTableWord 32 0x16000000 = none := by decide

/-! ### Well-formedness: one ill-formed term for each check (00_scope.md R7, 30_encoding.md R109, R110, R112) -/

theorem smoke_capRx : ¬{ four with capRx := 3 }.wf := by decide
theorem smoke_capTx : ¬{ four with capTx := 512 }.wf := by decide
theorem smoke_depth : ¬{ four with rxHwDepth := 0 }.wf := by decide
theorem smoke_divisor_twice : ¬{ four with uartDivisor := [(9600, 103), (9600, 51)] }.wf := by decide
theorem smoke_divisor_wide : ¬{ four with uartDivisor := [(9600, 4096)] }.wf := by decide
theorem smoke_idxWidth : ¬{ four with idxWidth := 1 }.wf := by decide
theorem smoke_busDivisor_twice : ¬{ four with busDivisor := [(100, 72), (100, 32)] }.wf := by decide
theorem smoke_busDivisor_100 : ¬{ four with busDivisor := [(250, 24)] }.wf := by decide
theorem smoke_address : (Stmt.busBeginTransmission 0x80).problem four = some .addressAbove7F := by decide
theorem smoke_byte : (Stmt.busWrite 0x100).problem four = some .byteAboveFF := by decide
theorem smoke_count : (Stmt.busRequestFrom 0x68 256).problem four = some .countAbove255 := by decide
theorem smoke_value : (Stmt.uartBegin 0x1000000).problem four = some .valueAboveFFFFFF := by decide
theorem smoke_ack : (Stmt.busRead .other).problem four = some .ackPolicy := by decide
theorem smoke_string : (Stmt.uartPrint (List.replicate 64 0x41)).problem four = some .stringTooLong := by decide
theorem smoke_accepted : four.wf ∧ (Stmt.uartPrint (List.replicate 63 0x41)).wf four ∧ (Stmt.busRequestFrom 0x7F 255).wf four := by
  decide

/-! ### The assembler (30_encoding.md R109, R110, R112) -/

theorem test_assembleLine_call :
    assembleLine four "  bus.requestFrom(0x68, 3) ; P2".toList = .ok [0x13680003] := by decide
theorem test_assembleLine_mnemonic : assembleLine four "UART_SEND 'H'".toList = .ok [0x21480000] := by decide
theorem test_assembleLine_print : assembleLine four "uart.print(\"Hi\")".toList = .ok [0x21480000, 0x21690000] := by decide
theorem test_assembleLine_speed : assembleLine four "bus.begin(400k)".toList = .ok [0x10000190] := by decide
theorem test_assembleLine_ack : assembleLine four "bus.read(nack)".toList = .error (.refused .ackPolicy) := by decide
/-- A quoted apostrophe, comma and semicolon are bytes, and what follows them is read on (log 20). -/
theorem test_assembleLine_quoted :
    assembleLine four "uart.send(''') ; it's".toList = .ok [0x21270000] ∧
    assembleLine four "UART_SEND ';' ; ';'".toList = .ok [0x213B0000] ∧
    assembleLine four "uart.print(\"),\")".toList = .ok [0x21290000, 0x212C0000] := by decide
/-- The two forms are not mixed, and only ASCII is quoted (log 20). -/
theorem test_assembleLine_forms :
    assembleLine four "bus.write 0xA5".toList = .error .badStatement ∧
    assembleLine four "BUS_WRITE(0xA5)".toList = .error .badStatement ∧
    assembleLine four "BUS_WRITE 0xA5".toList = .ok [0x12A50000] ∧ assembleLine four "bus.read".toList = .error .badStatement ∧
    assembleLine four "BUS_READ auto".toList = .error (.refused .ackPolicy) ∧
    assembleLine four "bus.read(auto)".toList = .ok [0x14000000] ∧
    assembleLine four "uart.send('é')".toList = .error .badStatement := by decide

/-! ### Registers and operands -/

/-- V-SLA. -/
theorem test_sla : sla 0x27 false = 0x4E ∧ sla 0x68 true = 0xD1 ∧ sla 0x7F true = 0xFF := by decide

/-- V-COUNT. -/
theorem test_count :
    Ring.count (mask 8 128) { buf := [], head := 1, tail := 3 } = 126 ∧
    Ring.count (mask 8 4) { buf := [], head := 0, tail := 3 } = 1 ∧
    Ring.count (mask 8 256) { buf := [], head := 0, tail := 255 } = 1 ∧ nextIdx (mask 8 128) 127 = 0 ∧
    nextIdx (mask 8 256) 255 = 0 := by decide

/-- The control bytes of 10_state.md R55 and of P2. -/
theorem test_busCtrlFields :
    byteAt (busCtrlFields atmega16a [.EN]) 0x56 = 0x04 ∧ byteAt (busCtrlFields atmega16a [.INT, .STA, .EN]) 0x56 = 0xA4 ∧
    byteAt (busCtrlFields atmega16a [.INT, .EN]) 0x56 = 0x84 ∧
    byteAt (busCtrlFields atmega16a [.INT, .ACK, .EN]) 0x56 = 0xC4 ∧
    byteAt (busCtrlFields atmega16a [.INT, .STO, .EN]) 0x56 = 0x94 := by decide

/-- The map of R55: the status code in bits 7:3 of TWSR (0x21), the receive byte in UDR (0x2C), RXC and UDRE in 0x2B, and the
divisor in two registers. -/
theorem test_registerByte :
    let s := { State.reset with uh.rxFifo := [0x7A, 0x7B], uh.div := 0x167 }
    registerByte s 0x21 = 0xF8 ∧ registerByte s 0x2C = 0x7A ∧ registerByte s 0x2B = 0xA0 ∧ registerByte s 0x29 = 0x67 ∧
    registerByte s 0x40 = 0x01 ∧ registerByte State.reset 0x2C = 0 ∧
    byteAt (txDataFields atmega16a 0x55) 0x2C = 0x55 ∧
    byteAt (uartCtrlFields atmega16a [.RXEN, .TXEN, .RXCIE]) 0x2A = 0x98 := by decide

/-- R21. -/
theorem test_phaseCodes :
    [Phase.off, .idle, .started, .addressedW, .addressedR, .transferringW, .transferringR, .stopped].map Phase.code =
      [0, 1, 2, 3, 4, 5, 6, 7] := by decide

/-- A launch with an `ADDR_WIDTH` of 4, a `COUNT_WIDTH` of 3 and an `OVF_WIDTH` of 2 keeps the low bits (00_scope.md R8). -/
theorem test_widths :
    let p := { four with addrWidth := 4, countWidth := 3, ovfWidth := 2 }
    addrOperand p 0x5A = 0x0A ∧ countOperand p 0xFD = 5 ∧ bumpOvf p.ovfWidth 3 = 3 ∧ bumpOvf p.ovfWidth 2 = 3 ∧
    addrOperand four 0x5A = 0x5A ∧ countOperand four 0xFD = 0xFD := by decide

/-- R232. -/
theorem test_faultCodes :
    (FaultInfo.unsupportedConfiguration .uart 1).code = 1 ∧ (FaultInfo.protocolSequenceError .BUS_READ .idle 0).code = 2 ∧
    (FaultInfo.notStarted .bus .BUS_READ).code = 3 ∧ FaultInfo.receiveEmpty.code = 4 := by decide

/-! ### One step of each operation -/

/-- V-BEGIN: 400 kHz from `IDLE`. -/
theorem test_busBegin :
    look (exec (.busBegin 400) (busState 0x10000190 .fetch .idle false .none 0 [])) (fun t => (t.be.phase, t.bh.div, t.fg.pc)) =
      some (.idle, 12, 1) := by decide
/-- V-BEGIN: the phase guard before the operand. -/
theorem test_busBegin_guard :
    look (exec (.busBegin 999) (busState 0x100003E7 .fetch .addressedR true .none 2 [])) (·.fault) =
      some (some { info := .protocolSequenceError .BUS_BEGIN .addressedR 2, index := 0 }) := by decide
/-- P1 step 2. -/
theorem test_busBeginTx :
    look (exec (.busBeginTx 0x50) (busState 0x11500000 .fetch .idle true .none 0 []))
      (fun t => (t.bh.ctrl.sta, t.bh.int, t.bh.pending, t.fg.ms)) = some (true, false, .start, .bt1) := by decide
/-- P1 step 5. -/
theorem test_busBeginTx_address :
    look (exec (.busBeginTx 0x50) (busState 0x11500000 .bt2 .started true .none 0 [])) (·.bh.data) = some 0xA0 := by decide
/-- P1 step 10. -/
theorem test_busWrite :
    look (exec (.busWrite 0xA5) (busState 0x12A50000 .w1 .addressedW true .none 0 []))
      (fun t => (t.bh.pending, t.bh.ctrl.sta, t.fg.ms)) = some (.txData, false, .w2) := by decide
/-- V-GUARD. -/
theorem test_busWrite_guard :
    look (exec (.busWrite 0xA5) (busState 0x12A50000 .fetch .addressedR true .none 3 [])) (·.fault) =
      some (some { info := .protocolSequenceError .BUS_WRITE .addressedR 3, index := 0 }) := by decide
/-- R130: the last micro-step. -/
theorem test_busRequestFrom :
    look (exec (.busRequestFrom 0x68 3) (busState 0x13680003 .rq4 .started true .none 0 [])) (·.be) =
      some { phase := .addressedR, addr := 0x68, remaining := 3 } := by decide
theorem test_busRequestFrom_address :
    look (exec (.busRequestFrom 0x68 3) (busState 0x13680003 .rq2 .started true .none 0 [])) (·.bh.data) = some 0xD1 := by
  decide
/-- V-ACK: with one byte left the read is NACKed. -/
theorem test_busRead_last :
    look (exec .busRead (busState 0x14000000 .d1 .addressedR true .none 0 [])) (fun t => (t.bh.pending, t.bh.ctrl.ack)) =
      some (.rxData false, false) := by decide
/-- V-GUARD: the OFF check comes first. -/
theorem test_busRead_off :
    look (exec .busRead (busState 0x14000000 .fetch .off false .none 0 [])) (·.fault) =
      some (some { info := .notStarted .bus .BUS_READ, index := 0 }) := by decide
/-- P1 step 17. -/
theorem test_busEndTx :
    look (exec .busEndTx (busState 0x15000000 .fetch .transferringW true .none 0 []))
      (fun t => (t.be.phase, t.bh.pending, t.bh.ctrl.sto)) = some (.stopped, .stop, true) := by decide
/-- V-ACK: closing discards the rest of the count. -/
theorem test_busEndTx_close :
    look (exec .busEndTx (busState 0x15000000 .e1 .stopped false .none 1 [])) (fun t => (t.be.phase, t.be.remaining)) =
      some (.idle, 0) := by decide
/-- V-UBEGIN: an unsupported rate. -/
theorem test_uartBegin_unsupported :
    look (exec (.uartBegin 1) (fresh 0x20000001 [])) (·.fault) =
      some (some { info := .unsupportedConfiguration .uart 1, index := 0 }) := by decide
/-- V-UBEGIN: a byte in the transmit register is kept. -/
theorem test_uartBegin_keeps :
    look (exec (.uartBegin 9600) { uartState 0x20002580 .u2 ringTwo ringTwo [] with uh.txReg := some 0x55 })
      (fun t => (t.ut.tx.head, t.ut.tx.tail, t.uh.txReg)) = some (0, 0, some 0x55) := by decide
/-- V-SEND: the store goes to the old head. -/
theorem test_uartSend_store :
    look (exec (.uartSend 0x63) (uartState 0x21630000 .s2 ringEmpty { ringEmpty with head := 2 } []))
      (fun t => t.ut.tx.buf) = some [(2, 0x63)] := by decide
/-- V-SEND: held on a full ring. -/
theorem test_uartSend_full :
    look (exec (.uartSend 0x64) { uartState 0x21640000 .s1 ringEmpty ringFull [] with fg.n := some 0 })
      (fun t => t.fg.ms) = some .s1 := by decide
/-- V-AVAIL: `gie` is restored, not set. -/
theorem test_uartAvailable :
    look (exec .uartAvailable { uartState 0x22000000 .fetch ringTwo ringEmpty [] with gie := false })
      (fun t => (t.fg.results, t.gie)) = some ([2], false) := by decide
/-- V-RECV: the tail wraps. -/
theorem test_uartReceive :
    look (exec .uartReceive { uartState 0x23000000 .v2 ringTwo ringEmpty [] with fg.b := some 0x7A })
      (fun t => (t.fg.results, t.ut.rx.tail)) = some ([0x7A], 0) := by decide
theorem test_uartReceive_empty :
    look (exec .uartReceive (uartState 0x23000000 .fetch ringEmpty ringEmpty [])) (·.fault) =
      some (some { info := .receiveEmpty, index := 0 }) := by decide
/-- V-FLUSH: a byte stored between FETCH and F1 stays. -/
theorem test_uartFlush :
    look (exec .uartFlush { uartState 0x24000000 .f1 ringTwo ringEmpty [] with fg.h := some 0 })
      (fun t => (t.ut.rx.tail, t.ut.rx.head)) = some (0, 1) := by decide
/-- V-IRQ. -/
theorem test_irqDisable :
    look (exec .irqDisable (uartState 0x30000000 .fetch ringEmpty ringEmpty [])) (fun t => (t.gie, t.fg.pc)) =
      some (false, 1) := by decide
theorem test_irqEnable : look (exec .irqEnable (fresh 0x31000000 [])) (fun t => (t.gie, t.fg.pc)) = some (true, 1) := by decide

/-! ### One step of each other agent -/

/-- P1 step 7. -/
theorem test_busComplete :
    look (step (busState 0x11500000 .bt4 .started false .addr 0 [.busComplete 0x99 0x18]))
      (fun t => (t.bh.trace, t.bh.int, t.bh.pending, t.bh.data)) = some ([.addr 0xFF], true, .none, 0xFF) := by decide
/-- R136: a data read takes the slave's byte. -/
theorem test_busComplete_read :
    look (step (busState 0x14000000 .d2 .addressedR false (.rxData true) 2 [.busComplete 0x12 0x50]))
      (fun t => (t.bh.trace, t.bh.data, t.bh.status)) = some ([.rx 0x12 true], 0x12, 0x50) := by decide
/-- V-TXISR: the slot at the tail, which wraps. -/
theorem test_isrTx :
    look (step (uartState 0x14000000 .fetch ringEmpty { ringTwo with head := 0 } [.isrTx]))
      (fun t => (t.uh.txReg, t.ut.tx.tail, t.uh.ctrl.udrie)) = some (some 0x0A, 0, true) := by decide
theorem test_isrTx_empty :
    look (step (uartState 0x14000000 .fetch ringEmpty ringEmpty [.isrTx])) (fun t => (t.uh.ctrl.udrie, t.gie)) =
      some (false, true) := by decide
/-- V-RXOVF, byte 0x04 under `WRAP`. -/
theorem test_isrRx_wrap :
    look (step { uartState 0x14000000 .fetch ringFull ringEmpty [.isrRx] with uh.rxFifo := [4] })
      (fun t => (t.ut.rx.head, t.ut.rx.count (maskRx four), t.ut.rxOvf, t.ut.rx.buf.read 3)) = some (0, 0, 1, 4) := by decide
/-- V-RXOVF under `DROP_NEW`, the counter saturated. -/
theorem test_isrRx_drop :
    look (step { uartState 0x14000000 .fetch ringFull ringEmpty [.isrRx] with
        uh.rxFifo := [4], ut.rxOvf := 255, params.rxPolicy := .dropNew })
      (fun t => (t.ut.rx, t.ut.rxOvf, t.uh.rxFifo)) = some (ringFull, 255, []) := by decide
/-- V-HWOVR. -/
theorem test_rxArrive_overrun :
    look (step { uartState 0x14000000 .fetch ringEmpty ringEmpty [.rxArrive] with uh.rxFifo := [1, 2], wire.rxIn := [3] })
      (fun t => (t.uh.rxFifo, t.uh.hwOvr, t.wire.rxIn)) = some ([1, 2], 1, []) := by decide

/-! ### `withFetchWord`: the placed word is the first to run after reset -/

theorem test_withFetchWord :
    look (step (State.reset.withFetchWord 32 0x10000064)) (fun t => (t.be.phase, t.bh.div, t.fg.pc)) = some (.idle, 72, 1) := by
  decide
theorem test_withFetchWord_refused :
    look (step (State.reset.withFetchWord 32 0x14000001)) (fun t => (t.refused, t.fault, t.fg.pc)) = some (some 0, none, 0) := by
  decide

/-! ### States that meet every invariant -/

/-- The checks of `Ring.wf`, decided. -/
abbrev RingChecks (cap : Nat) (r : Ring) : Prop :=
  r.head.toNat < cap ∧ r.tail.toNat < cap ∧ r.buf.wf ∧ ∀ c ∈ r.buf, c.1 < cap

/-- The invariants of a concrete state outside U1, from facts that `decide` settles and the engine's place. -/
theorem inv_of (s : State) (i : Instr) (hi : s.fg.ms = .fetch ∨ currentInstr s = some i) (hbus : s.busAt)
    (hshape : s.params.wf ∧ RingChecks s.params.capRx s.ut.rx ∧ RingChecks s.params.capTx s.ut.tx ∧
      s.uh.rxFifo.length ≤ s.params.rxHwDepth ∧ s.uh.div < 2 ^ s.params.uartDivWidth ∧
      s.ut.rxOvf < 2 ^ s.params.ovfWidth ∧ s.be.addr.toNat < 2 ^ s.params.addrWidth ∧
      s.be.remaining.toNat < 2 ^ s.params.countWidth)
    (hpos : (s.fg.ms = .fetch ∨ s.fg.ms ∈ labelsOf i) ∧ s.fg.ms ≠ .u1 ∧
      (s.fg.ms = .s1 ∨ s.fg.ms = .s2 ∨ s.fg.ms = .s3 → s.fg.n = some (nextIdx (maskTx s.params) s.ut.tx.head)) ∧
      (s.fg.ms = .s2 ∨ s.fg.ms = .s3 → s.fg.n ≠ some s.ut.tx.tail) ∧
      (s.fg.ms = .s3 → i = .uartSend (s.ut.tx.buf.read s.ut.tx.head.toNat)) ∧ (s.fg.ms = .v2 → s.fg.b.isSome) ∧
      (s.fg.ms = .f1 → s.fg.h.isSome ∧ (s.fg.h.getD 0).toNat < s.params.capRx) ∧
      (s.fault ≠ none ∨ s.refused ≠ none → s.fg.ms = .fetch))
    (hctrl : s.bh.ctrl = ctrlAt s.fg.ms s.be.phase s.bh.pending s.be.remaining)
    (hpump : s.ut.tx.isEmpty = true ∨ s.uh.ctrl.udrie = true ∨ s.fg.ms = .s4 ∨ s.fg.ms = .u1 ∨ s.fg.ms = .u2)
    (hstart : (s.ut.started = false ∨ s.fg.ms ∈ [Label.u1, .u2, .u3] →
        s.uh.ctrl = { rxen := false, txen := false, rxcie := false, udrie := false } ∧ s.uh.rxFifo = []) ∧
      (s.fg.ms ∈ [Label.s1, .s2, .s3, .s4, .v1, .v2, .f1] → s.ut.started = true) ∧
      (s.ut.started = true → s.fg.ms ∉ [Label.u1, .u2, .u3] →
        s.uh.ctrl.rxen = true ∧ s.uh.ctrl.txen = true ∧ s.uh.ctrl.rxcie = true) ∧
      (s.fg.ms = .u3 →
        s.ut.rx.head = 0 ∧ s.ut.rx.tail = 0 ∧ s.ut.tx.head = 0 ∧ s.ut.tx.tail = 0 ∧ s.ut.rxOvf = 0)) : s.Inv where
  shaped := ⟨hshape.1, hshape.2.1, hshape.2.2.1, hshape.2.2.2.1, hshape.2.2.2.2.1, hshape.2.2.2.2.2.1, hshape.2.2.2.2.2.2.1,
    hshape.2.2.2.2.2.2.2⟩
  positioned :=
    { label := by
        rcases hpos.1 with h | h
        · exact .inl h
        · rcases hi with hi | hi
          · exact .inl hi
          · exact .inr ⟨i, hi, h⟩
      baud := fun _ h => absurd h hpos.2.1
      next := hpos.2.2.1
      room := hpos.2.2.2.1
      stored := fun d h hd => by
        rcases hi with hi | hi
        · rw [h] at hi
          cases hi
        · have he := hpos.2.2.2.2.1 h
          rw [hi, he] at hd
          injection hd with hd
          injection hd
      byte := hpos.2.2.2.2.2.1
      snapshot := fun h => by
        obtain ⟨h1, h2⟩ := hpos.2.2.2.2.2.2.1 h
        cases hh : s.fg.h with
        | none => simp [hh] at h1
        | some x => exact ⟨x, rfl, by simpa [hh] using h2⟩
      precise := hpos.2.2.2.2.2.2.2 }
  session := ⟨hbus, hctrl⟩
  pump := hpump
  started := ⟨hstart.1, hstart.2.1, hstart.2.2.1, hstart.2.2.2⟩

/-- The invariants read neither the schedule nor `gie`. -/
theorem inv_moved {s : State} (h : s.Inv) (sched : List AgentStep) (tick : Nat) (gie : Bool) :
    State.Inv { s with sched := sched, tick := tick, gie := gie } where
  shaped := ⟨h.1.1, h.1.2, h.1.3, h.1.4, h.1.5, h.1.6, h.1.7, h.1.8⟩
  positioned := ⟨h.2.1, h.2.2, h.2.3, h.2.4, h.2.5, h.2.6, h.2.7, h.2.8⟩
  session := ⟨h.3.1, h.3.2⟩
  pump := h.4
  started := ⟨h.5.1, h.5.2, h.5.3, h.5.4⟩

/-- The same state with another schedule. -/
def onSched (s : State) (sched : List AgentStep) : State := { s with sched := sched }

theorem onSched_inv {s : State} (h : s.Inv) (sched : List AgentStep) : (onSched s sched).Inv :=
  inv_moved h sched s.tick s.gie

/-- At BT1 of `BUS_BEGIN_TX 0x50`, its START in flight. -/
def atBt1 : State := busState 0x11500000 .bt1 .idle false .start 0 []

theorem atBt1_inv : atBt1.Inv :=
  inv_of _ (.busBeginTx 0x50) (.inr (by decide)) (show _ ∧ _ from ⟨rfl, .inl ⟨rfl, rfl⟩⟩) (by decide) (by decide) (by decide)
    (by decide) (by decide)

/-- At E1 of `BUS_END_TX`, its STOP in flight. -/
def atE1 : State := busState 0x15000000 .e1 .stopped false .stop 0 []

theorem atE1_inv : atE1.Inv :=
  inv_of _ .busEndTx (.inr (by decide)) (show _ ∧ _ from ⟨rfl, rfl, .inl rfl⟩) (by decide) (by decide) (by decide)
    (by decide) (by decide)

/-- At a label of a started transport, the bus engine off. -/
theorem uart_busAt {s : State} (hms : s.fg.ms ∈ [Label.fetch, .u1, .u2, .u3, .s1, .s2, .s3, .s4, .v1, .v2, .f1])
    (hp : s.bh.pending = .none) (hph : s.be.phase = .off) (hint : s.bh.int = false) : s.busAt := by
  have h : s.betweenBusOps := ⟨hp, .inl ⟨.inl hph, hint⟩⟩
  simp only [List.mem_cons, List.not_mem_nil, or_false] at hms
  unfold State.busAt
  rcases hms with e | e | e | e | e | e | e | e | e | e | e <;> rw [e] <;> exact h

/-- At S1 of `UART_SEND 0x64` on a full ring. -/
def atS1 : State :=
  { uartState 0x21640000 .s1 ringEmpty ringFull [] with fg.n := some 0 }

theorem atS1_inv : atS1.Inv :=
  inv_of _ (.uartSend 0x64) (.inr (by decide)) (uart_busAt (by decide) rfl rfl rfl) (by decide) (by decide) (by decide)
    (by decide) (by decide)

/-- At S3 of `UART_SEND 0x61` on a ring of two bytes. -/
def atS3 : State :=
  { uartState 0x21610000 .s3 ringEmpty { ringTwo with buf := [(0, 0x0B), (1, 0x61), (3, 0x0A)] } [] with fg.n := some 2 }

theorem atS3_inv : atS3.Inv :=
  inv_of _ (.uartSend 0x61) (.inr (by decide)) (uart_busAt (by decide) rfl rfl rfl) (by decide) (by decide) (by decide)
    (by decide) (by decide)

/-- At U2 of `UART_BEGIN 9600`, bytes in both rings and one in the transmit register. -/
def atU2 : State :=
  { uartState 0x20002580 .u2 ringTwo ringTwo [] with
    uh.ctrl := { rxen := false, txen := false, rxcie := false, udrie := false }
    uh.txReg := some 0x55 }

theorem atU2_inv : atU2.Inv :=
  inv_of _ (.uartBegin 9600) (.inr (by decide)) (uart_busAt (by decide) rfl rfl rfl) (by decide) (by decide) (by decide)
    (by decide) (by decide)

/-- At V2 of `UART_RECEIVE` with the oldest byte read. -/
def atV2 : State := { uartState 0x23000000 .v2 ringTwo ringEmpty [] with fg.b := some 0x0A }

theorem atV2_inv : atV2.Inv :=
  inv_of _ .uartReceive (.inr (by decide)) (uart_busAt (by decide) rfl rfl rfl) (by decide) (by decide) (by decide)
    (by decide) (by decide)

/-- At FETCH of a word on a started transport, a byte in the receive register, bytes in both rings. -/
def atFetch : State :=
  { uartState 0x23000000 .fetch ringTwo ringTwo [] with uh.rxFifo := [0x0C], wire.rxIn := [0x0D] }

theorem atFetch_inv : atFetch.Inv :=
  inv_of _ .uartReceive (.inl rfl) (uart_busAt (by decide) rfl rfl rfl) (by decide) (by decide) (by decide) (by decide)
    (by decide)

/-- The program finished, one byte in the transmit ring and one in the transmit register. -/
def finishedState : State :=
  { uartState 0x31000000 .fetch ringEmpty { buf := [(0, 0x61)], head := 1, tail := 0 } [] with
    fg.pc := 1, uh.txReg := some 0x60 }

theorem finishedState_inv : finishedState.Inv :=
  inv_of _ .irqEnable (.inl rfl) (uart_busAt (by decide) rfl rfl rfl) (by decide) (by decide) (by decide) (by decide)
    (by decide)

/-! ### Witnesses: for every obligation with hypotheses, states and operands that meet them, clause by clause -/

theorem witness_SpellingIsMaskAndMatch :
    (⟨.BUS_WRITE, 0x12000000, 0xFF00FFFF⟩ : OpRow) ∈ opcodeMap ∧
    OpRow.Spells ⟨.BUS_WRITE, 0x12000000, 0xFF00FFFF⟩ 0x12FF0000 := by decide

theorem witness_ReservedBitsMustBeZero :
    opField 0x14000001 ∈ [0x14#8, 0x15, 0x22, 0x23, 0x24, 0x30, 0x31] ∧ opField 0x12FF0000 ∈ [0x12#8, 0x21] ∧
    opField 0x11800000 = 0x11 ∧ opField 0x136801FF = 0x13 ∧ opField 0x10FFFFFF ∈ [0x10#8, 0x20] := by decide

theorem witness_DecodeAndEncodeAgree : decodeWord 0x136800FF = .ok (.busRequestFrom 0x68 255) := by decide

theorem witness_ProgramsAreStoredLittleEndian : ([0x10000064, 0x31000000] : List Word)[1]? = some 0x31000000 := by decide

/-- The ends of each range, and the first number beyond it. -/
theorem witness_AssembledWordsDecode :
    (0xFFFFFF ≤ 0xFFFFFF ∧ 0xFFFFFF < 0x1000000) ∧ (0x7F ≤ 0x7F ∧ 0x7F < 0x80) ∧ (0xFF ≤ 0xFF ∧ 0xFF < 0x100) ∧
    (255 ≤ 255 ∧ 255 < 256) ∧
    ((List.replicate 63 0xFF).length < four.printBuf ∧ ∀ d ∈ List.replicate 63 0xFF, d ≤ 0xFF) ∧
    four.printBuf ≤ (List.replicate 64 0x41).length ∧ ([0x100].length < four.printBuf ∧ ∃ d ∈ [0x100], 0xFF < d) := by decide

theorem witness_StepRunsTheDecodedCommand :
    running (fresh 0x31000000 [.fg]) = true ∧ nextStep (fresh 0x31000000 [.fg]) = .fg ∧
    fetchWord (fresh 0x31000000 [.fg]) = some 0x31000000 ∧ decodeWord 0x31000000 = .ok .irqEnable := by decide

/-- The finished state with nothing left to do. -/
def quietState : State := { finishedState with ut.tx := ringEmpty, uh.txReg := none, uh.ctrl.udrie := false }

theorem quietState_inv : quietState.Inv :=
  inv_of _ .irqEnable (.inl rfl) (uart_busAt (by decide) rfl rfl rfl) (by decide) (by decide) (by decide) (by decide)
    (by decide)

theorem quietState_quiescent : quietState.quiescent := by
  refine ⟨⟨rfl, rfl, rfl⟩, fun a => ?_⟩
  cases a <;> rfl

theorem witness_ChoosingADisabledAgentChangesNothing :
    (onSched atS1 [.fg]).Inv ∧ running (onSched atS1 [.fg]) = true ∧ nextStep (onSched atS1 [.fg]) = .fg ∧
    enabled .fg (onSched atS1 [.fg]) = false ∧ quietState.Inv ∧ quietState.quiescent :=
  ⟨onSched_inv atS1_inv _, rfl, rfl, rfl, quietState_inv, quietState_quiescent⟩

theorem witness_UnspelledWordsAreRefused :
    let s := fresh 0x14000001 [.fg]
    running s = true ∧ nextStep s = .fg ∧ s.fg.ms = .fetch ∧ fetchWord s = some 0x14000001 ∧
    decodeWord 0x14000001 = .error (.reservedBits 0x14) ∧
    { s with refused := some 0 }.fault = none ∧ { s with refused := some 0 }.refused = some 0 := by decide

theorem witness_FaultsAreStickyAndWriteNothingElse :
    let s := fresh 0x14000000 [.fg]
    exec .busRead s = .next (s.withFault (.notStarted .bus .BUS_READ)) ∧
    (s.withFault (.notStarted .bus .BUS_READ)).fault ≠ s.fault ∧
    (s.withFault .receiveEmpty).fault = some { info := .receiveEmpty, index := 0 } :=
  ⟨rfl, by decide, rfl⟩

theorem witness_FetchRaisesTheTabulatedFault :
    let s := busState 0x14000000 .fetch .transferringR true .none 0 []
    s.fg.ms = .fetch ∧ faultAtFetch .busRead s = some (.protocolSequenceError .BUS_READ .transferringR 0) ∧
    faultAtFetch .busEndTx s = none := by decide

theorem witness_FaultsAreRaisedOnlyAtFetch :
    let s := fresh 0x14000000 [.fg]
    let t := (advance s).withFault (.notStarted .bus .BUS_READ)
    step s = .next t ∧ t.fault ≠ none :=
  ⟨rfl, by decide⟩

/-- Each guard of `BUS_BEGIN`, at a speed next to an accepted one, at the largest operand, and at each accepted one. -/
theorem witness_BusBeginSetsSpeedAndStarts :
    let off := busState 0x10000064 .fetch .off false .none 0 []
    let session := busState 0x10000064 .fetch .stopped true .none 0 []
    off.fg.ms = .fetch ∧ session.be.phase ∉ [Phase.off, .idle] ∧ off.be.phase ∈ [Phase.off, .idle] ∧
    (101#24).toNat ∉ off.params.busSpeeds ∧ (0xFFFFFF#24).toNat ∉ off.params.busSpeeds ∧ off.params.wf ∧
    ((100#24).toNat, 72) ∈ off.params.busDivisor ∧ ((250#24).toNat, 24) ∈ off.params.busDivisor ∧
    ((400#24).toNat, 12) ∈ off.params.busDivisor := by decide

theorem witness_BusBeginTxAddressesForWriting :
    let at' := fun ms ph int => busState 0x11500000 ms ph int .none 0
      [.fg, .busComplete 1 2, .fg, .fg, .fg, .busComplete 3 4, .fg]
    (at' .fetch .off false).be.phase = .off ∧ (at' .fetch .stopped true).be.phase ∉ [Phase.off, .idle] ∧
    (at' .bt1 .idle false).bh.int = false ∧ (at' .bt1 .idle true).bh.int = true ∧ (at' .bt2 .started true).fg.ms = .bt2 ∧
    (at' .bt3 .started true).fg.ms = .bt3 ∧ (at' .bt4 .started true).fg.ms = .bt4 ∧
    7 ≤ four.addrWidth ∧
    (running (at' .fetch .idle false) = true ∧ (at' .fetch .idle false).fg.ms = .fetch ∧
      (at' .fetch .idle false).be.phase = .idle ∧ currentInstr (at' .fetch .idle false) = some (.busBeginTx 0x50) ∧
      (at' .fetch .idle false).sched = [.fg, .busComplete 1 2, .fg, .fg, .fg, .busComplete 3 4, .fg] ++ []) :=
  ⟨rfl, by decide, rfl, rfl, rfl, rfl, rfl, by decide, rfl, rfl, rfl, by decide, rfl⟩

theorem witness_BusWriteSendsTheByte :
    let at' := fun ms ph int => busState 0x12A50000 ms ph int .none 0 [.fg, .fg, .busComplete 1 2, .fg]
    (at' .fetch .off false).be.phase = .off ∧ (at' .fetch .idle true).be.phase ∉ [Phase.off, .addressedW, .transferringW] ∧
    (at' .w1 .addressedW true).fg.ms = .w1 ∧ (at' .w2 .addressedW false).bh.int = false ∧
    (at' .w2 .addressedW true).bh.int = true ∧
    (running (at' .fetch .transferringW true) = true ∧ (at' .fetch .transferringW true).fg.ms = .fetch ∧
      (at' .fetch .transferringW true).be.phase ∈ [Phase.addressedW, .transferringW] ∧
      currentInstr (at' .fetch .transferringW true) = some (.busWrite 0xA5) ∧
      (at' .fetch .transferringW true).sched = [.fg, .fg, .busComplete 1 2, .fg] ++ []) :=
  ⟨rfl, by decide, rfl, rfl, rfl, rfl, rfl, by decide, by decide, rfl⟩

theorem witness_BusRequestFromAddressesForReading :
    let at' := fun ms ph int => busState 0x13680000 ms ph int .none 0
      [.fg, .busComplete 1 2, .fg, .fg, .fg, .busComplete 3 4, .fg]
    (at' .fetch .off false).be.phase = .off ∧ (at' .fetch .started true).be.phase ∉ [Phase.off, .idle] ∧
    (at' .rq1 .idle false).bh.int = false ∧ (at' .rq1 .idle true).bh.int = true ∧ (at' .rq2 .started true).fg.ms = .rq2 ∧
    (at' .rq3 .started true).fg.ms = .rq3 ∧ (at' .rq4 .started true).fg.ms = .rq4 ∧
    8 ≤ four.countWidth ∧
    (running (at' .fetch .idle false) = true ∧ (at' .fetch .idle false).fg.ms = .fetch ∧
      (at' .fetch .idle false).be.phase = .idle ∧ currentInstr (at' .fetch .idle false) = some (.busRequestFrom 0x68 0) ∧
      (at' .fetch .idle false).sched = [.fg, .busComplete 1 2, .fg, .fg, .fg, .busComplete 3 4, .fg] ++ []) :=
  ⟨rfl, by decide, rfl, rfl, rfl, rfl, rfl, by decide, rfl, rfl, rfl, by decide, rfl⟩

theorem witness_BusReadCountsDownAndReturnsTheByte :
    let at' := fun ms ph remaining => busState 0x14000000 ms ph true .none remaining [.fg, .fg, .busComplete 1 2, .fg]
    (at' .fetch .off 0).be.phase = .off ∧ (at' .fetch .addressedW 1).be.phase ∉ [Phase.addressedR, .transferringR] ∧
    (at' .fetch .transferringR 0).be.remaining = 0 ∧ (at' .d1 .addressedR 0).fg.ms = .d1 ∧
    (at' .d2 .addressedR 0).bh.int = true ∧
    (let s := busState 0x14000000 .d2 .addressedR false (.rxData false) 0 []
     s.fg.ms = .d2 ∧ s.bh.int = false) ∧
    (running (at' .fetch .addressedR 1) = true ∧ (at' .fetch .addressedR 1).fg.ms = .fetch ∧
      (at' .fetch .addressedR 1).be.phase ∈ [Phase.addressedR, .transferringR] ∧
      (at' .fetch .addressedR 1).be.remaining ≠ 0 ∧ currentInstr (at' .fetch .addressedR 1) = some .busRead ∧
      (at' .fetch .addressedR 1).sched = [.fg, .fg, .busComplete 1 2, .fg] ++ []) := by decide

theorem witness_BusEndTxStopsTheSession :
    let at' := fun ms ph => busState 0x15000000 ms ph true .none 2 [.fg, .busStopDone 3, .fg]
    (at' .fetch .off).be.phase = .off ∧
    (at' .fetch .idle).be.phase ∉ [Phase.off, .addressedW, .addressedR, .transferringW, .transferringR] ∧
    atE1.bh.ctrl.sto = true ∧ (at' .e1 .stopped).bh.ctrl.sto = false ∧
    (running (at' .fetch .addressedR) = true ∧ (at' .fetch .addressedR).fg.ms = .fetch ∧
      (at' .fetch .addressedR).be.phase ∈ [Phase.addressedW, .addressedR, .transferringW, .transferringR] ∧
      currentInstr (at' .fetch .addressedR) = some .busEndTx ∧
      (at' .fetch .addressedR).sched = [.fg, .busStopDone 3, .fg] ++ []) := by decide

/-- Two reads of a session of count 2, and the read after it. -/
theorem witness_ReadSessionAcknowledgesAllButTheLast :
    let ds : List (Byte × Byte) := [(0x12, 0), (0x34, 0)]
    let first : List AgentStep := [.fg, .busComplete 1 2, .fg, .fg, .fg, .busComplete 3 4, .fg]
    let s := { busState 0x13680002 .fetch .idle false .none 0 (first ++ readSchedule ds ++ .fg :: []) with
      program := [0x13680002, 0x14000000, 0x14000000, 0x14000000] }
    running s = true ∧ s.fg.ms = .fetch ∧ s.be.phase = .idle ∧ ds.length < 256 ∧ ds.length < 2 ^ s.params.countWidth ∧
    currentInstr s = some (.busRequestFrom 0x68 (BitVec.ofNat 8 ds.length)) ∧
    (∀ k, k ≤ ds.length → s.program[s.fg.pc + 1 + k]? = some 0x14000000) ∧
    s.sched = first ++ readSchedule ds ++ .fg :: [] := by
  refine ⟨rfl, rfl, rfl, by decide, by decide, by decide, fun k hk => ?_, rfl⟩
  have : k ≤ 2 := hk
  interval_cases k <;> rfl

theorem witness_UartBeginResetsAndEnables :
    let s := fresh 0x20002580 [.fg, .fg, .fg, .fg]
    s.fg.ms = .fetch ∧ (0#24).toNat ∉ s.params.uartDivisor.map Prod.fst ∧
    (9600#24).toNat ∈ s.params.uartDivisor.map Prod.fst ∧ { s with fg.ms := .u1 }.params.wf ∧
    ((9600#24).toNat, 103) ∈ s.params.uartDivisor ∧ running s = true ∧ currentInstr s = some (.uartBegin 9600) ∧
    s.sched = [.fg, .fg, .fg, .fg] ++ [] :=
  ⟨rfl, by decide, by decide, by decide, by decide, rfl, by decide, rfl⟩

theorem uartState_shaped (w : Word) (sched : List AgentStep) (rx tx : Ring) (hrx : RingChecks 4 rx) (htx : RingChecks 4 tx) :
    (uartState w .fetch rx tx sched).Shaped :=
  ⟨by simp only [uartState, fresh, State.launch]; decide, hrx, htx, Nat.zero_le _, by
    simp only [uartState, fresh, State.launch]; decide, by simp only [uartState, fresh, State.launch]; decide, by
    simp only [uartState, fresh, State.launch]; decide, by simp only [uartState, fresh, State.launch]; decide⟩

theorem witness_UartSendStoresPublishesEnables :
    let s := uartState 0x21610000 .fetch ringEmpty ringTwo [.fg, .fg, .fg, .fg, .fg]
    (fresh 0x21610000 []).ut.started = false ∧ s.ut.started = true ∧
    (atS1.fg.n = some 0 ∧ atS1.fg.ms = .s1 ∧ (0 : Idx) = atS1.ut.tx.tail) ∧ (1 : Idx) ≠ atS1.ut.tx.tail ∧
    (atS3.ut.tx.head.toNat < atS3.params.capTx ∧ atS3.fg.n = some 2 ∧ atS3.fg.ms = .s3) ∧
    (s.Shaped ∧ running s = true ∧ s.fg.ms = .fetch ∧ s.ut.tx.isFull (maskTx s.params) = false ∧
      currentInstr s = some (.uartSend 0x61) ∧ s.sched = [.fg, .fg, .fg, .fg, .fg] ++ []) :=
  ⟨rfl, rfl, ⟨rfl, rfl, rfl⟩, by decide, ⟨by decide, rfl, rfl⟩,
    ⟨uartState_shaped _ _ _ _ (by decide) (by decide), rfl, rfl, rfl, by decide, rfl⟩⟩

theorem witness_UartAvailableCountsAtomically :
    let s := uartState 0x22000000 .fetch ringTwo ringEmpty []
    s.fg.ms = .fetch ∧ (fresh 0x22000000 []).ut.started = false ∧ s.ut.started = true ∧ s.Shaped :=
  ⟨rfl, rfl, rfl, uartState_shaped _ _ _ _ (by decide) (by decide)⟩

theorem witness_UartReceiveReturnsTheOldestByte :
    let s := uartState 0x23000000 .fetch ringTwo ringEmpty [.fg, .fg, .fg]
    let e := uartState 0x23000000 .fetch ringEmpty ringEmpty []
    (fresh 0x23000000 []).ut.started = false ∧ (e.ut.started = true ∧ e.ut.rx.head = e.ut.rx.tail) ∧
    { s with fg.ms := .v1 }.ut.rx.tail.toNat < s.params.capRx ∧ (atV2.fg.b = some 0x0A ∧ atV2.fg.ms = .v2) ∧
    (s.Shaped ∧ running s = true ∧ s.fg.ms = .fetch ∧ s.ut.started = true ∧ s.ut.rx.head ≠ s.ut.rx.tail ∧
      currentInstr s = some .uartReceive ∧ s.sched = [.fg, .fg, .fg] ++ []) :=
  ⟨rfl, ⟨rfl, rfl⟩, by decide, ⟨rfl, rfl⟩,
    ⟨uartState_shaped _ _ _ _ (by decide) (by decide), rfl, rfl, rfl, by decide, by decide, rfl⟩⟩

theorem witness_UartFlushDiscardsTheSnapshot :
    let s := uartState 0x24000000 .fetch ringTwo ringEmpty [.fg, .fg]
    let f := { uartState 0x24000000 .f1 ringTwo ringEmpty [] with fg.h := some 0 }
    (fresh 0x24000000 []).ut.started = false ∧ (f.fg.h = some 0 ∧ f.fg.ms = .f1) ∧
    (running s = true ∧ s.fg.ms = .fetch ∧ s.ut.started = true ∧ currentInstr s = some .uartFlush ∧
      s.sched = [.fg, .fg] ++ []) := by decide

theorem witness_IrqCommandsWriteGie :
    (fresh 0x30000000 []).fg.ms = .fetch ∧ (fresh 0x30000000 []).gie = false ∧ AgentStep.txShift ≠ .isrRx ∧
    AgentStep.txShift ≠ .isrTx := by decide

/-- One state for each phase in flight. -/
theorem witness_BusCompletionSetsTheEdge :
    let at' := fun p => busState 0x14000000 .d2 .addressedR false p 1 [.busComplete 0x12 0x50]
    ∀ p ∈ [Pending.start, .addr, .txData, .rxData true, .rxData false],
      (at' p).bh.pending = p ∧ nextStep (at' p) = .busComplete 0x12 0x50 ∧
      enabled (.busComplete 0x12 0x50) (at' p) = true := by decide

theorem witness_StopCompletionClearsSto :
    nextStep (onSched atE1 [.busStopDone 3]) = .busStopDone 3 ∧ enabled (.busStopDone 3) (onSched atE1 [.busStopDone 3]) = true := by
  decide

/-- Below the depth and at it, the receiver disabled, and a full transmit register. -/
theorem witness_UartHardwareMovesBytes :
    let s := onSched atFetch [.rxArrive]
    let full := { s with uh.rxFifo := [1, 2] }
    let off := { fresh 0x14000000 [.rxDrop] with wire.rxIn := [7] }
    let sh := onSched finishedState [.txShift]
    (nextStep s = .rxArrive ∧ enabled .rxArrive s = true ∧ s.wire.rxIn = 0x0D :: [] ∧
      s.uh.rxFifo.length < s.params.rxHwDepth) ∧
    (enabled .rxArrive full = true ∧ full.params.rxHwDepth ≤ full.uh.rxFifo.length) ∧
    (nextStep off = .rxDrop ∧ enabled .rxDrop off = true ∧ off.wire.rxIn = 7 :: []) ∧
    (nextStep sh = .txShift ∧ enabled .txShift sh = true ∧ sh.uh.txReg = some 0x60) := by decide

/-- With room, full under `DROP_NEW`, full under `WRAP`. -/
theorem witness_ReceiveHandlerStoresOrCounts :
    let s := onSched atFetch [.isrRx]
    let full := { s with ut.rx := ringFull }
    let dropping := { full with params.rxPolicy := .dropNew }
    (nextStep s = .isrRx ∧ enabled .isrRx s = true ∧ s.uh.rxFifo = 0x0C :: [] ∧ s.ut.rx.head.toNat < s.params.capRx ∧
      nextIdx (maskRx s.params) s.ut.rx.head ≠ s.ut.rx.tail) ∧
    (nextIdx (maskRx full.params) full.ut.rx.head = full.ut.rx.tail ∧ full.ut.rx.head.toNat < full.params.capRx ∧
      enabled .isrRx full = true ∧ full.params.rxPolicy = .wrap) ∧
    (enabled .isrRx dropping = true ∧ dropping.params.rxPolicy = .dropNew) := by decide

theorem witness_TransmitHandlerSendsOrDisables :
    let s := onSched atFetch [.isrTx]
    let e := { s with ut.tx := ringEmpty }
    (nextStep s = .isrTx ∧ enabled .isrTx s = true ∧ s.ut.tx.head ≠ s.ut.tx.tail ∧ s.ut.tx.tail.toNat < s.params.capTx) ∧
    (nextStep e = .isrTx ∧ enabled .isrTx e = true ∧ e.ut.tx.head = e.ut.tx.tail) := by decide

/-- A full ring of three bytes with two more bytes waiting, under each policy. -/
theorem witness_OverflowPoliciesLoseWhatTheySay :
    let s := { uartState 0x14000000 .fetch ringFull ringEmpty [] with uh.rxFifo := [4, 5] }
    let d := { s with params.rxPolicy := .dropNew }
    (s.Shaped ∧ s.params.rxPolicy = .wrap ∧ rxc s = true ∧ (s.ut.rx.count (maskRx s.params)).toNat = s.params.capRx - 1) ∧
    (d.params.rxPolicy = .dropNew ∧ d.uh.rxFifo = 4 :: [5] ∧ rxFull d = true) ∧
    (∃ t, isrRx s = .next t ∧ t.uh.rxFifo = 5 :: []) := by
  refine ⟨⟨⟨?_, ?_, ?_, ?_, ?_, ?_, ?_, ?_⟩, rfl, rfl, by decide⟩, ⟨rfl, rfl, by decide⟩, ⟨_, rfl, rfl⟩⟩
  · show Config.Params.wf four; decide
  · show RingChecks 4 ringFull; decide
  · show RingChecks 4 ringEmpty; decide
  all_goals decide

theorem witness_HandlersCommute :
    atFetch.Shaped ∧ enabled .isrRx atFetch = true ∧ enabled .isrTx atFetch = true := ⟨atFetch_inv.1, rfl, rfl⟩

theorem witness_HandlersNeverFault : atFetch.Shaped ∧ enabled .isrRx atFetch = true ∧ enabled .isrTx atFetch = true :=
  witness_HandlersCommute

theorem witness_HandlersWriteOnlyTheirOwnDirection :
    (∃ t, step (onSched atFetch [.isrRx]) = .next t ∧ nextStep (onSched atFetch [.isrRx]) = .isrRx) ∧
    (∃ t, step (onSched atFetch [.isrTx]) = .next t ∧ nextStep (onSched atFetch [.isrTx]) = .isrTx) :=
  ⟨⟨_, rfl, rfl⟩, ⟨_, rfl, rfl⟩⟩

theorem witness_BusControlWriteTriggers :
    BusField.INT ∉ [BusField.EN] ∧ (BusField.INT ∈ [BusField.INT, .STA, .EN] ∧ BusField.STA ∈ [BusField.INT, .STA, .EN]) ∧
    (BusField.STA ∉ [BusField.INT, .STO, .EN] ∧ BusField.STO ∈ [BusField.INT, .STO, .EN]) ∧
    (BusField.STA ∉ [BusField.INT, .ACK, .EN] ∧ BusField.STO ∉ [BusField.INT, .ACK, .EN]) := by decide

/-- The largest and the smallest capacity, the indices at the last slot. -/
theorem witness_RingArithmeticIsModuloCapacity :
    (CapacityOk 256 ∧ 256 ≤ 2 ^ 8 ∧ (255 : Idx).toNat < 256 ∧ (0 : Idx).toNat < 256) ∧
    (CapacityOk 2 ∧ 2 ≤ 2 ^ 1 ∧ (1 : Idx).toNat < 2) := by decide

theorem witness_BootSequenceStartsBothUnits :
    let l := { Launch.plain with program := [0x10000064, 0x20002580, 0x31000000], sched := [.fg, .fg, .fg, .fg, .fg, .fg] }
    l.program = 0x10000064 :: 0x20002580 :: 0x31000000 :: [] ∧ 100 ∈ l.params.busSpeeds ∧ 9600 ∈ l.params.uartDivisor.map Prod.fst ∧
    l.sched = [.fg, .fg, .fg, .fg, .fg, .fg] ++ [] :=
  ⟨rfl, by decide, by decide, rfl⟩

theorem witness_LaunchMeetsTheInvariants : Launch.plain.wf :=
  ⟨by simp only [Launch.plain]; decide, by simp only [Launch.plain]; decide, by simp only [Launch.plain]; decide, by
    simp only [Launch.plain]; decide⟩

theorem reset_inv : State.reset.Inv :=
  inv_of _ .busRead (.inl rfl) (uart_busAt (by decide) rfl rfl rfl) (by decide) (by decide) (by decide) (by decide) (by decide)

/-- A state that meets every invariant, and a step of each kind of agent from such a state. -/
theorem witness_steps_from_Inv :
    ((onSched atBt1 [.busComplete 1 2]).Inv ∧ ∃ t, step (onSched atBt1 [.busComplete 1 2]) = .next t) ∧
    ((onSched atE1 [.busStopDone 3]).Inv ∧ ∃ t, step (onSched atE1 [.busStopDone 3]) = .next t) ∧
    ((onSched atS3 [.fg]).Inv ∧ ∃ t, step (onSched atS3 [.fg]) = .next t) ∧
    ((onSched atU2 [.fg]).Inv ∧ ∃ t, step (onSched atU2 [.fg]) = .next t) ∧
    ((onSched atFetch [.isrRx]).Inv ∧ ∃ t, step (onSched atFetch [.isrRx]) = .next t) ∧
    ((onSched atFetch [.isrTx]).Inv ∧ ∃ t, step (onSched atFetch [.isrTx]) = .next t) :=
  ⟨⟨onSched_inv atBt1_inv _, _, rfl⟩, ⟨onSched_inv atE1_inv _, _, rfl⟩, ⟨onSched_inv atS3_inv _, _, rfl⟩,
    ⟨onSched_inv atU2_inv _, _, rfl⟩, ⟨onSched_inv atFetch_inv _, _, rfl⟩, ⟨onSched_inv atFetch_inv _, _, rfl⟩⟩

theorem witness_StepsKeepTheShape : (onSched atS3 [.fg]).Inv ∧ ∃ t, step (onSched atS3 [.fg]) = .next t :=
  witness_steps_from_Inv.2.2.1

theorem witness_StepsKeepTheBusSession : (onSched atE1 [.busStopDone 3]).Inv ∧ ∃ t, step (onSched atE1 [.busStopDone 3]) = .next t :=
  witness_steps_from_Inv.2.1

/-- The pump's three clauses: an invariant state, S4 of a `send`, and the self-disabling handler. -/
theorem witness_StepsKeepThePump :
    (∃ t, step (onSched atFetch [.isrTx]) = .next t) ∧
    (let s := uartState 0x21610000 .s4 ringEmpty ringTwo []
     s.fg.ms = .s4 ∧ ∃ t, exec (.uartSend 0x61) s = .next t) ∧
    (let s := { onSched atFetch [.isrTx] with ut.tx := ringEmpty }
     s.uh.ctrl.udrie = true ∧ ∃ t, step s = .next t ∧ t.uh.ctrl.udrie = false) :=
  ⟨⟨_, rfl⟩, ⟨rfl, _, rfl⟩, ⟨rfl, _, rfl, rfl⟩⟩

theorem witness_StepsKeepTheStartDiscipline : (onSched atU2 [.fg]).Inv ∧ ∃ t, step (onSched atU2 [.fg]) = .next t :=
  witness_steps_from_Inv.2.2.2.1

theorem witness_InvariantStatesAlwaysStep : atV2.Inv ∧ running atV2 = true := ⟨atV2_inv, rfl⟩

/-- A step inside an operation, the end of one, a one-micro-step operation, and a finished foreground. -/
theorem witness_PcAdvancesByOneOrStays :
    (∃ t, step (onSched atV2 [.fg]) = .next t ∧ (onSched atV2 [.fg]).fg.ms ≠ .fetch ∧ t.fg.ms = .fetch) ∧
    (let s := fresh 0x31000000 [.fg]
     nextStep s = .fg ∧ s.fg.ms = .fetch ∧ currentInstr s = some .irqEnable ∧
      ∃ t, step s = .next t ∧ t.fg.ms = .fetch ∧ t.fault = none) ∧
    (let s := onSched finishedState [.fg]
     running s = true ∧ s.fg.pc = s.program.length ∧ nextStep s = .fg) :=
  ⟨⟨_, rfl, by decide, rfl⟩, ⟨rfl, rfl, by decide, _, rfl, rfl, rfl⟩, ⟨rfl, rfl, rfl⟩⟩

theorem witness_ProgramAndParametersNeverChange : ∃ t, step (onSched atS3 [.fg]) = .next t := ⟨_, rfl⟩

/-- A step that writes each index. -/
theorem witness_EachRingIndexHasOneWriter :
    (∃ t, step (onSched atFetch [.isrRx]) = .next t ∧ t.ut.rx.head ≠ atFetch.ut.rx.head) ∧
    (∃ t, step (onSched atV2 [.fg]) = .next t ∧ t.ut.rx.tail ≠ atV2.ut.rx.tail) ∧
    (∃ t, step (onSched atS3 [.fg]) = .next t ∧ t.ut.tx.head ≠ atS3.ut.tx.head) ∧
    (∃ t, step (onSched atFetch [.isrTx]) = .next t ∧ t.ut.tx.tail ≠ atFetch.ut.tx.tail) ∧ resetsRings (onSched atU2 [.fg]) :=
  ⟨⟨_, rfl, by decide⟩, ⟨_, rfl, by decide⟩, ⟨_, rfl, by decide⟩, ⟨_, rfl, by decide⟩, ⟨rfl, rfl⟩⟩

theorem witness_OperationsStoreOnlyAtTheTransmitHead :
    let s := { atS1 with fg.ms := .s2 }
    s.Shaped ∧ (∃ t, exec (.uartSend 0x64) s = .next t) ∧ s.fg.ms = .s2 ∧ (∃ t, exec .uartFlush atFetch = .next t) ∧
    ¬((∃ d, Instr.uartFlush = .uartSend d) ∧ atFetch.fg.ms = .s2) := by
  refine ⟨?_, ⟨_, rfl⟩, rfl, ⟨_, rfl⟩, ?_⟩
  · have h := atS1_inv.1
    exact ⟨h.1, h.2, h.3, h.4, h.5, h.6, h.7, h.8⟩
  · rintro ⟨⟨d, h⟩, -⟩
    cases h

theorem witness_OtherAgentsStoreOnlyAtTheReceiveHead :
    atFetch.Shaped ∧ AgentStep.isrRx ≠ .fg ∧
    ∃ t, agentStep .isrRx atFetch = .next t ∧ t.ut.rx.head ≠ atFetch.ut.rx.head :=
  ⟨atFetch_inv.1, by decide, _, rfl, by decide⟩

theorem witness_UnitsLeaveEachOtherAlone :
    (isBusOp .busRead ∧ ∃ t, exec .busRead atFetch = .next t) ∧
    (isTransportOp .uartReceive ∧ ∃ t, exec .uartReceive atFetch = .next t) :=
  ⟨⟨trivial, _, rfl⟩, ⟨trivial, _, rfl⟩⟩

theorem witness_BusOperationsIgnoreGie :
    isBusOp .busRead ∧ (∃ t, exec .busRead atFetch = .next t) ∧ ∃ f, exec .busRead { atFetch with fg.ms := .bt1 } = .fault f :=
  ⟨trivial, ⟨_, rfl⟩, ⟨_, rfl⟩⟩

/-- Two states that differ in `BUS_STATUS` and the results, each going on, faulted and refused. -/
theorem witness_UnreadStateIsNeverRead :
    let s := onSched atFetch [.isrRx]
    let t := { s with bh.status := 7, fg.results := [1] }
    SameButUnread s t ∧ (∃ u, step s = .next u) ∧
    (let f := { s with fault := some { info := .receiveEmpty, index := 0 } }
     SameButUnread f f ∧ ∃ e, step f = .fault e) ∧
    (let r := { s with refused := some 0 }
     SameButUnread r r ∧ ∃ e, step r = .refused e) :=
  ⟨rfl, ⟨_, rfl⟩, ⟨rfl, _, rfl⟩, ⟨rfl, _, rfl⟩⟩

theorem witness_ObservationsOnlyGrow : ∃ t, step (onSched finishedState [.txShift]) = .next t ∧ t.wire.txOut = [0x60] :=
  ⟨_, rfl, rfl⟩

/-- BT1 on its completion edge opens a session; E1 on a cleared `STO` closes one; FETCH in an open one. -/
theorem witness_SessionsOpenOnlyFromIdle :
    (let s := { atBt1 with bh.int := true, bh.pending := .none, sched := [.fg] }
     s.Inv ∧ ¬s.be.phase.sessionOpen ∧ ∃ t, step s = .next t ∧ t.be.phase.sessionOpen) ∧
    (let s := { atE1 with bh.ctrl.sto := false, bh.pending := .none, sched := [.fg] }
     s.Inv ∧ s.be.phase.sessionOpen ∧ ∃ t, step s = .next t ∧ ¬t.be.phase.sessionOpen) ∧
    (let s := busState 0x11500000 .fetch .addressedW true .none 0 []
     s.fg.ms = .fetch ∧ s.be.phase.sessionOpen) := by
  refine ⟨⟨?_, by simp [atBt1, busState, Phase.sessionOpen], _, rfl, ?_⟩,
    ⟨?_, by simp [atE1, busState, Phase.sessionOpen], _, rfl, ?_⟩, rfl, by simp [busState, Phase.sessionOpen]⟩
  · exact inv_of _ (.busBeginTx 0x50) (.inr (by decide)) (show _ ∧ _ from ⟨rfl, .inr ⟨rfl, rfl⟩⟩) (by decide)
      (by decide) (by decide) (by decide) (by decide)
  · show Phase.sessionOpen .started
    simp [Phase.sessionOpen]
  · exact inv_of _ .busEndTx (.inr (by decide)) (show _ ∧ _ from ⟨rfl, rfl, .inr rfl⟩) (by decide) (by decide)
      (by decide) (by decide) (by decide)
  · show ¬Phase.sessionOpen .idle
    simp [Phase.sessionOpen]

/-- A publishing step, an index reset, and a step that is neither. -/
theorem witness_TransmitPathIsFifo :
    ((onSched atS3 [.fg]).Inv ∧ publishes (onSched atS3 [.fg]) = some 0x61 ∧ ∃ t, step (onSched atS3 [.fg]) = .next t) ∧
    ((onSched atU2 [.fg]).Inv ∧ resetsRings (onSched atU2 [.fg]) ∧ ∃ t, step (onSched atU2 [.fg]) = .next t) ∧
    ((onSched atFetch [.isrTx]).Inv ∧ publishes (onSched atFetch [.isrTx]) = none ∧
      ¬resetsRings (onSched atFetch [.isrTx]) ∧ ∃ t, step (onSched atFetch [.isrTx]) = .next t) :=
  ⟨⟨onSched_inv atS3_inv _, by decide, _, rfl⟩, ⟨onSched_inv atU2_inv _, ⟨rfl, rfl⟩, _, rfl⟩,
    ⟨onSched_inv atFetch_inv _, by decide, fun h => absurd h.1 (by decide), _, rfl⟩⟩

/-- The dequeue, and a storing handler step. -/
theorem witness_ReceivePathIsFifo :
    (let s := onSched atV2 [.fg]
     s.Inv ∧ s.CaptureOk ∧ ¬overflows s ∧ ¬discardsReceived s ∧ dequeues s ∧
      ∃ t, step s = .next t ∧ t.uh.hwOvr = s.uh.hwOvr) ∧
    (let s := onSched atFetch [.isrRx]
     s.Inv ∧ s.CaptureOk ∧ ¬overflows s ∧ ¬discardsReceived s ∧ ¬dequeues s ∧
      ∃ t, step s = .next t ∧ t.uh.hwOvr = s.uh.hwOvr) := by
  refine ⟨⟨onSched_inv atV2_inv _, ⟨fun _ => rfl, fun _ => rfl⟩, fun h => absurd h.1 (by decide), ?_, ⟨rfl, rfl⟩, _, rfl, rfl⟩,
    ⟨onSched_inv atFetch_inv _, ⟨fun _ => rfl, fun h => absurd h (by decide)⟩, fun h => absurd h.2.2 (by decide),
      fun h => absurd h.1 (by decide), fun h => absurd h.1 (by decide), _, rfl, rfl⟩⟩
  rintro ⟨-, h | h | ⟨h, -⟩⟩ <;> exact absurd h (by decide)

/-! ### Witnesses of the statements about infinite runs -/

/-- The run of the machine from a state, standing still where it stops. -/
def runFrom (s : State) : Nat → State
  | 0 => s
  | k + 1 =>
    match step (runFrom s k) with
    | .next t => t
    | .fault _ => runFrom s k
    | .refused _ => runFrom s k

/-- A state in which every agent's step changes nothing, at a tick. -/
def Settled (q : State) : Prop := q.sched = [] ∧ running q = true ∧ ∀ n a, agentStep a { q with tick := n } = .next { q with tick := n }

/-- A run that reaches a settled state is a run for ever, and stays there but for the tick. -/
theorem runFrom_settles {s q : State} {m : Nat} (hs : runFrom s m = q) (hrun : ∀ k < m, ∃ t, step (runFrom s k) = .next t)
    (hq : Settled q) :
    IsRun (runFrom s) ∧ ∀ j, runFrom s (m + j) = { q with tick := q.tick + j } := by
  obtain ⟨h1, h2, h3⟩ := hq
  have hstep : ∀ n, step { q with tick := n } = .next { q with tick := n + 1 } := by
    intro n
    rw [step_of_running (s := { q with tick := n }) h2]
    have : advance { q with tick := n } = { q with tick := n + 1 } := by
      simp [advance, h1]
    rw [this]
    exact h3 _ _
  have hall : ∀ j, runFrom s (m + j) = { q with tick := q.tick + j } := by
    intro j
    induction j with
    | zero => rw [Nat.add_zero, hs]; rfl
    | succ j ih =>
      rw [← Nat.add_assoc]
      show (match step (runFrom s (m + j)) with | .next t => t | .fault _ => _ | .refused _ => _) = _
      rw [ih, hstep]
      rfl
  refine ⟨fun k => ?_, hall⟩
  by_cases hk : k < m
  · obtain ⟨t, ht⟩ := hrun k hk
    show _ = Host.Outcome.next (match step (runFrom s k) with | .next t => t | .fault _ => _ | .refused _ => _)
    rw [ht]
  · obtain ⟨j, rfl⟩ := Nat.exists_eq_add_of_le (Nat.le_of_not_lt hk)
    rw [hall, hstep]
    exact congrArg _ (hall (j + 1)).symm

/-- A run that settles where nothing of a set is enabled is fair for the set. -/
theorem settled_fair {s q : State} {m : Nat} (hs : runFrom s m = q) (hrun : ∀ k < m, ∃ t, step (runFrom s k) = .next t)
    (hq : Settled q) (which : AgentStep → Prop) (hno : ∀ n a, which a → enabled a { q with tick := n } = false) :
    WeaklyFair which (runFrom s) := by
  intro k h
  obtain ⟨a, ha, he⟩ := h (m + k) (by omega)
  rw [(runFrom_settles hs hrun hq).2 k, hno _ _ ha] at he
  cases he

/-- E1 with the STOP completing at once, then the program finished. -/
theorem witness_ResponsiveBusEndsEveryHold :
    let r := runFrom (onSched atE1 [.busStopDone 3, .fg])
    IsRun r ∧ BusResponsive r ∧ (r 0).Inv ∧ heldOnBus (r 0) := by
  have hq : Settled (runFrom (onSched atE1 [.busStopDone 3, .fg]) 2) := by
    refine ⟨rfl, rfl, fun n a => ?_⟩
    cases a <;> rfl
  have hrun : ∀ k < 2, ∃ t, step (runFrom (onSched atE1 [.busStopDone 3, .fg]) k) = .next t := by
    intro k hk
    interval_cases k <;> exact ⟨_, rfl⟩
  refine ⟨(runFrom_settles rfl hrun hq).1, settled_fair rfl hrun hq _ fun n a ha => ?_, onSched_inv atE1_inv _, ?_⟩
  · cases a <;> rfl
  · exact ⟨by decide, rfl⟩

/-- The held `send`, then the finished program, each drained by its handlers at once. -/
theorem witness_FairUartEndsTheSendHoldAndDrains :
    (let r := runFrom (onSched atS1
        [.isrTx, .fg, .fg, .fg, .fg, .txShift, .isrTx, .txShift, .isrTx, .txShift, .isrTx, .txShift, .isrTx])
     IsRun r ∧ UartFair r ∧ (r 0).Inv ∧ heldOnSend (r 0) ∧ (r 0).gie = true) ∧
    (let r := runFrom (onSched finishedState [.txShift, .isrTx, .txShift, .isrTx])
     IsRun r ∧ UartFair r ∧ (r 0).Inv ∧ (r 0).finished ∧ (r 0).ut.started = true ∧ (r 0).gie = true) := by
  constructor
  · have hq : Settled (runFrom (onSched atS1
        [.isrTx, .fg, .fg, .fg, .fg, .txShift, .isrTx, .txShift, .isrTx, .txShift, .isrTx, .txShift, .isrTx]) 13) := by
      refine ⟨rfl, rfl, fun n a => ?_⟩
      cases a <;> rfl
    have hrun : ∀ k < 13, ∃ t, step (runFrom (onSched atS1
        [.isrTx, .fg, .fg, .fg, .fg, .txShift, .isrTx, .txShift, .isrTx, .txShift, .isrTx, .txShift, .isrTx]) k) = .next t := by
      intro k hk
      interval_cases k <;> exact ⟨_, rfl⟩
    refine ⟨(runFrom_settles rfl hrun hq).1, ⟨?_, ?_, ?_⟩, onSched_inv atS1_inv _, ⟨rfl, rfl⟩, rfl⟩
    all_goals exact settled_fair rfl hrun hq _ fun n a ha => by subst ha; rfl
  · have hq : Settled (runFrom (onSched finishedState [.txShift, .isrTx, .txShift, .isrTx]) 4) := by
      refine ⟨rfl, rfl, fun n a => ?_⟩
      cases a <;> rfl
    have hrun : ∀ k < 4, ∃ t, step (runFrom (onSched finishedState [.txShift, .isrTx, .txShift, .isrTx]) k) = .next t := by
      intro k hk
      interval_cases k <;> exact ⟨_, rfl⟩
    refine ⟨(runFrom_settles rfl hrun hq).1, ⟨?_, ?_, ?_⟩, onSched_inv finishedState_inv _, ⟨rfl, rfl, rfl⟩, rfl, rfl⟩
    all_goals exact settled_fair rfl hrun hq _ fun n a ha => by subst ha; rfl

/-- Held on the bus while others move; held on a full ring; and held for ever with interrupts disabled. -/
theorem witness_WaitsEndOnlyByTheirOwnAgent :
    (let s := onSched atBt1 [.rxDrop, .isrTx]
     s.Inv ∧ heldOnBus s ∧ (∃ t, step s = .next t) ∧ ¬isBusHw (nextStep s) ∧ running s = true ∧
      s.sched = [.rxDrop, .isrTx] ++ [] ∧ ∀ a ∈ [AgentStep.rxDrop, .isrTx], ¬isBusHw a) ∧
    (let s := onSched atS1 [.fg]
     s.Inv ∧ heldOnSend s ∧ (∃ t, step s = .next t) ∧ nextStep s ≠ .isrTx) ∧
    (let r := runFrom { atS1 with gie := false }
     IsRun r ∧ (r 0).Inv ∧ heldOnSend (r 0) ∧ (r 0).gie = false) := by
  refine ⟨⟨onSched_inv atBt1_inv _, ⟨by decide, rfl⟩, ⟨_, rfl⟩, fun h => h, rfl, rfl, ?_⟩,
    ⟨onSched_inv atS1_inv _, ⟨rfl, rfl⟩, ⟨_, rfl⟩, by decide⟩, ⟨?_, ?_, ⟨rfl, rfl⟩, rfl⟩⟩
  · intro a ha
    simp only [List.mem_cons, List.not_mem_nil, or_false] at ha
    rcases ha with rfl | rfl <;> exact fun h => h
  · have hq : Settled { atS1 with gie := false } := by
      refine ⟨rfl, rfl, fun n a => ?_⟩
      cases a <;> rfl
    exact (runFrom_settles (m := 0) rfl (fun k hk => absurd hk (Nat.not_lt_zero k)) hq).1
  · exact inv_moved atS1_inv [] 0 false

end Sys2Proof.Tests
end

section
/-! What a scheduled step answers where its agent has no enabled step, and where the foreground stands at a command
(00_scope.md R10, R11; log 4, log 5). -/

namespace Sys2Proof.Machine

variable {s : State}

/-! ### The schedule's choice used up -/

/-- Using up the schedule's choice enables and disables nothing: no enabling condition reads the schedule or the counter. -/
@[simp] theorem enabled_advance (a : AgentStep) (s : State) : enabled a (advance s) = enabled a s := by
  cases a <;> rfl

@[simp] theorem running_advance (s : State) : running (advance s) = running s := rfl

@[simp] theorem fetchWord_advance (s : State) : fetchWord (advance s) = fetchWord s := rfl

/-! ### A held foreground -/

/-- What a held foreground waits for, by label: the completion flag, the end of a STOP, or room in the transmit ring. -/
theorem held_iff :
    held s = true ↔
      (s.fg.ms ∈ [Label.bt1, .bt4, .w2, .rq1, .rq4, .d2] ∧ s.bh.int = false) ∨
      (s.fg.ms = .e1 ∧ s.bh.ctrl.sto = true) ∨
      (s.fg.ms = .s1 ∧ s.fg.n = some s.ut.tx.tail) := by
  unfold held
  split <;> simp [*]

theorem not_held_of_fetch (h : s.fg.ms = .fetch) : held s = false := by simp [held, h]

/-- Polling a hold whose condition is false changes nothing: of the command's own labels, those without a hold contradict
`held`, and at the others the command waits for what `held` says. -/
theorem exec_of_held {i : Instr} (hlabel : s.fg.ms ∈ labelsOf i) (hheld : held s = true) : exec i s = .next s := by
  simp only [held_iff, List.mem_cons, List.not_mem_nil, or_false] at hheld
  cases i with simp only [labelsOf, List.mem_cons, List.not_mem_nil, or_false] at hlabel
  | busBeginTx a =>
    rcases hlabel with h | h | h | h <;> simp [h] at hheld <;> simp [exec, execBusBeginTx, h, hheld]
  | busWrite d =>
    rcases hlabel with h | h <;> simp [h] at hheld
    simp [exec, execBusWrite, h, hheld]
  | busRequestFrom a count =>
    rcases hlabel with h | h | h | h <;> simp [h] at hheld <;> simp [exec, execBusRequestFrom, h, hheld]
  | busRead =>
    rcases hlabel with h | h <;> simp [h] at hheld
    simp [exec, execBusRead, h, hheld]
  | busEndTx =>
    simp [hlabel] at hheld
    simp [exec, execBusEndTx, hlabel, hheld]
  | uartBegin v => rcases hlabel with h | h | h <;> simp [h] at hheld
  | uartSend d =>
    rcases hlabel with h | h | h | h <;> simp [h] at hheld
    simp [exec, execUartSend, h, hheld]
  | uartReceive => rcases hlabel with h | h <;> simp [h] at hheld
  | uartFlush => simp [hlabel] at hheld

/-! ### An agent without an enabled step -/

/-- A finished foreground has no word to fetch, so its step changes nothing. -/
theorem fgStep_of_finished (h : fgFinished s = true) : fgStep s = .next s := by
  have hword : fetchWord s = none := List.getElem?_eq_none (by simpa [fgFinished] using h)
  simp [fgStep, hword]

/-- A held foreground is inside its command, where the command polls in vain. -/
theorem fgStep_of_held (hpos : s.Positioned) (hheld : held s = true) : fgStep s = .next s := by
  rcases hpos.label with hfetch | ⟨i, hcur, hlabel⟩
  · simp [not_held_of_fetch hfetch] at hheld
  · rw [fgStep_of_current hcur, exec_of_held hlabel hheld]

@[simp] theorem whenEnabled_false (s : State) (k : Result) : whenEnabled false s k = .next s := rfl

/-- The foreground of a running machine is disabled by being finished or held; every other agent tests its own condition. -/
theorem agentStep_of_disabled {a : AgentStep} (hpos : s.Positioned) (hrun : running s = true)
    (hoff : enabled a s = false) : agentStep a s = .next s := by
  cases a with simp only [enabled] at hoff
  | fg =>
    have hwhy : fgFinished s = true ∨ held s = true := by
      simpa [fgEnabled, hrun, ← Bool.not_eq_false, or_iff_not_imp_left] using hoff
    exact hwhy.elim fgStep_of_finished (fgStep_of_held hpos)
  | _ => simp [agentStep, hoff]

/-- The position is about fields that the schedule is not among. -/
theorem State.Positioned.advance (h : s.Positioned) : (advance s).Positioned :=
  ⟨h.label, h.baud, h.next, h.room, h.stored, h.byte, h.snapshot, h.precise⟩

theorem step_of_disabled (hpos : s.Positioned) (hrun : running s = true) (hoff : enabled (nextStep s) s = false) :
    step s = .next (advance s) := by
  rw [step_of_running hrun]
  exact agentStep_of_disabled hpos.advance (by simpa using hrun) (by simpa using hoff)

/-! ### The obligations -/

/-- Settles O8: a disabled agent's step polls or tests in vain, and a quiescent state enables no agent. -/
theorem choosingADisabledAgentChangesNothing : Obligations.ChoosingADisabledAgentChangesNothing := by
  refine ⟨fun s a hinv hrun hnext hoff => ?_, fun s hinv ⟨hfin, hstill⟩ => ?_⟩
  · exact step_of_disabled hinv.positioned hrun (hnext ▸ hoff)
  · exact step_of_disabled hinv.positioned ((running_iff s).2 hfin.2) (hstill _)

/-- Settles O7: the scheduled foreground fetches the same word after the schedule's choice is used up. -/
theorem stepRunsTheDecodedCommand : Obligations.StepRunsTheDecodedCommand := by
  intro s w i hrun hnext hword hdec
  rw [step_of_running hrun, hnext]
  exact fgStep_of_decode (by simpa using hword) hdec

end Sys2Proof.Machine
end
section
/-! One micro-step of a command as a relation: a case for each label and outcome, with the guard that leads to it and the
state it answers. `exec_next` reads it off the model; what a command can do is then a case split on the relation. -/

namespace Sys2Proof.Machine

variable {i : Instr} {s t : State}

/-- The micro-steps of the thirteen operations (40_bus_engine.md R127 to R132, 41_transport.md R171 to R177,
42_interrupt_control.md R220, R221). A fault at FETCH and a poll in vain are one case each, whatever the command. -/
inductive MicroStep (s : State) : Instr → State → Prop where
  | raised (i : Instr) (info : FaultInfo) (hms : s.fg.ms = .fetch) : MicroStep s i (s.withFault info)
  | polled (i : Instr) (hheld : held s = true) : MicroStep s i s
  | busBegin (v : Val24) (d : Byte) (hms : s.fg.ms = .fetch) (hphase : s.be.phase = .off ∨ s.be.phase = .idle) :
    MicroStep s (.busBegin v) (endOp { busCtrlWrite [.EN] { s with bh.div := d } with be.phase := .idle })
  | writeStart (a : Addr7) (hms : s.fg.ms = .fetch) (hphase : s.be.phase = .idle) :
    MicroStep s (.busBeginTx a) (goto .bt1 (busCtrlWrite [.INT, .STA, .EN] s))
  | writeStarted (a : Addr7) (hms : s.fg.ms = .bt1) (hint : s.bh.int = true) :
    MicroStep s (.busBeginTx a) (goto .bt2 { s with be.phase := .started })
  | writeAddress (a : Addr7) (hms : s.fg.ms = .bt2) :
    MicroStep s (.busBeginTx a) (goto .bt3 { s with bh.data := sla (addrOperand s.params a) false })
  | writeAddressTrigger (a : Addr7) (hms : s.fg.ms = .bt3) :
    MicroStep s (.busBeginTx a) (goto .bt4 (busCtrlWrite [.INT, .EN] s .address))
  | writeAddressed (a : Addr7) (hms : s.fg.ms = .bt4) (hint : s.bh.int = true) :
    MicroStep s (.busBeginTx a) (endOp { s with be.addr := addrOperand s.params a, be.phase := .addressedW })
  | writeData (d : Byte) (hms : s.fg.ms = .fetch) (hphase : s.be.phase.writing) :
    MicroStep s (.busWrite d) (goto .w1 { s with bh.data := d })
  | writeDataTrigger (d : Byte) (hms : s.fg.ms = .w1) :
    MicroStep s (.busWrite d) (goto .w2 (busCtrlWrite [.INT, .EN] s .tx))
  | written (d : Byte) (hms : s.fg.ms = .w2) (hint : s.bh.int = true) :
    MicroStep s (.busWrite d) (endOp { s with be.phase := .transferringW })
  | readStart (a : Addr7) (c : Count) (hms : s.fg.ms = .fetch) (hphase : s.be.phase = .idle) :
    MicroStep s (.busRequestFrom a c) (goto .rq1 (busCtrlWrite [.INT, .STA, .EN] s))
  | readStarted (a : Addr7) (c : Count) (hms : s.fg.ms = .rq1) (hint : s.bh.int = true) :
    MicroStep s (.busRequestFrom a c) (goto .rq2 { s with be.phase := .started })
  | readAddress (a : Addr7) (c : Count) (hms : s.fg.ms = .rq2) :
    MicroStep s (.busRequestFrom a c) (goto .rq3 { s with bh.data := sla (addrOperand s.params a) true })
  | readAddressTrigger (a : Addr7) (c : Count) (hms : s.fg.ms = .rq3) :
    MicroStep s (.busRequestFrom a c) (goto .rq4 (busCtrlWrite [.INT, .EN] s .address))
  | readAddressed (a : Addr7) (c : Count) (hms : s.fg.ms = .rq4) (hint : s.bh.int = true) :
    MicroStep s (.busRequestFrom a c)
      (endOp { s with
        be.addr := addrOperand s.params a, be.remaining := countOperand s.params c, be.phase := .addressedR })
  | readCount (hms : s.fg.ms = .fetch) (hphase : s.be.phase.reading) (hmore : s.be.remaining ≠ 0) :
    MicroStep s .busRead (goto .d1 { s with be.remaining := s.be.remaining - 1 })
  | readAck (hms : s.fg.ms = .d1) (hmore : s.be.remaining ≠ 0) :
    MicroStep s .busRead (goto .d2 (busCtrlWrite [.INT, .ACK, .EN] s .rx))
  | readNack (hms : s.fg.ms = .d1) (hlast : s.be.remaining = 0) :
    MicroStep s .busRead (goto .d2 (busCtrlWrite [.INT, .EN] s .rx))
  | read (hms : s.fg.ms = .d2) (hint : s.bh.int = true) :
    MicroStep s .busRead (endOp (result s.bh.data { s with fg.b := some s.bh.data, be.phase := .transferringR }))
  | stopTrigger (hms : s.fg.ms = .fetch) (hphase : s.be.phase.writing ∨ s.be.phase.reading) :
    MicroStep s .busEndTx (goto .e1 { busCtrlWrite [.INT, .STO, .EN] s with be.phase := .stopped })
  | stopped (hms : s.fg.ms = .e1) (hsto : s.bh.ctrl.sto = false) :
    MicroStep s .busEndTx (endOp { s with be.phase := .idle, be.remaining := 0 })
  | uartDisable (v : Val24) (hms : s.fg.ms = .fetch) (hbaud : (uartDivisor s.params v).isSome) :
    MicroStep s (.uartBegin v) (goto .u1 (uartCtrlWrite [] s))
  | uartSetDivisor (v : Val24) (d : Nat) (hms : s.fg.ms = .u1) (hd : uartDivisor s.params v = some d) :
    MicroStep s (.uartBegin v) (goto .u2 { s with uh.div := divRegister s.params d })
  | uartResetRings (v : Val24) (hms : s.fg.ms = .u2) :
    MicroStep s (.uartBegin v)
      (goto .u3 { s with ut.rx.head := 0, ut.rx.tail := 0, ut.tx.head := 0, ut.tx.tail := 0, ut.rxOvf := 0 })
  | uartEnable (v : Val24) (hms : s.fg.ms = .u3) :
    MicroStep s (.uartBegin v) (endOp { uartCtrlWrite [.RXEN, .TXEN, .RXCIE] s with ut.started := true })
  | sendNext (d : Byte) (hms : s.fg.ms = .fetch) (hstarted : s.ut.started = true) :
    MicroStep s (.uartSend d) (goto .s1 { s with fg.n := some (nextIdx (maskTx s.params) s.ut.tx.head) })
  | sendRoom (d : Byte) (hms : s.fg.ms = .s1) (hroom : s.fg.n ≠ some s.ut.tx.tail) : MicroStep s (.uartSend d) (goto .s2 s)
  | sendStore (d : Byte) (hms : s.fg.ms = .s2) (hslot : s.ut.tx.head.toNat < s.params.capTx) :
    MicroStep s (.uartSend d) (goto .s3 { s with ut.tx.buf := s.ut.tx.buf.write s.ut.tx.head.toNat d })
  | sendPublish (d : Byte) (n : Idx) (hms : s.fg.ms = .s3) (hn : s.fg.n = some n) :
    MicroStep s (.uartSend d) (goto .s4 { s with ut.tx.head := n })
  | sendPump (d : Byte) (hms : s.fg.ms = .s4) : MicroStep s (.uartSend d) (endOp (setUdrie true s))
  | available (hms : s.fg.ms = .fetch) (hstarted : s.ut.started = true) :
    MicroStep s .uartAvailable
      (endOp (result (s.ut.rx.count (maskRx s.params)) { s with fg.sv := some s.gie, fg.h := some s.ut.rx.head }))
  | receiveHead (hms : s.fg.ms = .fetch) (hstarted : s.ut.started = true) (hne : s.ut.rx.head ≠ s.ut.rx.tail) :
    MicroStep s .uartReceive (goto .v1 { s with fg.h := some s.ut.rx.head })
  | receiveByte (hms : s.fg.ms = .v1) (hslot : s.ut.rx.tail.toNat < s.params.capRx) :
    MicroStep s .uartReceive (goto .v2 { s with fg.b := some (s.ut.rx.buf.read s.ut.rx.tail.toNat) })
  | received (b : Byte) (hms : s.fg.ms = .v2) (hb : s.fg.b = some b) :
    MicroStep s .uartReceive (endOp (result b { s with ut.rx.tail := nextIdx (maskRx s.params) s.ut.rx.tail }))
  | flushHead (hms : s.fg.ms = .fetch) (hstarted : s.ut.started = true) :
    MicroStep s .uartFlush (goto .f1 { s with fg.h := some s.ut.rx.head })
  | flushed (k : Idx) (hms : s.fg.ms = .f1) (hk : s.fg.h = some k) :
    MicroStep s .uartFlush (endOp { s with ut.rx.tail := k })
  | irqDisable (hms : s.fg.ms = .fetch) : MicroStep s .irqDisable (endOp { s with gie := false })
  | irqEnable (hms : s.fg.ms = .fetch) : MicroStep s .irqEnable (endOp { s with gie := true })

theorem held_of_int (hms : s.fg.ms ∈ [Label.bt1, .bt4, .w2, .rq1, .rq4, .d2]) (hint : s.bh.int = false) :
    held s = true := held_iff.2 (.inl ⟨hms, hint⟩)

/-- The relation covers `exec`: every next state a command answers is one of its cases. -/
theorem exec_next (h : exec i s = .next t) : MicroStep s i t := by
  cases i with
  | busBegin v =>
    obtain ⟨hms, ⟨d, hphase, -, rfl⟩ | ⟨-, -, rfl⟩ | ⟨-, rfl⟩⟩ := execBusBegin_next h
    exacts [.busBegin v d hms hphase, .raised _ _ hms, .raised _ _ hms]
  | busBeginTx a =>
    obtain ⟨hms, ⟨-, rfl⟩ | ⟨-, -, rfl⟩ | ⟨hphase, rfl⟩⟩ | ⟨hms, ⟨hint, rfl⟩ | ⟨hint, rfl⟩⟩ | ⟨hms, rfl⟩ | ⟨hms, rfl⟩ |
      ⟨hms, ⟨hint, rfl⟩ | ⟨hint, rfl⟩⟩ := execBusBeginTx_next h
    exacts [.raised _ _ hms, .raised _ _ hms, .writeStart a hms hphase, .writeStarted a hms hint,
      .polled _ (held_of_int (by simp [hms]) hint), .writeAddress a hms, .writeAddressTrigger a hms,
      .writeAddressed a hms hint, .polled _ (held_of_int (by simp [hms]) hint)]
  | busWrite d =>
    obtain ⟨hms, ⟨-, rfl⟩ | ⟨-, -, rfl⟩ | ⟨hphase, rfl⟩⟩ | ⟨hms, rfl⟩ | ⟨hms, ⟨hint, rfl⟩ | ⟨hint, rfl⟩⟩ :=
      execBusWrite_next h
    exacts [.raised _ _ hms, .raised _ _ hms, .writeData d hms hphase, .writeDataTrigger d hms, .written d hms hint,
      .polled _ (held_of_int (by simp [hms]) hint)]
  | busRequestFrom a c =>
    obtain ⟨hms, ⟨-, rfl⟩ | ⟨-, -, rfl⟩ | ⟨hphase, rfl⟩⟩ | ⟨hms, ⟨hint, rfl⟩ | ⟨hint, rfl⟩⟩ | ⟨hms, rfl⟩ | ⟨hms, rfl⟩ |
      ⟨hms, ⟨hint, rfl⟩ | ⟨hint, rfl⟩⟩ := execBusRequestFrom_next h
    exacts [.raised _ _ hms, .raised _ _ hms, .readStart a c hms hphase, .readStarted a c hms hint,
      .polled _ (held_of_int (by simp [hms]) hint), .readAddress a c hms, .readAddressTrigger a c hms,
      .readAddressed a c hms hint, .polled _ (held_of_int (by simp [hms]) hint)]
  | busRead =>
    obtain ⟨hms, ⟨-, rfl⟩ | ⟨-, -, rfl⟩ | ⟨hphase, hmore, rfl⟩⟩ | ⟨hms, ⟨hmore, rfl⟩ | ⟨hlast, rfl⟩⟩ |
      ⟨hms, ⟨hint, rfl⟩ | ⟨hint, rfl⟩⟩ := execBusRead_next h
    exacts [.raised _ _ hms, .raised _ _ hms, .readCount hms hphase hmore, .readAck hms hmore, .readNack hms hlast,
      .read hms hint, .polled _ (held_of_int (by simp [hms]) hint)]
  | busEndTx =>
    obtain ⟨hms, ⟨-, rfl⟩ | ⟨-, -, rfl⟩ | ⟨hphase, rfl⟩⟩ | ⟨hms, ⟨hsto, rfl⟩ | ⟨hsto, rfl⟩⟩ := execBusEndTx_next h
    exacts [.raised _ _ hms, .raised _ _ hms, .stopTrigger hms hphase, .stopped hms hsto,
      .polled _ (held_iff.2 (.inr (.inl ⟨hms, hsto⟩)))]
  | uartBegin v =>
    obtain ⟨hms, ⟨hbaud, rfl⟩ | ⟨-, rfl⟩⟩ | ⟨hms, d, hd, rfl⟩ | ⟨hms, rfl⟩ | ⟨hms, rfl⟩ := execUartBegin_next h
    exacts [.uartDisable v hms hbaud, .raised _ _ hms, .uartSetDivisor v d hms hd, .uartResetRings v hms, .uartEnable v hms]
  | uartSend d =>
    obtain ⟨hms, ⟨-, rfl⟩ | ⟨hstarted, rfl⟩⟩ | ⟨hms, n, hn, ⟨hne, rfl⟩ | ⟨htail, rfl⟩⟩ | ⟨hms, hslot, rfl⟩ |
      ⟨hms, n, hn, rfl⟩ | ⟨hms, rfl⟩ := execUartSend_next h
    exacts [.raised _ _ hms, .sendNext d hms hstarted, .sendRoom d hms (by simpa [hn] using hne),
      .polled _ (held_iff.2 (.inr (.inr ⟨hms, htail ▸ hn⟩))), .sendStore d hms hslot, .sendPublish d n hms hn,
      .sendPump d hms]
  | uartAvailable =>
    obtain ⟨hms, ⟨-, rfl⟩ | ⟨hstarted, rfl⟩⟩ := execUartAvailable_next h
    exacts [.raised _ _ hms, .available hms hstarted]
  | uartReceive =>
    obtain ⟨hms, ⟨-, rfl⟩ | ⟨-, -, rfl⟩ | ⟨hstarted, hne, rfl⟩⟩ | ⟨hms, hslot, rfl⟩ |
      ⟨hms, b, hb, rfl⟩ := execUartReceive_next h
    exacts [.raised _ _ hms, .raised _ _ hms, .receiveHead hms hstarted hne, .receiveByte hms hslot,
      .received b hms hb]
  | uartFlush =>
    obtain ⟨hms, ⟨-, rfl⟩ | ⟨hstarted, rfl⟩⟩ | ⟨hms, k, hk, rfl⟩ := execUartFlush_next h
    exacts [.raised _ _ hms, .flushHead hms hstarted, .flushed k hms hk]
  | irqDisable =>
    obtain ⟨hms, rfl⟩ := writeGie_next h
    exact .irqDisable hms
  | irqEnable =>
    obtain ⟨hms, rfl⟩ := writeGie_next h
    exact .irqEnable hms

end Sys2Proof.Machine
end

section
/-! One step of an agent other than the foreground as a relation, and one step of the machine as a foreground micro-step or
such a step. -/

namespace Sys2Proof.Machine

variable {i : Instr} {s t : State} {a : AgentStep}

/-- The steps of the hardware and of the handlers, by outcome (40_bus_engine.md R136, R137, 41_transport.md R180, R183,
R185 to R187). An agent chosen without an enabled step is one case, whatever the agent (log 4). -/
inductive OtherStep (s : State) : AgentStep → State → Prop where
  | disabled (a : AgentStep) : OtherStep s a s
  | busCompleted (d status data : Byte) (e : BusEvent) (hon : busCompleteEnabled s = true) :
    OtherStep s (.busComplete d status)
      { s with bh := { s.bh with
        data := data, status := status, int := true, pending := .none, trace := s.bh.trace ++ [e] } }
  | busStopped (status : Byte) (hon : busStopEnabled s = true) : OtherStep s (.busStopDone status) (busStopDone status s)
  | arrived (b : Byte) (rest : List Byte) (hon : arriveEnabled s = true) (hin : s.wire.rxIn = b :: rest)
    (hroom : s.uh.rxFifo.length < s.params.rxHwDepth) :
    OtherStep s .rxArrive { s with wire.rxIn := rest, uh.rxFifo := s.uh.rxFifo ++ [b] }
  | overrun (b : Byte) (rest : List Byte) (hon : arriveEnabled s = true) (hin : s.wire.rxIn = b :: rest)
    (hfull : ¬s.uh.rxFifo.length < s.params.rxHwDepth) :
    OtherStep s .rxArrive { s with wire.rxIn := rest, uh.hwOvr := s.uh.hwOvr + 1 }
  | dropped (hon : dropEnabled s = true) : OtherStep s .rxDrop (drop s)
  | shifted (b : Byte) (hon : shiftEnabled s = true) (hreg : s.uh.txReg = some b) :
    OtherStep s .txShift { s with wire.txOut := s.wire.txOut ++ [b], uh.txReg := none }
  | rxRefused (b : Byte) (rest : List Byte) (hon : isrRxEnabled s = true) (hq : s.uh.rxFifo = b :: rest)
    (hfull : rxFull s = true) (hpolicy : s.params.rxPolicy = .dropNew) :
    OtherStep s .isrRx
      { s with uh.rxFifo := rest, ut.rxOvf := bumpOvf s.params.ovfWidth s.ut.rxOvf, gie := true }
  | rxWrapped (b : Byte) (rest : List Byte) (hon : isrRxEnabled s = true) (hq : s.uh.rxFifo = b :: rest)
    (hfull : rxFull s = true) (hpolicy : s.params.rxPolicy = .wrap) (hslot : s.ut.rx.head.toNat < s.params.capRx) :
    OtherStep s .isrRx
      { s with
        uh.rxFifo := rest
        ut.rxOvf := bumpOvf s.params.ovfWidth s.ut.rxOvf
        ut.rx := { s.ut.rx with
          buf := s.ut.rx.buf.write s.ut.rx.head.toNat b, head := nextIdx (maskRx s.params) s.ut.rx.head }
        gie := true }
  | rxStored (b : Byte) (rest : List Byte) (hon : isrRxEnabled s = true) (hq : s.uh.rxFifo = b :: rest)
    (hroom : rxFull s = false) (hslot : s.ut.rx.head.toNat < s.params.capRx) :
    OtherStep s .isrRx
      { s with
        uh.rxFifo := rest
        ut.rx := { s.ut.rx with
          buf := s.ut.rx.buf.write s.ut.rx.head.toNat b, head := nextIdx (maskRx s.params) s.ut.rx.head }
        gie := true }
  | txIdled (hon : isrTxEnabled s = true) (hempty : s.ut.tx.head = s.ut.tx.tail) :
    OtherStep s .isrTx { setUdrie false s with gie := true }
  | txSent (hon : isrTxEnabled s = true) (hne : s.ut.tx.head ≠ s.ut.tx.tail) (hslot : s.ut.tx.tail.toNat < s.params.capTx) :
    OtherStep s .isrTx
      { s with
        uh.txReg := some (s.ut.tx.buf.read s.ut.tx.tail.toNat)
        ut.tx.tail := nextIdx (maskTx s.params) s.ut.tx.tail
        gie := true }

/-- A completion writes only the bus hardware, and adds one event. -/
theorem busComplete_eq (d status : Byte) (hon : busCompleteEnabled s = true) :
    ∃ data e, busComplete d status s =
      { s with bh := { s.bh with
        data := data, status := status, int := true, pending := .none, trace := s.bh.trace ++ [e] } } := by
  unfold busComplete completion
  cases hpending : s.bh.pending with
  | start | addr | txData | rxData => exact ⟨_, _, rfl⟩
  | none | stop => simp [busCompleteEnabled, Pending.completes, hpending] at hon

/-- `ISR_RX` is enabled only on a byte to pop. -/
theorem rxFifo_of_isrRxEnabled (hon : isrRxEnabled s = true) : ∃ b rest, s.uh.rxFifo = b :: rest := by
  refine List.exists_cons_of_ne_nil ?_
  simp only [isrRxEnabled, pendRx, rxc, Bool.and_eq_true, Bool.not_eq_true', List.isEmpty_eq_false_iff] at hon
  exact hon.1.2.2

/-- The relation covers every agent but the foreground. -/
theorem agentStep_other (ha : a ≠ .fg) (h : agentStep a s = .next t) : OtherStep s a t := by
  obtain rfl | ⟨rfl, -⟩ | ⟨d, status, rfl, hon, rfl⟩ | ⟨status, rfl, hon, rfl⟩ | ⟨rfl, hon, rfl⟩ | ⟨rfl, hon, rfl⟩ |
    ⟨rfl, hon, rfl⟩ | ⟨rfl, hon, h⟩ | ⟨rfl, hon, h⟩ := agentStep_next h
  · exact .disabled a
  · exact absurd rfl ha
  · obtain ⟨data, e, heq⟩ := busComplete_eq d status hon
    exact heq ▸ .busCompleted d status data e hon
  · exact .busStopped status hon
  · obtain ⟨b, rest, hin⟩ : ∃ b rest, s.wire.rxIn = b :: rest :=
      List.exists_cons_of_ne_nil fun e => by simp [arriveEnabled, e] at hon
    simp only [arrive, hin]
    split
    · exact .arrived b rest hon hin ‹_›
    · exact .overrun b rest hon hin ‹_›
  · exact .dropped hon
  · obtain ⟨b, hreg⟩ : ∃ b, s.uh.txReg = some b :=
      Option.ne_none_iff_exists'.1 fun e => by simp [shiftEnabled, e] at hon
    simp only [shift, hreg]
    exact .shifted b hon hreg
  · obtain ⟨b, rest, hq⟩ := rxFifo_of_isrRxEnabled hon
    obtain ⟨hfull, hpolicy, rfl⟩ | ⟨hslot, ⟨hfull, hpolicy, rfl⟩ | ⟨hroom, rfl⟩⟩ := isrRx_next hq h
    · exact .rxRefused b rest hon hq hfull hpolicy
    · exact .rxWrapped b rest hon hq hfull hpolicy hslot
    · exact .rxStored b rest hon hq hroom hslot
  · obtain ⟨hempty, rfl⟩ | ⟨hne, hslot, rfl⟩ := isrTx_next h
    · exact .txIdled hon hempty
    · exact .txSent hon hne hslot

/-- The state that the foreground writes alone, apart from what it shares with a handler or with the hardware. -/
structure ForegroundKept (s t : State) : Prop where
  params : t.params = s.params
  program : t.program = s.program
  session : t.be = s.be
  position : t.fg = s.fg
  fault : t.fault = s.fault
  refused : t.refused = s.refused
  started : t.ut.started = s.ut.started
  rxTail : t.ut.rx.tail = s.ut.rx.tail
  txHead : t.ut.tx.head = s.ut.tx.head
  txBuf : t.ut.tx.buf = s.ut.tx.buf

/-- No other agent writes the foreground's state (10_state.md R45, 60_exceptions.md R253). -/
theorem OtherStep.foregroundKept (h : OtherStep s a t) : ForegroundKept s t := by
  cases h <;> exact ⟨rfl, rfl, rfl, rfl, rfl, rfl, rfl, rfl, rfl, rfl⟩

@[simp] theorem currentInstr_advance (s : State) : currentInstr (advance s) = currentInstr s := rfl

/-- A foreground step is idle, refuses a word that spells nothing, or is a micro-step of the current command. -/
theorem fgStep_cases (h : fgStep s = .next t) :
    t = s ∨ (currentInstr s = none ∧ t = { s with refused := some s.fg.pc }) ∨
      ∃ i, currentInstr s = some i ∧ MicroStep s i t := by
  obtain ⟨-, rfl⟩ | ⟨w, e, hw, he, rfl⟩ | ⟨i, hcur, h⟩ := fgStep_next h
  · exact .inl rfl
  · exact .inr (.inl ⟨by simp [currentInstr, hw, he], rfl⟩)
  · exact .inr (.inr ⟨i, hcur, exec_next h⟩)

/-- Everything a step of the machine can do. -/
theorem step_cases (h : step s = .next t) :
    (nextStep s = .fg ∧
        (t = advance s ∨ (currentInstr s = none ∧ t = { advance s with refused := some s.fg.pc }) ∨
          ∃ i, currentInstr s = some i ∧ MicroStep (advance s) i t)) ∨
      (nextStep s ≠ .fg ∧ OtherStep (advance s) (nextStep s) t) := by
  obtain ⟨-, -, h⟩ := step_next h
  by_cases ha : nextStep s = .fg
  · rw [ha] at h
    exact .inl ⟨ha, fgStep_cases h⟩
  · exact .inr ⟨ha, agentStep_other ha h⟩

end Sys2Proof.Machine
end

section
/-! The shape of a state and the foreground's position are kept by every step (10_state.md R20, R44, R46, R49). -/

namespace Sys2Proof.Machine

variable {i : Instr} {s t : State} {a : AgentStep}

/-! ### Rings in range -/

/-- Both rings' next slots lie below their capacities, whatever the index. -/
theorem nextIdx_rx_lt {p : Config.Params} (hp : p.wf) (k : Idx) : (nextIdx (maskRx p) k).toNat < p.capRx :=
  nextIdx_lt (wf_masks hp).1.1 (wf_masks hp).1.2 k

theorem nextIdx_tx_lt {p : Config.Params} (hp : p.wf) (k : Idx) : (nextIdx (maskTx p) k).toNat < p.capTx :=
  nextIdx_lt (wf_masks hp).2.1 (wf_masks hp).2.2 k

/-- Two indices in range with the same next slot are equal. -/
theorem nextIdx_inj {width cap : Nat} (hcap : CapacityOk cap) (hw : cap ≤ 2 ^ width) {x y : Idx} (hx : x.toNat < cap)
    (hy : y.toNat < cap) (h : nextIdx (mask width cap) x = nextIdx (mask width cap) y) : x = y := by
  have hmod : (x.toNat + 1) % cap = (y.toNat + 1) % cap := by
    rw [← nextIdx_toNat hcap hw, ← nextIdx_toNat hcap hw, h]
  have hxy : x.toNat ≡ y.toNat [MOD cap] := Nat.ModEq.add_right_cancel' 1 hmod
  exact BitVec.eq_of_toNat_eq (hxy.eq_of_lt_of_lt hx hy)

theorem Ring.wf_head {cap : Nat} {r : Ring} (h : r.wf cap) {k : Idx} (hk : k.toNat < cap) :
    Ring.wf cap { r with head := k } :=
  ⟨hk, h.2⟩

theorem Ring.wf_tail {cap : Nat} {r : Ring} (h : r.wf cap) {k : Idx} (hk : k.toNat < cap) :
    Ring.wf cap { r with tail := k } :=
  ⟨h.1, hk, h.2.2⟩

/-! ### The shape -/

theorem State.Shaped.advance (h : s.Shaped) : (advance s).Shaped := { h with }

theorem State.Shaped.capRx_pos (h : s.Shaped) : 0 < s.params.capRx := lt_of_le_of_lt (Nat.zero_le _) h.rx.1

theorem State.Shaped.capTx_pos (h : s.Shaped) : 0 < s.params.capTx := lt_of_le_of_lt (Nat.zero_le _) h.tx.1

/-- Counting down from a count above 0 stays within the width. -/
theorem count_sub_one_lt {c : Count} {width : Nat} (h : c.toNat < 2 ^ width) (hc : c ≠ 0) : (c - 1).toNat < 2 ^ width := by
  have hle : c - 1 ≤ c := by
    have : c.toNat ≠ 0 := fun e => hc (BitVec.eq_of_toNat_eq e)
    bv_omega
  exact lt_of_le_of_lt hle h

/-- A command writes an operand's low bits, an index in range, or nothing that the shape is about. -/
theorem MicroStep.shaped (h : MicroStep s i t) (hs : s.Shaped) (hp : s.Positioned) : t.Shaped := by
  cases h with
  | writeAddressed => exact { hs with addr := low_lt _ _ }
  | readAddressed => exact { hs with addr := low_lt _ _, remaining := low_lt _ _ }
  | readCount _ _ hmore => exact { hs with remaining := count_sub_one_lt hs.remaining hmore }
  | stopped => exact { hs with remaining := Nat.two_pow_pos _ }
  | uartDisable => exact { hs with fifo := Nat.zero_le _ }
  | uartSetDivisor => exact { hs with div := Nat.mod_lt _ (Nat.two_pow_pos _) }
  | uartResetRings =>
    exact { hs with
      rx := ⟨hs.capRx_pos, hs.capRx_pos, hs.rx.2.2⟩
      tx := ⟨hs.capTx_pos, hs.capTx_pos, hs.tx.2.2⟩
      ovf := Nat.two_pow_pos _ }
  | sendStore => exact { hs with tx := Ring.wf_write hs.tx _ }
  | sendPublish d n hms hn =>
    have hnext : n = nextIdx (maskTx s.params) s.ut.tx.head :=
      Option.some.inj (hn.symm.trans (hp.next (.inr (.inr hms))))
    exact { hs with tx := Ring.wf_head hs.tx (hnext ▸ nextIdx_tx_lt hs.params _) }
  | received => exact { hs with rx := Ring.wf_tail hs.rx (nextIdx_rx_lt hs.params _) }
  | flushed k hms hk =>
    obtain ⟨k', hk', hlt⟩ := hp.snapshot hms
    exact { hs with rx := Ring.wf_tail hs.rx (Option.some.inj (hk.symm.trans hk') ▸ hlt) }
  | _ => exact { hs with }

/-- The other agents keep the receive register within its depth and the indices in range. -/
theorem OtherStep.shaped (h : OtherStep s a t) (hs : s.Shaped) : t.Shaped := by
  have hpop : ∀ {b rest}, s.uh.rxFifo = b :: rest → rest.length ≤ s.params.rxHwDepth := fun hq => by
    have := hs.fifo
    rw [hq, List.length_cons] at this
    omega
  have hput : ∀ b : Byte, Ring.wf s.params.capRx
      { s.ut.rx with buf := s.ut.rx.buf.write s.ut.rx.head.toNat b, head := nextIdx (maskRx s.params) s.ut.rx.head } :=
    fun b => Ring.wf_head (Ring.wf_write hs.rx b) (nextIdx_rx_lt hs.params _)
  cases h with
  | arrived b rest _ _ hroom =>
    exact { hs with fifo := (List.length_append (as := s.uh.rxFifo) (bs := [b])).trans_le hroom }
  | rxRefused b rest _ hq => exact { hs with fifo := hpop hq, ovf := bumpOvf_lt _ _ }
  | rxWrapped b rest _ hq => exact { hs with fifo := hpop hq, ovf := bumpOvf_lt _ _, rx := hput b }
  | rxStored b rest _ hq => exact { hs with fifo := hpop hq, rx := hput b }
  | txSent => exact { hs with tx := Ring.wf_tail hs.tx (nextIdx_tx_lt hs.params _) }
  | _ => exact { hs with }

/-! ### The foreground's position -/

/-- At FETCH no clause of the position asks for anything. -/
theorem positioned_of_fetch (h : s.fg.ms = .fetch) : s.Positioned where
  label := .inl h
  baud := by simp [h]
  next := by simp [h]
  room := by simp [h]
  stored := by simp [h]
  byte := by simp [h]
  snapshot := by simp [h]
  precise _ := h

/-- At a label of the current command in a machine without a mark, only what that label reads is asked for; by default `simp`
sees from the label that a clause asks for nothing. -/
theorem positioned_inside (hcur : currentInstr s = some i) (hl : s.fg.ms ∈ labelsOf i) (hf : s.fault = none)
    (hr : s.refused = none)
    (baud : ∀ v, s.fg.ms = .u1 → i = .uartBegin v → (uartDivisor s.params v).isSome := by simp)
    (next : s.fg.ms = .s1 ∨ s.fg.ms = .s2 ∨ s.fg.ms = .s3 →
      s.fg.n = some (nextIdx (maskTx s.params) s.ut.tx.head) := by simp)
    (room : s.fg.ms = .s2 ∨ s.fg.ms = .s3 → s.fg.n ≠ some s.ut.tx.tail := by simp)
    (stored : ∀ d, s.fg.ms = .s3 → i = .uartSend d → s.ut.tx.buf.read s.ut.tx.head.toNat = d := by simp)
    (byte : s.fg.ms = .v2 → s.fg.b.isSome := by simp)
    (snapshot : s.fg.ms = .f1 → ∃ h, s.fg.h = some h ∧ h.toNat < s.params.capRx := by simp) : s.Positioned where
  label := .inr ⟨i, hcur, hl⟩
  baud v hms hv := baud v hms (Option.some.inj (hcur.symm.trans hv))
  next := next
  room := room
  stored d hms hd := stored d hms (Option.some.inj (hcur.symm.trans hd))
  byte := byte
  snapshot := snapshot
  precise := by simp [hf, hr]

/-- Each micro-step leads to FETCH, to a label that asks for nothing, or to one for whose reads it has just provided. -/
theorem MicroStep.positioned (h : MicroStep s i t) (hcur : currentInstr s = some i) (hf : s.fault = none)
    (hr : s.refused = none) (hs : s.Shaped) (hp : s.Positioned) : t.Positioned := by
  cases h with
  | polled => exact hp
  | raised _ _ hms => exact positioned_of_fetch hms
  | uartDisable v hms hbaud =>
    exact positioned_inside hcur (by simp [labelsOf]) hf hr (baud := fun _ _ hv => Instr.uartBegin.inj hv ▸ hbaud)
  | sendNext => exact positioned_inside hcur (by simp [labelsOf]) hf hr (next := fun _ => rfl)
  | sendRoom _ hms hroom =>
    exact positioned_inside hcur (by simp [labelsOf]) hf hr (next := fun _ => hp.next (.inl hms)) (room := fun _ => hroom)
  | sendStore d hms =>
    have hread := Memory.read_write hs.tx.2.2.1 s.ut.tx.head.toNat s.ut.tx.head.toNat d
    exact positioned_inside hcur (by simp [labelsOf]) hf hr (next := fun _ => hp.next (.inr (.inl hms)))
      (room := fun _ => hp.room (.inl hms)) (stored := fun _ _ hd => Instr.uartSend.inj hd ▸ hread.trans (if_pos rfl))
  | receiveByte => exact positioned_inside hcur (by simp [labelsOf]) hf hr (byte := fun _ => rfl)
  | flushHead => exact positioned_inside hcur (by simp [labelsOf]) hf hr (snapshot := fun _ => ⟨_, rfl, hs.rx.1⟩)
  | busBegin | writeAddressed | written | readAddressed | read | stopped | uartEnable | sendPump | available | received
  | flushed | irqDisable | irqEnable => exact positioned_of_fetch rfl
  | _ => exact positioned_inside hcur (by simp [labelsOf]) hf hr

theorem ForegroundKept.currentInstr_eq (h : ForegroundKept s t) : currentInstr t = currentInstr s := by
  simp only [currentInstr, fetchWord, h.program, h.position]

/-- The position is about the foreground's own state, but for the tail a `send` was compared with. -/
theorem ForegroundKept.positioned (h : ForegroundKept s t) (hp : s.Positioned)
    (hroom : s.fg.ms = .s2 ∨ s.fg.ms = .s3 → s.fg.n ≠ some t.ut.tx.tail) : t.Positioned where
  label := by simpa only [h.currentInstr_eq, h.position] using hp.label
  baud := by simpa only [h.currentInstr_eq, h.position, h.params] using hp.baud
  next := by simpa only [h.position, h.params, h.txHead] using hp.next
  room := by simpa only [h.position] using hroom
  stored := by simpa only [h.currentInstr_eq, h.position, h.txHead, h.txBuf] using hp.stored
  byte := by simpa only [h.position] using hp.byte
  snapshot := by simpa only [h.position, h.params] using hp.snapshot
  precise := by simpa only [h.position, h.fault, h.refused] using hp.precise

/-- `ISR_TX` moves the tail away from a head it differs from, so not to the slot after that head. -/
theorem next_ne_moved_tail (hs : s.Shaped) (hne : s.ut.tx.head ≠ s.ut.tx.tail) :
    nextIdx (maskTx s.params) s.ut.tx.head ≠ nextIdx (maskTx s.params) s.ut.tx.tail := fun heq =>
  hne (nextIdx_inj (wf_masks hs.params).2.1 (wf_masks hs.params).2.2 hs.tx.1 hs.tx.2.1 heq)

theorem OtherStep.positioned (h : OtherStep s a t) (hs : s.Shaped) (hp : s.Positioned) : t.Positioned := by
  refine h.foregroundKept.positioned hp ?_
  cases h with
  | txSent _ hne =>
    intro hms hn
    have hnext := hp.next (.inr hms)
    exact next_ne_moved_tail hs hne (Option.some.inj (hnext.symm.trans hn))
  | _ => exact hp.room

/-! ### Every step -/

/-- Settles O41: a refusal happens at FETCH, a micro-step provides for the label it leads to, and the other agents leave the
position alone. -/
theorem stepsKeepTheShape : Obligations.StepsKeepTheShape := by
  intro s t hinv h
  have hs := hinv.shaped.advance
  have hp := hinv.positioned.advance
  obtain ⟨hf, hr, -⟩ := step_next h
  obtain ⟨-, rfl | ⟨hnone, rfl⟩ | ⟨i, hcur, hmicro⟩⟩ | ⟨-, hother⟩ := step_cases h
  · exact ⟨hs, hp⟩
  · have hfetch : s.fg.ms = .fetch := hp.label.resolve_right fun ⟨i, hi, _⟩ => by simp [hnone] at hi
    exact ⟨{ hs with }, positioned_of_fetch hfetch⟩
  · exact ⟨hmicro.shaped hs hp, hmicro.positioned hcur hf hr hs hp⟩
  · exact ⟨hother.shaped hs, hother.positioned hs hp⟩

end Sys2Proof.Machine
end

section
/-! The UART is disabled before its first `begin` and inside any `begin`, and enabled after (41_transport.md R170, R171). -/

namespace Sys2Proof.Machine

variable {i : Instr} {s t : State} {a : AgentStep}

theorem State.StartedOk.advance (h : s.StartedOk) : (advance s).StartedOk := { h with }

/-- While the UART is disabled neither handler and no arrival is enabled. -/
theorem not_enabled_of_disabled (hst : s.StartedOk) (hoff : s.ut.started = false ∨ s.fg.ms ∈ [Label.u1, .u2, .u3]) :
    isrRxEnabled s = false ∧ isrTxEnabled s = false ∧ arriveEnabled s = false := by
  have hctrl := (hst.disabled hoff).1
  simp [isrRxEnabled, isrTxEnabled, arriveEnabled, pendRx, pendTx, hctrl]

/-- So an enabled one says that a `begin` has succeeded and that none is under way. -/
theorem begun_of_enabled (hst : s.StartedOk)
    (hon : isrRxEnabled s = true ∨ isrTxEnabled s = true ∨ arriveEnabled s = true) :
    ¬(s.ut.started = false ∨ s.fg.ms ∈ [Label.u1, .u2, .u3]) := fun hoff => by
  simp [not_enabled_of_disabled hst hoff] at hon

/-- After a `begin` and outside any, the discipline asks only that the three enables stay. -/
theorem startedOk_of_begun (hst : s.StartedOk) (hbegun : ¬(s.ut.started = false ∨ s.fg.ms ∈ [Label.u1, .u2, .u3]))
    (hstarted : t.ut.started = s.ut.started) (hms : t.fg.ms = s.fg.ms ∨ t.fg.ms = .fetch)
    (hctrl : t.uh.ctrl = { s.uh.ctrl with udrie := t.uh.ctrl.udrie }) : t.StartedOk := by
  obtain ⟨hon, hout⟩ := not_or.1 hbegun
  have hon' : t.ut.started = true := by simpa [hstarted] using hon
  have hout' : t.fg.ms ∉ [Label.u1, .u2, .u3] := by
    rcases hms with e | e <;> rw [e]
    · exact hout
    · decide
  exact {
    disabled := fun hoff => absurd hoff (by simp [hon', hout'])
    guarded := fun _ => hon'
    active := fun _ _ => hctrl ▸ hst.active (hstarted ▸ hon') hout
    emptied := fun hu3 => absurd hout' (by simp [hu3]) }

/-- Outside a `begin`, a micro-step that leaves the enables and the receive register alone keeps the discipline if it enters
no label of `begin`, and a label of another transport operation only on a started transport. -/
theorem startedOk_of_kept (hst : s.StartedOk) (hout : s.fg.ms ∉ [Label.u1, .u2, .u3])
    (hctrl : t.uh.ctrl = s.uh.ctrl) (hfifo : t.uh.rxFifo = s.uh.rxFifo) (hstarted : t.ut.started = s.ut.started)
    (hout' : t.fg.ms ∉ [Label.u1, .u2, .u3])
    (hguard : t.fg.ms ∈ [Label.s1, .s2, .s3, .s4, .v1, .v2, .f1] → s.ut.started = true) : t.StartedOk where
  disabled hoff := hctrl ▸ hfifo ▸ hst.disabled (.inl (hstarted ▸ hoff.resolve_right hout'))
  guarded hms := hstarted ▸ hguard hms
  active hon _ := hctrl ▸ hst.active (hstarted ▸ hon) hout
  emptied hu3 := absurd hout' (by simp [hu3])

theorem MicroStep.startedOk (h : MicroStep s i t) (hst : s.StartedOk) : t.StartedOk := by
  cases h with
  | raised | polled => exact { hst with }
  | uartDisable => exact ⟨fun _ => ⟨rfl, rfl⟩, by simp, by simp, by simp⟩
  | uartSetDivisor v d hms =>
    have hoff := hst.disabled (.inr (by simp [hms]))
    exact ⟨fun _ => hoff, by simp, by simp, by simp⟩
  | uartResetRings v hms =>
    have hoff := hst.disabled (.inr (by simp [hms]))
    exact ⟨fun _ => hoff, by simp, by simp, fun _ => ⟨rfl, rfl, rfl, rfl, rfl⟩⟩
  | uartEnable => exact ⟨by simp, by simp, by simp, by simp⟩
  | sendRoom _ hms | sendStore _ hms | sendPublish _ _ hms | receiveByte hms =>
    have hon := hst.guarded (by simp [hms])
    exact startedOk_of_kept hst (by simp [hms]) rfl rfl rfl (by simp) fun _ => hon
  | sendPump _ hms =>
    have hon := hst.guarded (by simp [hms])
    exact startedOk_of_begun hst (by simp [hms, hon]) rfl (.inr rfl) rfl
  | sendNext _ hms hon | receiveHead hms hon | flushHead hms hon =>
    exact startedOk_of_kept hst (by simp [hms]) rfl rfl rfl (by simp) fun _ => hon
  | _ => exact startedOk_of_kept hst (by simp [*]) rfl rfl rfl (by simp) (by simp)

theorem OtherStep.startedOk (h : OtherStep s a t) (hst : s.StartedOk) : t.StartedOk := by
  cases h with
  | arrived _ _ hon | rxRefused _ _ hon | rxWrapped _ _ hon | rxStored _ _ hon | txIdled hon | txSent hon =>
    exact startedOk_of_begun hst (begun_of_enabled hst (by simp [hon])) rfl (.inl rfl) rfl
  | _ => exact { hst with }

/-- Settles O44: only `UART_BEGIN` turns the enables off and on, and what is enabled by them has no step in between. -/
theorem stepsKeepTheStartDiscipline : Obligations.StepsKeepTheStartDiscipline := by
  intro s t hinv h
  have hst := hinv.started.advance
  obtain ⟨-, rfl | ⟨-, rfl⟩ | ⟨i, -, hmicro⟩⟩ | ⟨-, hother⟩ := step_cases h
  · exact hst
  · exact { hst with }
  · exact hmicro.startedOk hst
  · exact hother.startedOk hst

end Sys2Proof.Machine
end

section
/-! No model fault can be produced from a state that meets the invariants (10_state.md R49, 20_memory.md R62). -/

namespace Sys2Proof.Machine

variable {i : Instr} {s : State}

theorem holdUntil_answers (P : Bool) {k : Result} (hk : ∃ t, k = .next t) : ∃ t, holdUntil P s k = .next t := by
  cases P
  · exact ⟨s, rfl⟩
  · exact hk

theorem busGuard_answers (op : Mnemonic) (ok : Bool) {k : Result} (hk : ∃ t, k = .next t) :
    ∃ t, busGuard op ok s k = .next t := by
  unfold busGuard
  split
  · exact ⟨_, rfl⟩
  · split
    · exact hk
    · exact ⟨_, rfl⟩

theorem uartGuard_answers (op : Mnemonic) {k : Result} (hk : ∃ t, k = .next t) : ∃ t, uartGuard op s k = .next t := by
  unfold uartGuard
  split
  · exact hk
  · exact ⟨_, rfl⟩

/-- At FETCH every command goes on or raises, in any state. -/
theorem exec_answers_at_fetch (h : s.fg.ms = .fetch) (i : Instr) : ∃ t, exec i s = .next t := by
  cases i with
  | busBegin v =>
    simp only [exec, execBusBegin, h]
    split
    · split <;> exact ⟨_, rfl⟩
    · exact ⟨_, rfl⟩
  | busBeginTx | busWrite | busRequestFrom | busRead | busEndTx =>
    simp only [exec, execBusBeginTx, execBusWrite, execBusRequestFrom, execBusRead, execBusEndTx, h]
    exact busGuard_answers _ _ ⟨_, rfl⟩
  | uartBegin v =>
    simp only [exec, execUartBegin, h]
    split <;> exact ⟨_, rfl⟩
  | uartSend | uartAvailable | uartFlush =>
    simp only [exec, execUartSend, execUartAvailable, execUartFlush, h]
    exact uartGuard_answers _ ⟨_, rfl⟩
  | uartReceive =>
    simp only [exec, execUartReceive, h]
    refine uartGuard_answers _ ?_
    split <;> exact ⟨_, rfl⟩
  | irqDisable | irqEnable => exact ⟨_, by simp only [exec, execIrqDisable, execIrqEnable, writeGie, h]; rfl⟩

/-- Inside a command of the bus engine nothing is read that could be missing. -/
theorem exec_answers_of_busOp (hbus : isBusOp i) (hl : s.fg.ms ∈ labelsOf i) : ∃ t, exec i s = .next t := by
  cases i with simp only [labelsOf, isBusOp, List.mem_cons, List.not_mem_nil, or_false] at hl hbus
  | busBeginTx a =>
    rcases hl with h | h | h | h <;> simp only [exec, execBusBeginTx, h]
    exacts [holdUntil_answers _ ⟨_, rfl⟩, ⟨_, rfl⟩, ⟨_, rfl⟩, holdUntil_answers _ ⟨_, rfl⟩]
  | busWrite d =>
    rcases hl with h | h <;> simp only [exec, execBusWrite, h]
    exacts [⟨_, rfl⟩, holdUntil_answers _ ⟨_, rfl⟩]
  | busRequestFrom a c =>
    rcases hl with h | h | h | h <;> simp only [exec, execBusRequestFrom, h]
    exacts [holdUntil_answers _ ⟨_, rfl⟩, ⟨_, rfl⟩, ⟨_, rfl⟩, holdUntil_answers _ ⟨_, rfl⟩]
  | busRead =>
    rcases hl with h | h <;> simp only [exec, execBusRead, h]
    · split <;> exact ⟨_, rfl⟩
    · exact holdUntil_answers _ ⟨_, rfl⟩
  | busEndTx =>
    simp only [exec, execBusEndTx, hl]
    exact holdUntil_answers _ ⟨_, rfl⟩

/-- Inside a command of the transport the position has the divisor, the locals and the slots that the label reads. -/
theorem exec_answers_of_transportOp (huart : isTransportOp i) (hs : s.Shaped) (hp : s.Positioned)
    (hcur : currentInstr s = some i) (hl : s.fg.ms ∈ labelsOf i) : ∃ t, exec i s = .next t := by
  cases i with simp only [labelsOf, isTransportOp, List.mem_cons, List.not_mem_nil, or_false] at hl huart
  | uartBegin v =>
    rcases hl with h | h | h <;> simp only [exec, execUartBegin, h]
    · obtain ⟨d, hd⟩ := Option.isSome_iff_exists.1 (hp.baud v h hcur)
      exact ⟨_, by rw [hd]⟩
    · exact ⟨_, rfl⟩
    · exact ⟨_, rfl⟩
  | uartSend d =>
    rcases hl with h | h | h | h <;> simp only [exec, execUartSend, h]
    · rw [hp.next (.inl h)]
      exact holdUntil_answers _ ⟨_, rfl⟩
    · rw [Ring.slotWrite_of_lt hs.tx.1]
      exact ⟨_, rfl⟩
    · rw [hp.next (.inr (.inr h))]
      exact ⟨_, rfl⟩
    · exact ⟨_, rfl⟩
  | uartReceive =>
    rcases hl with h | h <;> simp only [exec, execUartReceive, h]
    · rw [Ring.slotRead_of_lt hs.rx.2.1]
      exact ⟨_, rfl⟩
    · obtain ⟨b, hb⟩ := Option.isSome_iff_exists.1 (hp.byte h)
      exact ⟨_, by rw [hb]⟩
  | uartFlush =>
    simp only [exec, execUartFlush, hl]
    obtain ⟨k, hk, -⟩ := hp.snapshot hl
    exact ⟨_, by rw [hk]⟩

/-- A positioned foreground answers a next state at the label it stands at. -/
theorem exec_answers (hs : s.Shaped) (hp : s.Positioned) (hcur : currentInstr s = some i) : ∃ t, exec i s = .next t := by
  obtain hfetch | ⟨j, hj, hl⟩ := hp.label
  · exact exec_answers_at_fetch hfetch i
  · obtain rfl : j = i := Option.some.inj (hj.symm.trans hcur)
    cases j with
    | irqDisable | irqEnable => simp [labelsOf] at hl
    | busBegin | busBeginTx | busWrite | busRequestFrom | busRead | busEndTx => exact exec_answers_of_busOp trivial hl
    | _ => exact exec_answers_of_transportOp trivial hs hp hcur hl

theorem fgStep_answers (hs : s.Shaped) (hp : s.Positioned) : ∃ t, fgStep s = .next t := by
  unfold fgStep
  split
  · exact ⟨_, rfl⟩
  · split
    · exact exec_answers hs hp (by simp [currentInstr, *])
    · exact ⟨_, rfl⟩

theorem rxStore_answers (b : Byte) (h : s.ut.rx.head.toNat < s.params.capRx) : ∃ t, rxStore b s = .next t := by
  rw [rxStore, Ring.slotWrite_of_lt h]
  exact ⟨_, rfl⟩

theorem takeHandler_answers {body : State → Result} (h : ∃ u, body (enterHandler s) = .next u) :
    ∃ t, takeHandler body s = .next t := by
  obtain ⟨u, hu⟩ := h
  exact ⟨_, takeHandler_of_next hu⟩

theorem isrRx_answers (hs : s.Shaped) : ∃ t, isrRx s = .next t := by
  refine takeHandler_answers ?_
  unfold isrRxBody
  split
  · exact ⟨_, rfl⟩
  · dsimp only
    split
    · split
      · exact ⟨_, rfl⟩
      · exact rxStore_answers _ hs.rx.1
    · exact rxStore_answers _ hs.rx.1

theorem isrTx_answers (hs : s.Shaped) : ∃ t, isrTx s = .next t := by
  refine takeHandler_answers ?_
  unfold isrTxBody
  split
  · exact ⟨_, rfl⟩
  · rw [enterHandler_ut, enterHandler_params, Ring.slotRead_of_lt hs.tx.2.1]
    exact ⟨_, rfl⟩

theorem whenEnabled_answers (on : Bool) {k : Result} (hk : ∃ t, k = .next t) : ∃ t, whenEnabled on s k = .next t := by
  cases on
  · exact ⟨s, rfl⟩
  · exact hk

theorem agentStep_answers (hs : s.Shaped) (hp : s.Positioned) (a : AgentStep) : ∃ t, agentStep a s = .next t := by
  cases a with
  | fg => exact fgStep_answers hs hp
  | isrRx => exact whenEnabled_answers _ (isrRx_answers hs)
  | isrTx => exact whenEnabled_answers _ (isrTx_answers hs)
  | _ => exact whenEnabled_answers _ ⟨_, rfl⟩

/-- Settles O45: the foreground has what its label reads, and the handlers their slots in range. -/
theorem invariantStatesAlwaysStep : Obligations.InvariantStatesAlwaysStep := by
  intro s hinv hrun
  rw [step_of_running hrun]
  exact agentStep_answers hinv.shaped.advance hinv.positioned.advance _

end Sys2Proof.Machine
end

section
/-! What no rule reads (10_state.md R22, R28, R29, R31, R35, R37, R50, R125): erasing it before a step or after it gives the
same state, so two states that agree once it is erased step alike. -/

namespace Sys2Proof.Machine

variable {s t : State}

/-- The state with everything erased that no rule reads. -/
def State.eraseUnread (s : State) : State :=
  { s with
    be.addr := 0
    bh.div := 0
    bh.status := 0
    bh.trace := []
    uh.div := 0
    uh.hwOvr := 0
    wire.txOut := []
    fg.results := [] }

/-! ### What is not erased -/

@[simp] theorem eraseUnread_params (s : State) : s.eraseUnread.params = s.params := rfl
@[simp] theorem eraseUnread_ut (s : State) : s.eraseUnread.ut = s.ut := rfl
@[simp] theorem eraseUnread_fault (s : State) : s.eraseUnread.fault = s.fault := rfl
@[simp] theorem eraseUnread_refused (s : State) : s.eraseUnread.refused = s.refused := rfl
@[simp] theorem eraseUnread_bh_pending (s : State) : s.eraseUnread.bh.pending = s.bh.pending := rfl
@[simp] theorem eraseUnread_uh_rxFifo (s : State) : s.eraseUnread.uh.rxFifo = s.uh.rxFifo := rfl
@[simp] theorem eraseUnread_uh_txReg (s : State) : s.eraseUnread.uh.txReg = s.uh.txReg := rfl
@[simp] theorem eraseUnread_wire_rxIn (s : State) : s.eraseUnread.wire.rxIn = s.wire.rxIn := rfl
@[simp] theorem eraseUnread_fg_ms (s : State) : s.eraseUnread.fg.ms = s.fg.ms := rfl
@[simp] theorem eraseUnread_fg_n (s : State) : s.eraseUnread.fg.n = s.fg.n := rfl
@[simp] theorem eraseUnread_fg_h (s : State) : s.eraseUnread.fg.h = s.fg.h := rfl
@[simp] theorem eraseUnread_fg_b (s : State) : s.eraseUnread.fg.b = s.fg.b := rfl
@[simp] theorem eraseUnread_fetchWord (s : State) : fetchWord s.eraseUnread = fetchWord s := rfl

/-- `s` with what no rule reads taken from `u`: the right-hand side of `SameButUnread s u`. -/
def State.withUnreadOf (s u : State) : State :=
  { s with
    be.addr := u.be.addr
    bh.div := u.bh.div
    bh.status := u.bh.status
    bh.trace := u.bh.trace
    uh.div := u.uh.div
    uh.hwOvr := u.uh.hwOvr
    wire.txOut := u.wire.txOut
    fg.results := u.fg.results }

/-- Differing only in what no rule reads is being equal once it is erased: taking `t`'s own again gives `t` on one side and
`SameButUnread` on the other. -/
theorem sameButUnread_iff : SameButUnread s t ↔ s.eraseUnread = t.eraseUnread where
  mp h := by
    rw [h]
    rfl
  mpr h := (congrArg (State.withUnreadOf · t) h).symm

/-- The same of what a step answers. -/
def eraseResult : Result → Result
  | .next s => .next s.eraseUnread
  | .fault f => .fault f
  | .refused r => .refused r

/-- Two steps that agree once erased answer alike. -/
theorem answers_alike {r₁ r₂ : Result} (h : eraseResult r₁ = eraseResult r₂) :
    (∀ t₁, r₁ = .next t₁ → ∃ t₂, r₂ = .next t₂ ∧ SameButUnread t₁ t₂) ∧
      (∀ f, r₁ = .fault f → r₂ = .fault f) ∧ ∀ r, r₁ = .refused r → r₂ = .refused r := by
  cases r₁ with
  | next s₁ => cases r₂ <;> simp_all [eraseResult, sameButUnread_iff]
  | fault | refused => cases r₂ <;> simp_all [eraseResult]

/-! ### The shared operations read nothing erased -/

theorem eraseResult_holdUntil (P : Bool) {k k' : Result} (hk : eraseResult k' = eraseResult k) :
    eraseResult (holdUntil P s.eraseUnread k') = eraseResult (holdUntil P s k) := by
  cases P
  · rfl
  · exact hk

theorem eraseResult_whenEnabled (on : Bool) {k k' : Result} (hk : eraseResult k' = eraseResult k) :
    eraseResult (whenEnabled on s.eraseUnread k') = eraseResult (whenEnabled on s k) := by
  cases on
  · rfl
  · exact hk

theorem eraseResult_ite (P : Prop) [Decidable P] {k k' l l' : Result} (hk : eraseResult k' = eraseResult k)
    (hl : eraseResult l' = eraseResult l) : eraseResult (if P then k' else l') = eraseResult (if P then k else l) := by
  split
  · exact hk
  · exact hl

theorem eraseResult_busGuard (op : Mnemonic) (ok : Bool) {k k' : Result} (hk : eraseResult k' = eraseResult k) :
    eraseResult (busGuard op ok s.eraseUnread k') = eraseResult (busGuard op ok s k) :=
  eraseResult_ite _ rfl (eraseResult_ite _ hk rfl)

theorem eraseResult_uartGuard (op : Mnemonic) {k k' : Result} (hk : eraseResult k' = eraseResult k) :
    eraseResult (uartGuard op s.eraseUnread k') = eraseResult (uartGuard op s k) :=
  eraseResult_ite _ hk rfl

/-- A handler's entry and return pass on what its body answers. -/
theorem eraseResult_takeHandler {body : State → Result}
    (hbody : ∀ s : State, eraseResult (body s.eraseUnread) = eraseResult (body s)) (s : State) :
    eraseResult (takeHandler body s.eraseUnread) = eraseResult (takeHandler body s) := by
  have hpass : ∀ s : State,
      eraseResult (takeHandler body s) = takeHandler (fun _ => eraseResult (body (enterHandler s))) s := by
    intro s
    unfold takeHandler
    cases body (enterHandler s) <;> rfl
  rw [hpass, hpass, show enterHandler s.eraseUnread = (enterHandler s).eraseUnread from rfl, hbody]
  rfl

/-! ### The commands, by label -/

theorem eraseResult_execBusBegin (v : Val24) (s : State) :
    eraseResult (execBusBegin v s.eraseUnread) = eraseResult (execBusBegin v s) := by
  unfold execBusBegin
  rw [eraseUnread_fg_ms]
  cases s.fg.ms with
  | fetch =>
    refine eraseResult_ite _ ?_ rfl
    rw [eraseUnread_params]
    cases busDivisor s.params v <;> rfl
  | _ => rfl

theorem eraseResult_execBusBeginTx (a : Addr7) (s : State) :
    eraseResult (execBusBeginTx a s.eraseUnread) = eraseResult (execBusBeginTx a s) := by
  unfold execBusBeginTx
  rw [eraseUnread_fg_ms]
  cases s.fg.ms with
  | fetch => exact eraseResult_busGuard _ _ rfl
  | bt1 | bt4 => exact eraseResult_holdUntil _ rfl
  | _ => rfl

theorem eraseResult_execBusWrite (d : Byte) (s : State) :
    eraseResult (execBusWrite d s.eraseUnread) = eraseResult (execBusWrite d s) := by
  unfold execBusWrite
  rw [eraseUnread_fg_ms]
  cases s.fg.ms with
  | fetch => exact eraseResult_busGuard _ _ rfl
  | w2 => exact eraseResult_holdUntil _ rfl
  | _ => rfl

theorem eraseResult_execBusRequestFrom (a : Addr7) (c : Count) (s : State) :
    eraseResult (execBusRequestFrom a c s.eraseUnread) = eraseResult (execBusRequestFrom a c s) := by
  unfold execBusRequestFrom
  rw [eraseUnread_fg_ms]
  cases s.fg.ms with
  | fetch => exact eraseResult_busGuard _ _ rfl
  | rq1 | rq4 => exact eraseResult_holdUntil _ rfl
  | _ => rfl

theorem eraseResult_execBusRead (s : State) : eraseResult (execBusRead s.eraseUnread) = eraseResult (execBusRead s) := by
  unfold execBusRead
  rw [eraseUnread_fg_ms]
  cases s.fg.ms with
  | fetch => exact eraseResult_busGuard _ _ rfl
  | d1 => exact eraseResult_ite _ rfl rfl
  | d2 => exact eraseResult_holdUntil _ rfl
  | _ => rfl

theorem eraseResult_execBusEndTx (s : State) : eraseResult (execBusEndTx s.eraseUnread) = eraseResult (execBusEndTx s) := by
  unfold execBusEndTx
  rw [eraseUnread_fg_ms]
  cases s.fg.ms with
  | fetch => exact eraseResult_busGuard _ _ rfl
  | e1 => exact eraseResult_holdUntil _ rfl
  | _ => rfl

theorem eraseResult_execUartBegin (v : Val24) (s : State) :
    eraseResult (execUartBegin v s.eraseUnread) = eraseResult (execUartBegin v s) := by
  unfold execUartBegin
  rw [eraseUnread_fg_ms, eraseUnread_params]
  cases s.fg.ms with
  | fetch | u1 => cases uartDivisor s.params v <;> rfl
  | _ => rfl

theorem eraseResult_execUartSend (d : Byte) (s : State) :
    eraseResult (execUartSend d s.eraseUnread) = eraseResult (execUartSend d s) := by
  unfold execUartSend
  rw [eraseUnread_fg_ms, eraseUnread_fg_n]
  cases s.fg.ms with
  | fetch => exact eraseResult_uartGuard _ rfl
  | s1 =>
    cases s.fg.n with
    | none => rfl
    | some n => exact eraseResult_holdUntil _ rfl
  | s2 =>
    rw [eraseUnread_ut, eraseUnread_params]
    cases s.ut.tx.slotWrite s.params.capTx s.ut.tx.head d <;> rfl
  | s3 => cases s.fg.n <;> rfl
  | _ => rfl

theorem eraseResult_execUartAvailable (s : State) :
    eraseResult (execUartAvailable s.eraseUnread) = eraseResult (execUartAvailable s) := by
  unfold execUartAvailable
  rw [eraseUnread_fg_ms]
  cases s.fg.ms with
  | fetch => exact eraseResult_uartGuard _ rfl
  | _ => rfl

theorem eraseResult_execUartReceive (s : State) :
    eraseResult (execUartReceive s.eraseUnread) = eraseResult (execUartReceive s) := by
  unfold execUartReceive
  rw [eraseUnread_fg_ms, eraseUnread_ut, eraseUnread_params,
    eraseUnread_fg_b]
  cases s.fg.ms with
  | fetch => exact eraseResult_uartGuard _ (eraseResult_ite _ rfl rfl)
  | v1 => cases s.ut.rx.slotRead s.params.capRx s.ut.rx.tail <;> rfl
  | v2 => cases s.fg.b <;> rfl
  | _ => rfl

theorem eraseResult_execUartFlush (s : State) :
    eraseResult (execUartFlush s.eraseUnread) = eraseResult (execUartFlush s) := by
  unfold execUartFlush
  rw [eraseUnread_fg_ms, eraseUnread_fg_h]
  cases s.fg.ms with
  | fetch => exact eraseResult_uartGuard _ rfl
  | f1 => cases s.fg.h <;> rfl
  | _ => rfl

theorem eraseResult_writeGie (v : Bool) (s : State) :
    eraseResult (writeGie v s.eraseUnread) = eraseResult (writeGie v s) := by
  unfold writeGie
  rw [eraseUnread_fg_ms]
  cases s.fg.ms <;> rfl

theorem eraseResult_exec (i : Instr) (s : State) : eraseResult (exec i s.eraseUnread) = eraseResult (exec i s) := by
  cases i with
  | busBegin v => exact eraseResult_execBusBegin v s
  | busBeginTx a => exact eraseResult_execBusBeginTx a s
  | busWrite d => exact eraseResult_execBusWrite d s
  | busRequestFrom a c => exact eraseResult_execBusRequestFrom a c s
  | busRead => exact eraseResult_execBusRead s
  | busEndTx => exact eraseResult_execBusEndTx s
  | uartBegin v => exact eraseResult_execUartBegin v s
  | uartSend d => exact eraseResult_execUartSend d s
  | uartAvailable => exact eraseResult_execUartAvailable s
  | uartReceive => exact eraseResult_execUartReceive s
  | uartFlush => exact eraseResult_execUartFlush s
  | irqDisable => exact eraseResult_writeGie false s
  | irqEnable => exact eraseResult_writeGie true s

/-! ### The agents -/

theorem eraseResult_fgStep (s : State) : eraseResult (fgStep s.eraseUnread) = eraseResult (fgStep s) := by
  unfold fgStep
  rw [eraseUnread_fetchWord]
  cases fetchWord s with
  | none => rfl
  | some w =>
    cases hw : decodeWord w with
    | ok i => simpa only [hw] using eraseResult_exec i s
    | error e => simp only [hw]; rfl

theorem eraseUnread_busComplete (d status : Byte) (s : State) :
    (busComplete d status s.eraseUnread).eraseUnread = (busComplete d status s).eraseUnread := by
  unfold busComplete completion
  rw [eraseUnread_bh_pending]
  cases s.bh.pending <;> rfl

theorem eraseUnread_arrive (s : State) : (arrive s.eraseUnread).eraseUnread = (arrive s).eraseUnread := by
  unfold arrive
  rw [eraseUnread_wire_rxIn]
  cases s.wire.rxIn with
  | nil => rfl
  | cons b rest =>
    by_cases hroom : s.uh.rxFifo.length < s.params.rxHwDepth <;>
      simp only [eraseUnread_uh_rxFifo, eraseUnread_params, hroom, if_true, if_false] <;> rfl

theorem eraseUnread_shift (s : State) : (shift s.eraseUnread).eraseUnread = (shift s).eraseUnread := by
  unfold shift
  rw [eraseUnread_uh_txReg]
  cases s.uh.txReg <;> rfl

theorem eraseResult_rxStore (b : Byte) (s : State) :
    eraseResult (rxStore b s.eraseUnread) = eraseResult (rxStore b s) := by
  unfold rxStore
  rw [eraseUnread_ut, eraseUnread_params]
  cases s.ut.rx.slotWrite s.params.capRx s.ut.rx.head b <;> rfl

theorem eraseResult_isrRxBody (s : State) : eraseResult (isrRxBody s.eraseUnread) = eraseResult (isrRxBody s) := by
  unfold isrRxBody
  rw [eraseUnread_uh_rxFifo, eraseUnread_params]
  cases s.uh.rxFifo with
  | nil => rfl
  | cons b rest =>
    have hstore := eraseResult_rxStore b
    refine eraseResult_ite _ ?_ (hstore { s with uh.rxFifo := rest })
    cases s.params.rxPolicy with
    | dropNew => rfl
    | wrap => exact hstore { s with uh.rxFifo := rest, ut.rxOvf := bumpOvf s.params.ovfWidth s.ut.rxOvf }

theorem eraseResult_isrTxBody (s : State) : eraseResult (isrTxBody s.eraseUnread) = eraseResult (isrTxBody s) := by
  unfold isrTxBody
  refine eraseResult_ite _ rfl ?_
  rw [eraseUnread_ut, eraseUnread_params]
  cases s.ut.tx.slotRead s.params.capTx s.ut.tx.tail <;> rfl

theorem eraseResult_agentStep (a : AgentStep) (s : State) :
    eraseResult (agentStep a s.eraseUnread) = eraseResult (agentStep a s) := by
  cases a with
  | fg => exact eraseResult_fgStep s
  | busComplete d status =>
    exact eraseResult_whenEnabled _ (congrArg Host.Outcome.next (eraseUnread_busComplete d status s))
  | rxArrive => exact eraseResult_whenEnabled _ (congrArg Host.Outcome.next (eraseUnread_arrive s))
  | txShift => exact eraseResult_whenEnabled _ (congrArg Host.Outcome.next (eraseUnread_shift s))
  | busStopDone | rxDrop => exact eraseResult_whenEnabled _ rfl
  | isrRx => exact eraseResult_whenEnabled _ (eraseResult_takeHandler eraseResult_isrRxBody s)
  | isrTx => exact eraseResult_whenEnabled _ (eraseResult_takeHandler eraseResult_isrTxBody s)

theorem eraseResult_step (s : State) : eraseResult (step s.eraseUnread) = eraseResult (step s) := by
  unfold step
  rw [eraseUnread_fault, eraseUnread_refused]
  cases s.fault with
  | some r => rfl
  | none =>
    cases s.refused with
    | some k => rfl
    | none => exact eraseResult_agentStep (nextStep s) (advance s)

/-- Settles O53: both states step like the one with everything unread erased. -/
theorem unreadStateIsNeverRead : Obligations.UnreadStateIsNeverRead := by
  intro s₁ s₂ h
  refine answers_alike ?_
  rw [← eraseResult_step s₁, sameButUnread_iff.1 h, eraseResult_step s₂]

end Sys2Proof.Machine
end

section
/-! What a step can change: the command counter, the ring indices and storage, the observation lists and the open session
(10_state.md R24, R31, R36, R45, R48, R50). -/

namespace Sys2Proof.Machine

variable {i : Instr} {s t : State} {a : AgentStep}

/-! ### The command counter -/

/-- A micro-step ends its operation and counts it, stays inside it, or raises a fault. -/
theorem MicroStep.ends_or_stays (h : MicroStep s i t) :
    (t.fg.pc = s.fg.pc + 1 ∧ t.fg.ms = .fetch) ∨
      (t.fg.pc = s.fg.pc ∧ (t.fg.ms ≠ .fetch ∨ (s.fg.ms = .fetch ∧ t.fault ≠ none))) := by
  cases h with
  | raised _ _ hms => exact .inr ⟨rfl, .inr ⟨hms, by simp [State.withFault]⟩⟩
  | polled _ hheld => exact .inr ⟨rfl, .inl fun hms => by simp [not_held_of_fetch hms] at hheld⟩
  | busBegin | writeAddressed | written | readAddressed | read | stopped | uartEnable | sendPump | available | received
  | flushed | irqDisable | irqEnable => exact .inl ⟨rfl, rfl⟩
  | _ => exact .inr ⟨rfl, .inl (by simp)⟩

/-- Settles O46: only a micro-step moves the counter, at the end of its operation. -/
theorem pcAdvancesByOneOrStays : Obligations.PcAdvancesByOneOrStays := by
  refine ⟨fun _ => rfl, fun s t h => ?_, fun s t h hin hout => ?_, fun s t i h hfg hin hcur hout hfault => ?_,
    fun s hrun hend hfg => ?_⟩
  · obtain ⟨hfg, rfl | ⟨-, rfl⟩ | ⟨i, -, hmicro⟩⟩ | ⟨-, hother⟩ := step_cases h
    · exact .inl rfl
    · exact .inl rfl
    · exact hmicro.ends_or_stays.symm.imp (·.1) fun ⟨hpc, hms⟩ => ⟨hpc, hms, hfg⟩
    · exact .inl (congrArg Foreground.pc hother.foregroundKept.position)
  · obtain ⟨-, rfl | ⟨-, rfl⟩ | ⟨i, -, hmicro⟩⟩ | ⟨-, hother⟩ := step_cases h
    · exact absurd hout hin
    · exact absurd hout hin
    · obtain ⟨hpc, -⟩ | ⟨-, hms | ⟨hms, -⟩⟩ := hmicro.ends_or_stays
      exacts [hpc, absurd hout hms, absurd hms hin]
    · exact absurd (congrArg Foreground.ms hother.foregroundKept.position ▸ hout) hin
  · have hmicro : MicroStep (advance s) i t := by
      obtain ⟨-, -, h⟩ := step_next h
      rw [hfg] at h
      exact exec_next (fgStep_of_current (i := i) (s := advance s) hcur ▸ h)
    obtain ⟨hpc, -⟩ | ⟨-, hms | ⟨-, hraised⟩⟩ := hmicro.ends_or_stays
    exacts [hpc, absurd hout hms, absurd hfault hraised]
  · rw [step_of_running hrun, hfg]
    exact fgStep_of_finished (by simp [fgFinished, hend])

/-! ### The ring indices -/

/-- Which command writes which ring index, or U2 of `UART_BEGIN`. -/
theorem MicroStep.index_writer (h : MicroStep s i t) :
    s.fg.ms = .u2 ∨
      (t.ut.rx.head = s.ut.rx.head ∧ (t.ut.rx.tail = s.ut.rx.tail ∨ i = .uartReceive ∨ i = .uartFlush) ∧
        (t.ut.tx.head = s.ut.tx.head ∨ ∃ d, i = .uartSend d) ∧ t.ut.tx.tail = s.ut.tx.tail) := by
  cases h with
  | uartResetRings _ hms => exact .inl hms
  | sendPublish d => exact .inr ⟨rfl, .inl rfl, .inr ⟨d, rfl⟩, rfl⟩
  | received => exact .inr ⟨rfl, .inr (.inl rfl), .inl rfl, rfl⟩
  | flushed => exact .inr ⟨rfl, .inr (.inr rfl), .inl rfl, rfl⟩
  | _ => exact .inr ⟨rfl, .inl rfl, .inl rfl, rfl⟩

/-- Each handler moves its own end of its own ring. -/
theorem OtherStep.index_writer (h : OtherStep s a t) :
    (t.ut.rx.head = s.ut.rx.head ∨ a = .isrRx) ∧ (t.ut.tx.tail = s.ut.tx.tail ∨ a = .isrTx) := by
  cases h with
  | rxRefused | rxWrapped | rxStored => exact ⟨.inr rfl, .inl rfl⟩
  | txIdled | txSent => exact ⟨.inl rfl, .inr rfl⟩
  | _ => exact ⟨.inl rfl, .inl rfl⟩

/-- Settles O48: a micro-step or a handler writes the index, and at U2 the discipline of `begin` has both handlers off. -/
theorem eachRingIndexHasOneWriter : Obligations.EachRingIndexHasOneWriter := by
  intro s t hinv h
  have hoff : resetsRings s → enabled .isrRx s = false ∧ enabled .isrTx s = false := fun ⟨_, hms⟩ =>
    have hboth := not_enabled_of_disabled hinv.started (.inr (by simp [hms]))
    ⟨hboth.1, hboth.2.1⟩
  obtain ⟨hfg, rfl | ⟨-, rfl⟩ | ⟨i, hcur, hmicro⟩⟩ | ⟨-, hother⟩ := step_cases h
  · exact ⟨by simp, by simp, by simp, by simp, hoff⟩
  · exact ⟨by simp, by simp, by simp, by simp, hoff⟩
  · obtain hms | ⟨hrxHead, hrxTail, htxHead, htxTail⟩ := hmicro.index_writer
    · have hreset : resetsRings s := ⟨hfg, hms⟩
      exact ⟨fun _ => .inr hreset, fun _ => .inr hreset, fun _ => .inr hreset, fun _ => .inr hreset, hoff⟩
    · refine ⟨fun hne => absurd hrxHead hne, fun hne => ?_, fun hne => ?_, fun hne => absurd htxTail hne, hoff⟩
      · exact .inl ⟨hfg, (hrxTail.resolve_left hne).imp (hcur.trans <| congrArg some ·) (hcur.trans <| congrArg some ·)⟩
      · obtain ⟨d, rfl⟩ := htxHead.resolve_left hne
        exact .inl ⟨hfg, d, hcur⟩
  · obtain ⟨hrxHead, htxTail⟩ := hother.index_writer
    have hkept := hother.foregroundKept
    exact ⟨fun hne => .inl (hrxHead.resolve_left hne), fun hne => absurd hkept.rxTail hne,
      fun hne => absurd hkept.txHead hne, fun hne => .inl (htxTail.resolve_left hne), hoff⟩

/-! ### Ring storage -/

/-- No micro-step writes receive storage, and S2 of `UART_SEND` alone writes transmit storage, at the head. -/
theorem MicroStep.storage (h : MicroStep s i t) :
    t.ut.rx.buf = s.ut.rx.buf ∧
      (t.ut.tx.buf = s.ut.tx.buf ∧ (∀ d, i = .uartSend d → s.fg.ms ≠ .s2) ∨
        ∃ d, i = .uartSend d ∧ s.fg.ms = .s2 ∧ t.ut.tx.buf = s.ut.tx.buf.write s.ut.tx.head.toNat d) := by
  cases h with
  | sendStore d hms => exact ⟨rfl, .inr ⟨d, rfl, hms, rfl⟩⟩
  | polled _ hheld => exact ⟨rfl, .inl ⟨rfl, fun _ _ hms => by simp [held, hms] at hheld⟩⟩
  | _ => exact ⟨rfl, .inl ⟨rfl, by simp [*]⟩⟩

/-- Settles O49: what S2 writes is read back at the head and nowhere else. -/
theorem operationsStoreOnlyAtTheTransmitHead : Obligations.OperationsStoreOnlyAtTheTransmitHead := by
  intro i s t hs h
  obtain ⟨hrx, ⟨hkept, hnot⟩ | ⟨d, rfl, hms, hstored⟩⟩ := (exec_next h).storage
  · exact ⟨fun a => by rw [hrx], fun d hi hms => absurd hms (hnot d hi), fun _ a => by rw [hkept]⟩
  · refine ⟨fun a => by rw [hrx], fun d' hi _ a => ?_, fun hnot => absurd ⟨⟨d, rfl⟩, hms⟩ hnot⟩
    rw [hstored, Memory.read_write hs.tx.2.2.1, Instr.uartSend.inj hi]

/-! ### The observation lists -/

/-- A micro-step can add one result, and touches neither the bus trace nor the wire. -/
theorem MicroStep.observations (h : MicroStep s i t) :
    t.bh.trace = s.bh.trace ∧ t.wire = s.wire ∧
      (t.fg.results = s.fg.results ∨ ∃ b, t.fg.results = s.fg.results ++ [b]) := by
  cases h with
  | read | available | received => exact ⟨rfl, rfl, .inr ⟨_, rfl⟩⟩
  | _ => exact ⟨rfl, rfl, .inl rfl⟩

/-- The bus hardware adds one event, the transmitter one byte, and the receiver takes one byte. -/
theorem OtherStep.observations (h : OtherStep s a t) :
    (t.bh.trace = s.bh.trace ∨ (isBusHw a ∧ ∃ e, t.bh.trace = s.bh.trace ++ [e])) ∧
      (t.wire.txOut = s.wire.txOut ∨ (a = .txShift ∧ ∃ b, t.wire.txOut = s.wire.txOut ++ [b])) ∧
      (t.wire.rxIn = s.wire.rxIn ∨ ((a = .rxArrive ∨ a = .rxDrop) ∧ t.wire.rxIn = s.wire.rxIn.tail)) := by
  cases h with
  | busCompleted | busStopped => exact ⟨.inr ⟨trivial, _, rfl⟩, .inl rfl, .inl rfl⟩
  | arrived _ _ _ hin | overrun _ _ _ hin => exact ⟨.inl rfl, .inl rfl, .inr ⟨.inl rfl, by rw [hin]; rfl⟩⟩
  | dropped => exact ⟨.inl rfl, .inl rfl, .inr ⟨.inr rfl, rfl⟩⟩
  | shifted => exact ⟨.inl rfl, .inr ⟨rfl, _, rfl⟩, .inl rfl⟩
  | _ => exact ⟨.inl rfl, .inl rfl, .inl rfl⟩

/-- Settles O54: each list is one agent's. -/
theorem observationsOnlyGrow : Obligations.ObservationsOnlyGrow := by
  intro s t h
  obtain ⟨hfg, rfl | ⟨-, rfl⟩ | ⟨i, -, hmicro⟩⟩ | ⟨-, hother⟩ := step_cases h
  · exact ⟨.inl rfl, .inl rfl, .inl rfl, .inl rfl⟩
  · exact ⟨.inl rfl, .inl rfl, .inl rfl, .inl rfl⟩
  · obtain ⟨htrace, hwire, hresults⟩ := hmicro.observations
    exact ⟨.inl htrace, .inl (congrArg Wire.txOut hwire), hresults.imp_right fun hb => ⟨hfg, hb⟩,
      .inl (congrArg Wire.rxIn hwire)⟩
  · obtain ⟨htrace, htxOut, hrxIn⟩ := hother.observations
    exact ⟨htrace, htxOut, .inl (congrArg Foreground.results hother.foregroundKept.position), hrxIn⟩

/-! ### The open session -/

/-- A session is open in every phase but `OFF` and `IDLE` (10_state.md R24). -/
theorem sessionOpen_iff (p : Phase) : p.sessionOpen ↔ p ≠ .off ∧ p ≠ .idle := by
  cases p <;> simp [Phase.sessionOpen]

theorem Phase.writing.sessionOpen {p : Phase} (h : p.writing) : p.sessionOpen := by
  rcases h with rfl | rfl <;> simp [Phase.sessionOpen]

theorem Phase.reading.sessionOpen {p : Phase} (h : p.reading) : p.sessionOpen := by
  rcases h with rfl | rfl <;> simp [Phase.sessionOpen]

/-- What a micro-step does with the session, where the engine is at its label: it opens one at BT1 or RQ1, closes it at E1,
or leaves it as open as it was. -/
theorem MicroStep.session (h : MicroStep s i t) (hbus : s.busAt) :
    (t.be.phase.sessionOpen ↔ s.be.phase.sessionOpen) ∨
      (s.be.phase = .idle ∧ t.be.phase = .started ∧ ((∃ a, i = .busBeginTx a) ∨ ∃ a c, i = .busRequestFrom a c)) ∨
      (i = .busEndTx ∧ t.be.phase = .idle) := by
  cases h with
  | busBegin _ _ _ hphase => exact .inl (by rcases hphase with e | e <;> simp [sessionOpen_iff, e])
  | writeStarted a hms =>
    simp only [State.busAt, hms] at hbus
    exact .inr (.inl ⟨hbus.1, rfl, .inl ⟨a, rfl⟩⟩)
  | readStarted a c hms =>
    simp only [State.busAt, hms] at hbus
    exact .inr (.inl ⟨hbus.1, rfl, .inr ⟨a, c, rfl⟩⟩)
  | writeAddressed _ hms | readAddressed _ _ hms =>
    simp only [State.busAt, hms] at hbus
    exact .inl (by simp [sessionOpen_iff, hbus.1])
  | written _ hms =>
    simp only [State.busAt, hms] at hbus
    exact .inl (iff_of_true (by simp [sessionOpen_iff]) hbus.1.sessionOpen)
  | read hms =>
    simp only [State.busAt, hms] at hbus
    exact .inl (iff_of_true (by simp [sessionOpen_iff]) hbus.1.sessionOpen)
  | stopTrigger _ hphase =>
    exact .inl (iff_of_true (by simp [sessionOpen_iff]) (hphase.elim (·.sessionOpen) (·.sessionOpen)))
  | stopped => exact .inr (.inr ⟨rfl, rfl⟩)
  | _ => exact .inl Iff.rfl

/-- A step that opens or closes a session is a micro-step of the current command. -/
theorem micro_of_session_changes (h : step s = .next t) (hne : ¬(t.be.phase.sessionOpen ↔ s.be.phase.sessionOpen)) :
    nextStep s = .fg ∧ ∃ i, currentInstr s = some i ∧ MicroStep (advance s) i t := by
  obtain ⟨hfg, rfl | ⟨-, rfl⟩ | hmicro⟩ | ⟨-, hother⟩ := step_cases h
  · exact absurd Iff.rfl hne
  · exact absurd Iff.rfl hne
  · exact ⟨hfg, hmicro⟩
  · exact absurd (by rw [hother.foregroundKept.session]; rfl) hne

/-- In an open session both opening operations fail their phase guard. -/
theorem opening_faults (hms : s.fg.ms = .fetch) (hopen : s.be.phase.sessionOpen) (a : Addr7) (c : Count) :
    exec (.busBeginTx a) s = .next (s.withFault (.protocolSequenceError .BUS_BEGIN_TX s.be.phase s.be.remaining)) ∧
      exec (.busRequestFrom a c) s =
        .next (s.withFault (.protocolSequenceError .BUS_REQUEST_FROM s.be.phase s.be.remaining)) := by
  obtain ⟨hoff, hidle⟩ := (sessionOpen_iff _).1 hopen
  simp [exec, execBusBeginTx, execBusRequestFrom, hms, busGuard, hoff, hidle]

/-- Settles O55: of the micro-steps BT1 and RQ1 open a session, from `IDLE`, and E1 closes it. -/
theorem sessionsOpenOnlyFromIdle : Obligations.SessionsOpenOnlyFromIdle := by
  refine ⟨fun s t hinv h hshut hopen => ?_, fun s t hinv h hopen hshut => ?_,
    fun s a c hms hopen => opening_faults hms hopen a c⟩
  · obtain ⟨hfg, i, hcur, hmicro⟩ := micro_of_session_changes h (by simp [hshut, hopen])
    obtain hsame | ⟨hidle, -, ⟨a, rfl⟩ | ⟨a, c, rfl⟩⟩ | ⟨-, hidle⟩ := hmicro.session hinv.session.engine
    · exact absurd (hsame.1 hopen) hshut
    · exact ⟨hidle, hfg, .inl ⟨a, hcur⟩⟩
    · exact ⟨hidle, hfg, .inr ⟨a, c, hcur⟩⟩
    · simp [sessionOpen_iff, hidle] at hopen
  · obtain ⟨hfg, i, hcur, hmicro⟩ := micro_of_session_changes h (by simp [hshut, hopen])
    obtain hsame | ⟨hidle, -, -⟩ | ⟨rfl, hidle⟩ := hmicro.session hinv.session.engine
    · exact absurd (hsame.2 hopen) hshut
    · exact absurd hidle ((sessionOpen_iff _).1 hopen).2
    · exact ⟨hfg, hcur, hidle⟩

end Sys2Proof.Machine
end

section
/-! Ring index arithmetic (10_state.md R44), the bus control register (R40), and the state after reset (R53, R282). -/

namespace Sys2Proof.Machine

/-- The count with the capacity in place of the 256 of the index type: they differ by a multiple of the capacity. -/
theorem count_eq_mod_cap {width cap : Nat} (hcap : CapacityOk cap) (hw : cap ≤ 2 ^ width) {r : Ring}
    (htail : r.tail.toNat < cap) : (r.count (mask width cap)).toNat = (cap + r.head.toNat - r.tail.toNat) % cap := by
  have hle := (capacity_pos hcap).2
  have hdvd : cap ∣ 256 := by
    have := mod_256_mod hcap 256
    exact Nat.dvd_of_mod_eq_zero (this ▸ by simp)
  have hsplit : 256 + r.head.toNat - r.tail.toNat = (256 - cap) + (cap + r.head.toNat - r.tail.toNat) := by omega
  rw [count_toNat hcap hw, hsplit, Nat.add_mod, Nat.mod_eq_zero_of_dvd (Nat.dvd_sub hdvd dvd_rfl), Nat.zero_add, Nat.mod_mod]

/-- Two indices in range are at most one turn apart. -/
theorem distance_mod {cap h t : Nat} (hh : h < cap) (ht : t < cap) :
    (cap + h - t) % cap = if t ≤ h then h - t else cap + h - t := by
  split
  · rw [show cap + h - t = h - t + cap by omega, Nat.add_mod_right, Nat.mod_eq_of_lt (by omega)]
  · exact Nat.mod_eq_of_lt (by omega)

/-- The slot after an index in range wraps at the capacity. -/
theorem succ_mod {cap h : Nat} (hh : h < cap) : (h + 1) % cap = if h + 1 = cap then 0 else h + 1 := by
  split
  · simp [*]
  · exact Nat.mod_eq_of_lt (by omega)

/-- Settles O37: with both indices in range, every remainder is one of two values. -/
theorem ringArithmeticIsModuloCapacity : Obligations.RingArithmeticIsModuloCapacity := by
  intro width cap r hcap hw hhead htail
  have hcount := count_eq_mod_cap hcap hw htail
  have hnext := nextIdx_toNat hcap hw r.head
  have hempty : r.isEmpty = true ↔ r.head.toNat = r.tail.toNat := by rw [isEmpty_iff, BitVec.toNat_inj]
  have hfull : r.isFull (mask width cap) = true ↔ (r.head.toNat + 1) % cap = r.tail.toNat := by
    rw [isFull_iff, ← hnext, BitVec.toNat_inj]
  refine ⟨hcount, ?_, hnext, isEmpty_iff r, hempty.trans ?_, hfull, hfull.trans ?_⟩ <;>
    rw [hcount, distance_mod hhead htail]
  · split <;> omega
  · split <;> omega
  · rw [succ_mod hhead]
    split <;> split <;> omega

/-- Settles O35: each field of the control register by its own test. -/
theorem busControlWriteTriggers : Obligations.BusControlWriteTriggers := by
  intro S s kind
  refine ⟨rfl, rfl, fun hint => ?_, fun hint => ?_⟩
  · exact ⟨if_neg hint, if_neg hint⟩
  · rw [busCtrlWrite_bh_int, busCtrlWrite_bh_pending, if_pos hint, if_pos hint]
    unfold triggered
    refine ⟨rfl, fun hsta => if_pos hsta, fun hsta hsto => ?_, fun hsta hsto hk => ?_, fun hsta hsto hk => ?_,
      fun hsta hsto hk => ?_⟩ <;> rw [if_neg hsta]
    · exact if_pos hsto
    all_goals rw [if_neg hsto, hk]

/-- Settles O38: `State.launch` is the reset table. -/
theorem resetLeavesTheTabulatedState : Obligations.ResetLeavesTheTabulatedState := fun _ =>
  ⟨rfl, rfl, rfl, rfl, rfl, rfl, rfl, rfl, rfl, rfl, rfl⟩

/-! ### The invariants at reset -/

variable {l : Launch}

/-- Index 0 lies in every ring of an allowed capacity. -/
theorem zero_idx_lt {cap : Nat} (h : CapacityOk cap) : (0 : Idx).toNat < cap :=
  lt_of_lt_of_le Nat.two_pos (capacity_pos h).1

theorem launch_shaped (h : l.wf) : (State.launch l).Shaped where
  params := h.params
  rx := ⟨zero_idx_lt (wf_masks h.params).1.1, zero_idx_lt (wf_masks h.params).1.1, h.rxBuf⟩
  tx := ⟨zero_idx_lt (wf_masks h.params).2.1, zero_idx_lt (wf_masks h.params).2.1, h.txBuf⟩
  fifo := Nat.zero_le _
  div := h.uartDiv
  ovf := Nat.two_pow_pos _
  addr := Nat.two_pow_pos _
  remaining := Nat.two_pow_pos _

/-- Outside any session, with no phase in flight and every control field 0. -/
theorem launch_sessionOk (l : Launch) : (State.launch l).SessionOk where
  engine := ⟨rfl, .inl ⟨.inl rfl, rfl⟩⟩
  ctrl := rfl

/-- Every UART enable is 0 and nothing is started. -/
theorem launch_startedOk (l : Launch) : (State.launch l).StartedOk where
  disabled _ := ⟨rfl, rfl⟩
  guarded h := by simp [State.launch] at h
  active h := by simp [State.launch] at h
  emptied h := by simp [State.launch] at h

theorem launch_inv (h : l.wf) : (State.launch l).Inv where
  shaped := launch_shaped h
  positioned := positioned_of_fetch rfl
  session := launch_sessionOk l
  pump := .inl ((isEmpty_iff _).2 rfl)
  started := launch_startedOk l

theorem launch_plain_wf : Launch.plain.wf where
  params := by decide
  rxBuf := by decide
  txBuf := by decide
  uartDiv := by decide

/-- Settles O40: the model's reset is a well-formed launch. -/
theorem launchMeetsTheInvariants : Obligations.LaunchMeetsTheInvariants :=
  ⟨fun _ h => launch_inv h, launch_inv launch_plain_wf⟩

end Sys2Proof.Machine
end

section
/-! What no step writes, and the stores of the agents other than the foreground (20_memory.md R61, R79). -/

namespace Sys2Proof.Machine

variable {i : Instr} {s t : State} {a : AgentStep}

/-- No micro-step writes the launch's program or its parameters (R79). -/
theorem MicroStep.launchKept (h : MicroStep s i t) : t.program = s.program ∧ t.params = s.params := by
  cases h <;> exact ⟨rfl, rfl⟩

/-- Settles O47: a step moves the schedule, sets the refusal mark, or is an agent's, and none of these writes them. -/
theorem programAndParametersNeverChange : Obligations.ProgramAndParametersNeverChange := by
  intro s t h
  obtain ⟨-, rfl | ⟨-, rfl⟩ | ⟨i, -, hmicro⟩⟩ | ⟨-, hother⟩ := step_cases h
  · exact ⟨rfl, rfl⟩
  · exact ⟨rfl, rfl⟩
  · exact hmicro.launchKept
  · exact ⟨hother.foregroundKept.program, hother.foregroundKept.params⟩

/-- Of the other agents only a storing `ISR_RX` step writes receive storage or moves the receive head: it puts the byte it
pops at the old head (R180). -/
theorem OtherStep.rxStorage (h : OtherStep s a t) :
    (t.ut.rx.buf = s.ut.rx.buf ∧ t.ut.rx.head = s.ut.rx.head) ∨
      (a = .isrRx ∧ ∃ b rest, s.uh.rxFifo = b :: rest ∧ t.ut.rx.buf = s.ut.rx.buf.write s.ut.rx.head.toNat b) := by
  cases h with
  | rxWrapped b rest _ hq | rxStored b rest _ hq => exact .inr ⟨rfl, b, rest, hq, rfl⟩
  | _ => exact .inl ⟨rfl, rfl⟩

/-- Settles O50: what `ISR_RX` stores is read back at the receive head and nowhere else. -/
theorem otherAgentsStoreOnlyAtTheReceiveHead : Obligations.OtherAgentsStoreOnlyAtTheReceiveHead := by
  intro a s t hs ha h
  have hother : OtherStep s a t := agentStep_other ha h
  refine ⟨fun k => by rw [hother.foregroundKept.txBuf], ?_⟩
  obtain ⟨hbuf, hhead⟩ | ⟨rfl, b, rest, hq, hstored⟩ := hother.rxStorage
  · exact ⟨fun k _ => by rw [hbuf], fun hmoved => absurd hhead hmoved⟩
  · have hread (k : Nat) : t.ut.rx.buf.read k = if k = s.ut.rx.head.toNat then b else s.ut.rx.buf.read k := by
      obtain ⟨-, -, hwf, -⟩ := hs.rx
      rw [hstored, Memory.read_write hwf]
    refine ⟨fun k hk => ?_, fun _ => ⟨b, rest, hq, ?_⟩⟩
    · rw [hread, if_neg (hk.resolve_right (not_not_intro rfl))]
    · rw [hread, if_pos rfl]

end Sys2Proof.Machine
end

section
/-! The encoding as a table over the mnemonics: op byte, format and operand fields (30_encoding.md R92, R93, R95, R105).
`decodeWord_ok_iff` ties the table to the decoder; encoder, opcode map and reserved bits follow from it. -/

namespace Sys2Proof

variable {w : Word} {i : Instr} {m : Mnemonic}

/-! ### The table -/

/-- The five formats of R92. -/
inductive WordFormat where
  | N
  | BY
  | AD
  | AC
  | V24

/-- Column "format" of R95. -/
def Mnemonic.format : Mnemonic → WordFormat
  | .BUS_BEGIN | .UART_BEGIN => .V24
  | .BUS_BEGIN_TX => .AD
  | .BUS_WRITE | .UART_SEND => .BY
  | .BUS_REQUEST_FROM => .AC
  | .BUS_READ | .BUS_END_TX | .UART_AVAILABLE | .UART_RECEIVE | .UART_FLUSH | .IRQ_DISABLE | .IRQ_ENABLE => .N

/-- Column "op" of R95. -/
def Mnemonic.op : Mnemonic → Byte
  | .BUS_BEGIN => 0x10
  | .BUS_BEGIN_TX => 0x11
  | .BUS_WRITE => 0x12
  | .BUS_REQUEST_FROM => 0x13
  | .BUS_READ => 0x14
  | .BUS_END_TX => 0x15
  | .UART_BEGIN => 0x20
  | .UART_SEND => 0x21
  | .UART_AVAILABLE => 0x22
  | .UART_RECEIVE => 0x23
  | .UART_FLUSH => 0x24
  | .IRQ_DISABLE => 0x30
  | .IRQ_ENABLE => 0x31

/-- The row's instruction with its operands taken from their fields of the word (R92, R93). -/
def Mnemonic.read (w : Word) : Mnemonic → Instr
  | .BUS_BEGIN => .busBegin (valueField w)
  | .BUS_BEGIN_TX => .busBeginTx (addrField w)
  | .BUS_WRITE => .busWrite (byteField w)
  | .BUS_REQUEST_FROM => .busRequestFrom (addrField w) (countField w)
  | .BUS_READ => .busRead
  | .BUS_END_TX => .busEndTx
  | .UART_BEGIN => .uartBegin (valueField w)
  | .UART_SEND => .uartSend (byteField w)
  | .UART_AVAILABLE => .uartAvailable
  | .UART_RECEIVE => .uartReceive
  | .UART_FLUSH => .uartFlush
  | .IRQ_DISABLE => .irqDisable
  | .IRQ_ENABLE => .irqEnable

/-- The word's reserved bits are zero (R105). -/
def WordFormat.reservedZero (w : Word) : WordFormat → Bool
  | .N => reservedN w
  | .BY => reservedBY w
  | .AD => reservedAD w
  | .AC => reservedAC w
  | .V24 => true

/-- The reserved bits, as a mask on bits 23:0 (R105). -/
def WordFormat.reservedMask : WordFormat → BitVec 24
  | .N => 0xFFFFFF
  | .BY => 0x00FFFF
  | .AD => 0x80FFFF
  | .AC => 0x80FF00
  | .V24 => 0

@[simp] theorem Mnemonic.mnemonic_read (m : Mnemonic) (w : Word) : (m.read w).mnemonic = m := by
  cases m <;> rfl

/-! ### The decoder reads the table -/

theorem accept_ok_iff {reserved : Bool} {j : Instr} : accept w reserved i = .ok j ↔ reserved = true ∧ i = j := by
  cases reserved <;> simp [accept]

/-- With a row's op byte the decoder checks the row's reserved bits and reads the row's operands. -/
theorem decodeWord_of_op (h : opField w = m.op) : decodeWord w = accept w (m.format.reservedZero w) (m.read w) := by
  cases m <;> simp only [Mnemonic.op] at h <;> simp [decodeWord, h] <;> rfl

theorem decodeWord_of_no_op (h : ∀ m : Mnemonic, opField w ≠ m.op) :
    decodeWord w = .error (.unassignedOpcode (opField w)) := by
  unfold decodeWord
  exact (if_neg (h .BUS_BEGIN)).trans <| (if_neg (h .BUS_BEGIN_TX)).trans <| (if_neg (h .BUS_WRITE)).trans <|
    (if_neg (h .BUS_REQUEST_FROM)).trans <| (if_neg (h .BUS_READ)).trans <| (if_neg (h .BUS_END_TX)).trans <|
    (if_neg (h .UART_BEGIN)).trans <| (if_neg (h .UART_SEND)).trans <| (if_neg (h .UART_AVAILABLE)).trans <|
    (if_neg (h .UART_RECEIVE)).trans <| (if_neg (h .UART_FLUSH)).trans <| (if_neg (h .IRQ_DISABLE)).trans <|
    if_neg (h .IRQ_ENABLE)

/-- A word decodes to an instruction exactly when its op byte, reserved bits and operand fields are those of the
instruction's row. -/
theorem decodeWord_ok_iff :
    decodeWord w = .ok i ↔
      opField w = i.mnemonic.op ∧ i.mnemonic.format.reservedZero w = true ∧ i.mnemonic.read w = i := by
  constructor
  · intro h
    by_cases hop : ∃ m : Mnemonic, opField w = m.op
    · obtain ⟨m, hop⟩ := hop
      rw [decodeWord_of_op hop, accept_ok_iff] at h
      obtain ⟨hres, rfl⟩ := h
      simpa using ⟨hop, hres⟩
    · simp [decodeWord_of_no_op (not_exists.1 hop)] at h
  · rintro ⟨hop, h⟩
    rw [decodeWord_of_op hop, accept_ok_iff]
    exact h

theorem decodes_iff_reservedZero (hop : opField w = m.op) :
    (∃ i, decodeWord w = .ok i) ↔ m.format.reservedZero w = true := by
  simp [decodeWord_of_op hop, accept_ok_iff]

theorem decodes_as_iff :
    (∃ i, decodeWord w = .ok i ∧ i.mnemonic = m) ↔ opField w = m.op ∧ m.format.reservedZero w = true := by
  constructor
  · rintro ⟨i, hi, rfl⟩
    obtain ⟨hop, hres, -⟩ := decodeWord_ok_iff.1 hi
    exact ⟨hop, hres⟩
  · rintro ⟨hop, hres⟩
    exact ⟨m.read w, by simp [decodeWord_ok_iff, hop, hres], m.mnemonic_read w⟩

end Sys2Proof
end

section
/-! A word as its fields, the reserved bits and the opcode map as masks (30_encoding.md R92, R95, R104, R105). -/

namespace Sys2Proof

variable {w : Word} {m : Mnemonic}

/-! ### The fields of a word -/

theorem word_V24 (w : Word) : opField w ++ valueField w = w := by
  simp only [opField, valueField, BitVec.extractLsb'_append_extractLsb'_eq_extractLsb']
  exact BitVec.extractLsb'_eq_self

theorem word_BY (w : Word) : opField w ++ byteField w ++ w.extractLsb' 0 16 = w := by
  simp only [opField, byteField, BitVec.extractLsb'_append_extractLsb'_eq_extractLsb']
  exact BitVec.extractLsb'_eq_self

theorem word_AD (w : Word) : opField w ++ w.extractLsb' 23 1 ++ addrField w ++ w.extractLsb' 0 16 = w := by
  simp only [opField, addrField, BitVec.extractLsb'_append_extractLsb'_eq_extractLsb']
  exact BitVec.extractLsb'_eq_self

theorem word_AC (w : Word) :
    opField w ++ w.extractLsb' 23 1 ++ addrField w ++ w.extractLsb' 8 8 ++ countField w = w := by
  simp only [opField, addrField, countField, BitVec.extractLsb'_append_extractLsb'_eq_extractLsb']
  exact BitVec.extractLsb'_eq_self

theorem reservedN_iff : reservedN w = true ↔ valueField w = 0 := decide_eq_true_iff

theorem reservedBY_iff : reservedBY w = true ↔ w.extractLsb' 0 16 = 0 := decide_eq_true_iff

theorem reservedAD_iff : reservedAD w = true ↔ w.extractLsb' 23 1 = 0 ∧ w.extractLsb' 0 16 = 0 := by
  simp [reservedAD]

theorem reservedAC_iff : reservedAC w = true ↔ w.extractLsb' 23 1 = 0 ∧ w.extractLsb' 8 8 = 0 := by
  simp [reservedAC]

/-! ### Reserved bits as masks -/

/-- A mask that is one run of ones tests the field it covers. -/
theorem valueField_and_eq_zero {mask : BitVec 24} {lo len : Nat} (hle : lo + len ≤ 24)
    (hmask : ∀ k < 24, mask.getLsbD k = decide (lo ≤ k ∧ k < lo + len)) :
    valueField w &&& mask = 0 ↔ w.extractLsb' lo len = 0 := by
  have hbit (k : Nat) (hk : k < 24) :
      (valueField w &&& mask).getLsbD k = (w.getLsbD k && decide (lo ≤ k ∧ k < lo + len)) := by
    rw [BitVec.getLsbD_and, hmask k hk, valueField, BitVec.getLsbD_extractLsb']
    simp [hk]
  rw [BitVec.eq_of_getLsbD_eq_iff, BitVec.eq_of_getLsbD_eq_iff]
  constructor
  · intro h k hk
    have hzero := h (lo + k) (by omega)
    rw [hbit _ (by omega)] at hzero
    simpa [hk] using hzero
  · intro h k hk
    rw [hbit k hk]
    by_cases hin : lo ≤ k ∧ k < lo + len
    · have hzero := h (k - lo) (by omega)
      simpa [show k - lo < len by omega, show lo + (k - lo) = k by omega, hin] using hzero
    · simp [hin]

theorem WordFormat.reservedZero_iff (f : WordFormat) : f.reservedZero w = true ↔ valueField w &&& f.reservedMask = 0 := by
  have h23 : valueField w &&& 0x800000 = 0 ↔ w.extractLsb' 23 1 = 0 := valueField_and_eq_zero (by decide) (by decide)
  have hlow : valueField w &&& 0x00FFFF = 0 ↔ w.extractLsb' 0 16 = 0 := valueField_and_eq_zero (by decide) (by decide)
  have hmid : valueField w &&& 0x00FF00 = 0 ↔ w.extractLsb' 8 8 = 0 := valueField_and_eq_zero (by decide) (by decide)
  cases f with
  | N =>
    have hall : valueField w &&& WordFormat.N.reservedMask = valueField w := BitVec.and_allOnes
    rw [hall]
    exact reservedN_iff
  | BY => exact reservedBY_iff.trans hlow.symm
  | AD =>
    have hsplit : WordFormat.AD.reservedMask = 0x800000 ||| 0x00FFFF := rfl
    rw [hsplit, BitVec.and_or_distrib_left]
    exact reservedAD_iff.trans ((and_congr h23 hlow).symm.trans BitVec.or_eq_zero_iff.symm)
  | AC =>
    have hsplit : WordFormat.AC.reservedMask = 0x800000 ||| 0x00FF00 := rfl
    rw [hsplit, BitVec.and_or_distrib_left]
    exact reservedAC_iff.trans ((and_congr h23 hmid).symm.trans BitVec.or_eq_zero_iff.symm)
  | V24 => exact iff_of_true rfl BitVec.and_zero

/-! ### Masks on the whole word -/

theorem append_eq_append_iff {m n : Nat} {x x' : BitVec m} {y y' : BitVec n} :
    x ++ y = x' ++ y' ↔ x = x' ∧ y = y' := by
  constructor
  · intro h
    constructor
    · rw [← BitVec.extractLsb'_append_eq_left (a := x) (b := y), h, BitVec.extractLsb'_append_eq_left]
    · rw [← BitVec.extractLsb'_append_eq_right (a := x) (b := y), h, BitVec.extractLsb'_append_eq_right]
  · rintro ⟨rfl, rfl⟩
    rfl

/-- A mask on the whole word is one on the op byte and one on bits 23:0. -/
theorem and_append_eq_iff {k b : Byte} {n : BitVec 24} :
    w &&& (k ++ n) = b ++ 0#24 ↔ opField w &&& k = b ∧ valueField w &&& n = 0 := by
  have hsplit : w &&& (k ++ n) = (opField w &&& k) ++ (valueField w &&& n) := by
    rw [← BitVec.and_append, word_V24]
  rw [hsplit]
  exact append_eq_append_iff

/-- Columns "match" and "mask" of R95: every mask covers the op byte, and below it the reserved bits of the format. -/
theorem opcodeMap_row {r : OpRow} (hr : r ∈ opcodeMap) :
    r.pattern = r.mnemonic.op ++ 0#24 ∧ r.mask = 0xFF#8 ++ r.mnemonic.format.reservedMask := by
  revert r
  decide

theorem OpRow.spells_iff {r : OpRow} (hr : r ∈ opcodeMap) :
    r.Spells w ↔ opField w = r.mnemonic.op ∧ r.mnemonic.format.reservedZero w = true := by
  obtain ⟨hpattern, hmask⟩ := opcodeMap_row hr
  have hall : opField w &&& 0xFF = opField w := BitVec.and_allOnes
  rw [OpRow.Spells, hpattern, hmask, WordFormat.reservedZero_iff, ← hall]
  exact and_append_eq_iff

theorem and_reservedMask_iff :
    w &&& (0#8 ++ m.format.reservedMask) = 0 ↔ m.format.reservedZero w = true := by
  rw [WordFormat.reservedZero_iff]
  exact and_append_eq_iff.trans (and_iff_right BitVec.and_zero)

/-- R105 for the row of an op byte. -/
theorem reserved_iff_decodes (hop : opField w = m.op) :
    w &&& (0#8 ++ m.format.reservedMask) = 0 ↔ ∃ i, decodeWord w = .ok i :=
  and_reservedMask_iff.trans (decodes_iff_reservedZero hop).symm

/-- Settles O3: each op byte's row has the format whose reserved bits are asked for. -/
theorem reservedBitsMustBeZero : Obligations.ReservedBitsMustBeZero := by
  intro w
  refine ⟨fun hop => ?_, fun hop => ?_, fun hop => ?_, fun hop => ?_, fun hop => ?_⟩
  · simp only [List.mem_cons, List.not_mem_nil, or_false] at hop
    obtain hop | hop | hop | hop | hop | hop | hop := hop
    · exact reserved_iff_decodes (m := .BUS_READ) hop
    · exact reserved_iff_decodes (m := .BUS_END_TX) hop
    · exact reserved_iff_decodes (m := .UART_AVAILABLE) hop
    · exact reserved_iff_decodes (m := .UART_RECEIVE) hop
    · exact reserved_iff_decodes (m := .UART_FLUSH) hop
    · exact reserved_iff_decodes (m := .IRQ_DISABLE) hop
    · exact reserved_iff_decodes (m := .IRQ_ENABLE) hop
  · simp only [List.mem_cons, List.not_mem_nil, or_false] at hop
    obtain hop | hop := hop
    · exact reserved_iff_decodes (m := .BUS_WRITE) hop
    · exact reserved_iff_decodes (m := .UART_SEND) hop
  · exact reserved_iff_decodes (m := .BUS_BEGIN_TX) hop
  · exact reserved_iff_decodes (m := .BUS_REQUEST_FROM) hop
  · simp only [List.mem_cons, List.not_mem_nil, or_false] at hop
    obtain hop | hop := hop
    · exact (decodes_iff_reservedZero (m := .BUS_BEGIN) hop).2 rfl
    · exact (decodes_iff_reservedZero (m := .UART_BEGIN) hop).2 rfl

/-! ### The rows of the opcode map -/

theorem spells_iff_decodes_as {r : OpRow} (hr : r ∈ opcodeMap) :
    r.Spells w ↔ ∃ i, decodeWord w = .ok i ∧ i.mnemonic = r.mnemonic :=
  (OpRow.spells_iff hr).trans decodes_as_iff.symm

theorem row_eq_of_mnemonic {r₁ r₂ : OpRow} (h₁ : r₁ ∈ opcodeMap) (h₂ : r₂ ∈ opcodeMap)
    (h : r₁.mnemonic = r₂.mnemonic) : r₁ = r₂ := by
  have : ∀ r₁ ∈ opcodeMap, ∀ r₂ ∈ opcodeMap, r₁.mnemonic = r₂.mnemonic → r₁ = r₂ := by decide
  exact this r₁ h₁ r₂ h₂ h

theorem exists_row (m : Mnemonic) : ∃ r ∈ opcodeMap, r.mnemonic = m := by
  cases m <;> decide

theorem refused_iff_no_row : (∃ e, decodeWord w = .error e) ↔ ∀ r ∈ opcodeMap, ¬r.Spells w := by
  constructor
  · rintro ⟨e, he⟩ r hr hw
    obtain ⟨i, hi, -⟩ := (spells_iff_decodes_as hr).1 hw
    cases he.symm.trans hi
  · intro h
    cases hw : decodeWord w with
    | error e => exact ⟨e, rfl⟩
    | ok i =>
      obtain ⟨r, hr, hm⟩ := exists_row i.mnemonic
      exact absurd ((spells_iff_decodes_as hr).2 ⟨i, hw, hm.symm⟩) (h r hr)

/-- Settles O2: the mask test and the decoder ask for the same op byte and reserved bits, and a word has one verdict. -/
theorem spellingIsMaskAndMatch : Obligations.SpellingIsMaskAndMatch := by
  refine ⟨rfl, fun r hr w => spells_iff_decodes_as hr, fun r₁ h₁ r₂ h₂ w hw₁ hw₂ => ?_, fun i => exists_row i.mnemonic⟩
  obtain ⟨i, hi, hm₁⟩ := (spells_iff_decodes_as h₁).1 hw₁
  obtain ⟨j, hj, hm₂⟩ := (spells_iff_decodes_as h₂).1 hw₂
  obtain rfl : i = j := Except.ok.inj (hi.symm.trans hj)
  exact row_eq_of_mnemonic h₁ h₂ (hm₁.symm.trans hm₂)

/-- Settles O1 by running the decoder on the twenty-three words. -/
theorem writtenWordsDecode : Obligations.WrittenWordsDecode := by
  unfold Obligations.WrittenWordsDecode
  decide

end Sys2Proof
end

section
/-! Decode and encode agree (30_encoding.md R92, R93, R105, R107, R108). -/

namespace Sys2Proof

variable {w : Word} {i : Instr} {m : Mnemonic}

/-! ### The fields of an encoded word -/

/-- Every instruction's word spells its own row. -/
theorem encode_spells : ∀ i : Instr, Laws.SpellsItsRow.Statement i
  | .busBegin v => Laws.SpellsItsRow.busBegin v
  | .busBeginTx a => Laws.SpellsItsRow.busBeginTx a
  | .busWrite d => Laws.SpellsItsRow.busWrite d
  | .busRequestFrom a c => Laws.SpellsItsRow.busRequestFrom a c
  | .busRead => Laws.SpellsItsRow.busRead
  | .busEndTx => Laws.SpellsItsRow.busEndTx
  | .uartBegin v => Laws.SpellsItsRow.uartBegin v
  | .uartSend d => Laws.SpellsItsRow.uartSend d
  | .uartAvailable => Laws.SpellsItsRow.uartAvailable
  | .uartReceive => Laws.SpellsItsRow.uartReceive
  | .uartFlush => Laws.SpellsItsRow.uartFlush
  | .irqDisable => Laws.SpellsItsRow.irqDisable
  | .irqEnable => Laws.SpellsItsRow.irqEnable

theorem opField_reservedZero_encode (i : Instr) :
    opField (encode i) = i.mnemonic.op ∧ i.mnemonic.format.reservedZero (encode i) = true := by
  obtain ⟨r, hr, hm, hspells⟩ := encode_spells i
  rw [← hm]
  exact (OpRow.spells_iff hr).1 hspells

/-- The operand fields of an encoded word hold the operands. `Nat.reduceAdd` would rewrite the widths inside the appends,
after which the lemmas about appends no longer match. -/
theorem read_encode (i : Instr) : i.mnemonic.read (encode i) = i := by
  cases i <;> simp [-Nat.reduceAdd, encode, BitVec.extractLsb'_append_eq_of_le, BitVec.extractLsb'_append_eq_of_add_le,
    Instr.mnemonic, Mnemonic.read, valueField, addrField, byteField, countField]

theorem decodeWord_encode (i : Instr) : decodeWord (encode i) = .ok i := by
  obtain ⟨hop, hres⟩ := opField_reservedZero_encode i
  exact decodeWord_ok_iff.2 ⟨hop, hres, read_encode i⟩

/-! ### A decoded word put together again -/

/-- With the row's op byte and reserved bits zero, a word is put together again from its operand fields. -/
theorem encode_read (hop : opField w = m.op) (hres : m.format.reservedZero w = true) : encode (m.read w) = w := by
  cases m with
  | BUS_BEGIN | UART_BEGIN =>
    have hw := word_V24 w
    rw [hop] at hw
    exact hw
  | BUS_WRITE | UART_SEND =>
    have hw := word_BY w
    rw [hop, reservedBY_iff.1 hres] at hw
    exact hw
  | BUS_BEGIN_TX =>
    obtain ⟨h23, hlow⟩ := reservedAD_iff.1 hres
    have hw := word_AD w
    rw [hop, h23, hlow] at hw
    exact hw
  | BUS_REQUEST_FROM =>
    obtain ⟨h23, hmid⟩ := reservedAC_iff.1 hres
    have hw := word_AC w
    rw [hop, h23, hmid] at hw
    exact hw
  | _ =>
    have hw := word_V24 w
    rw [hop, reservedN_iff.1 hres] at hw
    exact hw

theorem encode_of_decodeWord (h : decodeWord w = .ok i) : encode i = w := by
  obtain ⟨hop, hres, hread⟩ := decodeWord_ok_iff.1 h
  rw [← hread]
  exact encode_read hop hres

/-! ### From the stored bytes -/

theorem wordOfBytes_wordBytes (w : Word) :
    wordOfBytes (w.extractLsb' 0 8) (w.extractLsb' 8 8) (w.extractLsb' 16 8) (w.extractLsb' 24 8) = w := by
  simp only [wordOfBytes, BitVec.extractLsb'_append_extractLsb'_eq_extractLsb']
  exact BitVec.extractLsb'_eq_self

theorem decode_wordBytes_append (w : Word) (rest : List Byte) :
    decode (wordBytes w ++ rest) = (decodeWord w).map (·, rest) := by
  simp only [wordBytes, List.cons_append, List.nil_append, decode, wordOfBytes_wordBytes]
  cases decodeWord w <;> rfl

/-- Settles O4: decoding asks of a word exactly what encoding puts there, the op byte, zero reserved bits and the operand
fields, which together are the whole word. -/
theorem decodeAndEncodeAgree : Obligations.DecodeAndEncodeAgree := by
  refine ⟨fun i rest => ⟨decodeWord_encode i, ?_⟩, fun w i => encode_of_decodeWord⟩
  rw [decode_wordBytes_append, decodeWord_encode]
  rfl

end Sys2Proof
end

section
/-! Programs stored as bytes (30_encoding.md R108). -/

namespace Sys2Proof

variable {w : Word}

theorem storeProgram_cons (w : Word) (ws : List Word) : storeProgram (w :: ws) = wordBytes w ++ storeProgram ws := rfl

theorem storeProgram_length (ws : List Word) : (storeProgram ws).length = 4 * ws.length := by
  induction ws with
  | nil => rfl
  | cons w ws ih =>
    rw [storeProgram_cons, List.length_append, ih, List.length_cons]
    simp only [wordBytes, List.length_cons, List.length_nil]
    omega

theorem storeProgram_getElem? {ws : List Word} {k : Nat} (h : ws[k]? = some w) {j : Nat} (hj : j < 4) :
    (storeProgram ws)[4 * k + j]? = (wordBytes w)[j]? := by
  induction ws generalizing k with
  | nil => simp at h
  | cons v ws ih =>
    rw [storeProgram_cons]
    cases k with
    | zero =>
      obtain rfl : v = w := by simpa using h
      rw [Nat.mul_zero, Nat.zero_add, List.getElem?_append_left hj]
    | succ k =>
      rw [show 4 * (k + 1) + j = 4 * k + j + 4 by omega]
      exact ih h

theorem loadProgram_storeProgram (ws : List Word) : loadProgram (storeProgram ws) = some ws := by
  induction ws with
  | nil => rfl
  | cons w ws ih =>
    rw [storeProgram_cons]
    simp only [wordBytes, List.cons_append, List.nil_append, loadProgram, wordOfBytes_wordBytes, ih, Option.map_some]

/-- Settles O5: the bytes of word `k` start at `4 * k`. -/
theorem programsAreStoredLittleEndian : Obligations.ProgramsAreStoredLittleEndian := by
  refine fun ws => ⟨storeProgram_length ws, fun k w hk => ?_, loadProgram_storeProgram ws⟩
  have hbyte {j : Nat} : j < 4 → (storeProgram ws)[4 * k + j]? = (wordBytes w)[j]? := storeProgram_getElem? hk
  exact ⟨hbyte (j := 0) (by decide), hbyte (j := 1) (by decide), hbyte (j := 2) (by decide), hbyte (j := 3) (by decide)⟩

end Sys2Proof
end

section
/-! The refusal of a fetched word that spells no operation (30_encoding.md R104, 60_exceptions.md R240). -/

namespace Sys2Proof.Machine

variable {s : State} {w : Word} {e : DecodeError}

theorem fgStep_of_decode_error (hw : fetchWord s = some w) (he : decodeWord w = .error e) : fgStep s = refuse s := by
  simp only [fgStep, hw, he]

theorem still_of_not_running (h : running s = false) : s.still := by
  intro a
  cases a <;>
    simp [enabled, fgEnabled, busCompleteEnabled, busStopEnabled, arriveEnabled, dropEnabled, shiftEnabled, isrRxEnabled,
      isrTxEnabled, h]

/-- Settles O9: a word that matches no row is refused at its fetch, and the mark stops every agent. -/
theorem unspelledWordsAreRefused : Obligations.UnspelledWordsAreRefused := by
  refine ⟨fun w => refused_iff_no_row, fun s w e hrun hfg _ hw he => ?_, fun s k hfault hrefused => ⟨?_, ?_⟩⟩
  · rw [step_of_running hrun, hfg]
    exact fgStep_of_decode_error (by simpa using hw) he
  · simp only [step, hfault, hrefused]
  · exact still_of_not_running (by simp [running, hrefused])

end Sys2Proof.Machine
end

section
/-! The assembler row by row: the word of an accepted statement as a number, and what it decodes to (30_encoding.md R109,
R110, R112). -/

namespace Sys2Proof

/-! ### Words as numbers -/

theorem toNat_append_eq_add {m n : Nat} (x : BitVec m) (y : BitVec n) :
    (x ++ y).toNat = x.toNat * 2 ^ n + y.toNat := by
  rw [BitVec.toNat_append, ← Nat.shiftLeft_add_eq_or_of_lt y.isLt, Nat.shiftLeft_eq]

theorem word_V24_eq_ofNat (op : Byte) {v : Nat} (hv : v ≤ 0xFFFFFF) :
    op ++ BitVec.ofNat 24 v = BitVec.ofNat 32 (op.toNat * 2 ^ 24 + v) := by
  apply BitVec.eq_of_toNat_eq
  simp only [toNat_append_eq_add, BitVec.toNat_ofNat]
  omega

theorem word_BY_eq_ofNat (op : Byte) {d : Nat} (hd : d ≤ 0xFF) :
    op ++ BitVec.ofNat 8 d ++ 0#16 = BitVec.ofNat 32 (op.toNat * 2 ^ 24 + d * 2 ^ 16) := by
  apply BitVec.eq_of_toNat_eq
  simp only [toNat_append_eq_add, BitVec.toNat_ofNat]
  omega

theorem word_AD_eq_ofNat (op : Byte) {a : Nat} (ha : a ≤ 0x7F) :
    op ++ 0#1 ++ BitVec.ofNat 7 a ++ 0#16 = BitVec.ofNat 32 (op.toNat * 2 ^ 24 + a * 2 ^ 16) := by
  apply BitVec.eq_of_toNat_eq
  simp only [toNat_append_eq_add, BitVec.toNat_ofNat]
  omega

theorem word_AC_eq_ofNat (op : Byte) {a c : Nat} (ha : a ≤ 0x7F) (hc : c ≤ 255) :
    op ++ 0#1 ++ BitVec.ofNat 7 a ++ 0#8 ++ BitVec.ofNat 8 c =
      BitVec.ofNat 32 (op.toNat * 2 ^ 24 + a * 2 ^ 16 + c) := by
  apply BitVec.eq_of_toNat_eq
  simp only [toNat_append_eq_add, BitVec.toNat_ofNat]
  omega

theorem toNat_ofNat_of_le {n v b : Nat} (hv : v ≤ b) (hb : b < 2 ^ n) : (BitVec.ofNat n v).toNat = v :=
  Nat.mod_eq_of_lt (hv.trans_lt hb)

namespace Machine

variable {p : Config.Params} {st : Stmt} {i : Instr} {w : Word} {e : StmtError}

/-! ### Statements -/

theorem assembleStmt_of_wf (h : st.wf p) : assembleStmt p st = .ok ((rawInstrs st).map encode) := by
  simp only [assembleStmt, h]

theorem assembleStmt_of_problem (h : st.problem p = some e) : assembleStmt p st = .error e := by
  simp only [assembleStmt, h]

/-- An accepted statement of one instruction gives that instruction's word, which decodes to it. -/
theorem assembles_one (h : st.problem p = none) (hi : rawInstrs st = [i]) (hw : encode i = w) :
    assembleStmt p st = .ok [w] ∧ decodeWord w = .ok i := by
  subst hw
  exact ⟨by rw [assembleStmt_of_wf h, hi]; rfl, decodeWord_encode i⟩

/-- An accepted statement of format `V24`. -/
theorem assembles_V24 {op : Byte} {f : Val24 → Instr} {v : Nat} (hv : v ≤ 0xFFFFFF) (h : st.problem p = none)
    (hi : rawInstrs st = [f (BitVec.ofNat 24 v)]) (hf : ∀ x, encode (f x) = op ++ x) :
    assembleStmt p st = .ok [BitVec.ofNat 32 (op.toNat * 2 ^ 24 + v)] ∧
      ∃ x : Val24, x.toNat = v ∧ decodeWord (BitVec.ofNat 32 (op.toNat * 2 ^ 24 + v)) = .ok (f x) := by
  obtain ⟨hasm, hdec⟩ := assembles_one h hi ((hf _).trans (word_V24_eq_ofNat op hv))
  exact ⟨hasm, _, toNat_ofNat_of_le hv (by decide), hdec⟩

/-- An accepted statement of format `BY`. -/
theorem assembles_BY {op : Byte} {f : Byte → Instr} {d : Nat} (hd : d ≤ 0xFF) (h : st.problem p = none)
    (hi : rawInstrs st = [f (BitVec.ofNat 8 d)]) (hf : ∀ x, encode (f x) = op ++ x ++ 0#16) :
    assembleStmt p st = .ok [BitVec.ofNat 32 (op.toNat * 2 ^ 24 + d * 2 ^ 16)] ∧
      ∃ x : Byte, x.toNat = d ∧ decodeWord (BitVec.ofNat 32 (op.toNat * 2 ^ 24 + d * 2 ^ 16)) = .ok (f x) := by
  obtain ⟨hasm, hdec⟩ := assembles_one h hi ((hf _).trans (word_BY_eq_ofNat op hd))
  exact ⟨hasm, _, toNat_ofNat_of_le hd (by decide), hdec⟩

theorem assembles_busBeginTransmission {a : Nat} (ha : a ≤ 0x7F) :
    assembleStmt p (.busBeginTransmission a) = .ok [BitVec.ofNat 32 (0x11 * 2 ^ 24 + a * 2 ^ 16)] ∧
      ∃ x : Addr7, x.toNat = a ∧ decodeWord (BitVec.ofNat 32 (0x11 * 2 ^ 24 + a * 2 ^ 16)) = .ok (.busBeginTx x) := by
  obtain ⟨hasm, hdec⟩ := assembles_one (p := p) (st := .busBeginTransmission a) (if_pos ha) rfl
    (word_AD_eq_ofNat 0x11 ha)
  exact ⟨hasm, _, toNat_ofNat_of_le ha (by decide), hdec⟩

theorem assembles_busRequestFrom {a c : Nat} (ha : a ≤ 0x7F) (hc : c ≤ 255) :
    assembleStmt p (.busRequestFrom a c) = .ok [BitVec.ofNat 32 (0x13 * 2 ^ 24 + a * 2 ^ 16 + c)] ∧
      ∃ (x : Addr7) (y : Count), x.toNat = a ∧ y.toNat = c ∧
        decodeWord (BitVec.ofNat 32 (0x13 * 2 ^ 24 + a * 2 ^ 16 + c)) = .ok (.busRequestFrom x y) := by
  obtain ⟨hasm, hdec⟩ := assembles_one (p := p) (st := .busRequestFrom a c) ((if_pos ha).trans (if_pos hc)) rfl
    (word_AC_eq_ofNat 0x13 ha hc)
  exact ⟨hasm, _, _, toNat_ofNat_of_le ha (by decide), toNat_ofNat_of_le hc (by decide), hdec⟩

theorem uartPrint_problem (p : Config.Params) (bytes : List Nat) :
    (Stmt.uartPrint bytes).problem p =
      if bytes.length < p.printBuf then if ∀ d ∈ bytes, d ≤ 0xFF then none else some .byteAboveFF
      else some .stringTooLong := by
  simp only [Stmt.problem, List.all_eq_true, decide_eq_true_eq, Nat.succ_le_iff]

/-- R112: one send word a byte, in order. -/
theorem assembles_uartPrint {bytes : List Nat} (hlen : bytes.length < p.printBuf) (hall : ∀ d ∈ bytes, d ≤ 0xFF) :
    assembleStmt p (.uartPrint bytes) = .ok (bytes.map fun d => BitVec.ofNat 32 (0x21 * 2 ^ 24 + d * 2 ^ 16)) := by
  have hwf : (Stmt.uartPrint bytes).problem p = none := by rw [uartPrint_problem, if_pos hlen, if_pos hall]
  rw [assembleStmt_of_wf hwf, rawInstrs, List.map_map]
  exact congrArg _ (List.map_congr_left fun d hd => word_BY_eq_ofNat 0x21 (hall d hd))

theorem uartPrint_refused_of_length {bytes : List Nat} (hlen : p.printBuf ≤ bytes.length) :
    assembleStmt p (.uartPrint bytes) = .error .stringTooLong :=
  assembleStmt_of_problem (by rw [uartPrint_problem, if_neg hlen.not_gt])

theorem uartPrint_refused_of_byte {bytes : List Nat} (hlen : bytes.length < p.printBuf) (hbyte : ∃ d ∈ bytes, 0xFF < d) :
    assembleStmt p (.uartPrint bytes) = .error .byteAboveFF := by
  obtain ⟨d, hd, hbig⟩ := hbyte
  have hnot : ¬∀ d ∈ bytes, d ≤ 0xFF := fun hall => absurd (hall d hd) hbig.not_ge
  exact assembleStmt_of_problem (by rw [uartPrint_problem, if_pos hlen, if_neg hnot])

/-- Settles O6, row by row: an accepted statement is in range, so its word is the sum of its fields; each refusal is the
one range test that fails. -/
theorem assembledWordsDecode : Obligations.AssembledWordsDecode := by
  intro p
  exact ⟨
    fun v => ⟨fun h => assembles_V24 (op := 0x10) (f := .busBegin) h (if_pos h) rfl fun _ => rfl,
      fun h => assembleStmt_of_problem (if_neg h.not_ge)⟩,
    fun a => ⟨assembles_busBeginTransmission, fun h => assembleStmt_of_problem (if_neg h.not_ge)⟩,
    fun d => ⟨fun h => assembles_BY (op := 0x12) (f := .busWrite) h (if_pos h) rfl fun _ => rfl,
      fun h => assembleStmt_of_problem (if_neg h.not_ge)⟩,
    fun a c => ⟨assembles_busRequestFrom, fun ha => assembleStmt_of_problem (if_neg ha.not_ge),
      fun ha hc => assembleStmt_of_problem ((if_pos ha).trans (if_neg hc.not_ge))⟩,
    ⟨rfl, rfl, rfl⟩,
    rfl,
    fun v => ⟨fun h => assembles_V24 (op := 0x20) (f := .uartBegin) h (if_pos h) rfl fun _ => rfl,
      fun h => assembleStmt_of_problem (if_neg h.not_ge)⟩,
    fun d => ⟨fun h => assembles_BY (op := 0x21) (f := .uartSend) h (if_pos h) rfl fun _ => rfl,
      fun h => assembleStmt_of_problem (if_neg h.not_ge)⟩,
    ⟨rfl, rfl, rfl, rfl, rfl⟩,
    fun bytes => ⟨assembles_uartPrint, uartPrint_refused_of_length, uartPrint_refused_of_byte⟩⟩

end Machine
end Sys2Proof
end

section
/-! The bus session invariant is kept by every step: the engine and every control field are those the label calls for
(40_bus_engine.md R123, R126 to R133, R135, R138, 60_exceptions.md R249). -/

namespace Sys2Proof.Machine

variable {i : Instr} {s t : State} {a : AgentStep}

theorem State.SessionOk.advance (h : s.SessionOk) : (advance s).SessionOk := { h with }

/-! ### The labels outside the bus operations -/

/-- FETCH and the labels of the transport operations. -/
def Label.outsideBus (l : Label) : Prop := l ∈ [Label.fetch, .u1, .u2, .u3, .s1, .s2, .s3, .s4, .v1, .v2, .f1]

/-- There the engine is between two bus operations, and the control fields are those the last one left. -/
theorem sessionOk_outside (hms : s.fg.ms.outsideBus) :
    s.SessionOk ↔ s.betweenBusOps ∧ s.bh.ctrl = ctrlAt .fetch s.be.phase s.bh.pending s.be.remaining := by
  have hlabel : s.busAt = s.betweenBusOps ∧
      ctrlAt s.fg.ms s.be.phase s.bh.pending s.be.remaining = ctrlAt .fetch s.be.phase s.bh.pending s.be.remaining := by
    simp only [Label.outsideBus, List.mem_cons, List.not_mem_nil, or_false] at hms
    obtain h | h | h | h | h | h | h | h | h | h | h := hms <;> simp [State.busAt, ctrlAt, ackAt, h]
  rw [← hlabel.1, ← hlabel.2]
  exact ⟨fun h => ⟨h.engine, h.ctrl⟩, fun h => ⟨h.1, h.2⟩⟩

/-- A transport operation moves between such labels and leaves the bus alone. -/
theorem State.SessionOk.of_outside (hs : s.SessionOk) (hin : s.fg.ms.outsideBus) (hout : t.fg.ms.outsideBus)
    (hbe : t.be = s.be) (hbh : t.bh = s.bh) : t.SessionOk := by
  rw [sessionOk_outside hout, State.betweenBusOps, hbe, hbh]
  exact (sessionOk_outside hin).1 hs

/-! ### Between bus operations -/

/-- In an open write or read session no phase is in flight and the completion flag is 1. -/
theorem State.betweenBusOps.completed (h : s.betweenBusOps) (hopen : s.be.phase.writing ∨ s.be.phase.reading) :
    s.bh.pending = .none ∧ s.bh.int = true := by
  obtain ⟨hpending, ⟨hshut, -⟩ | ⟨-, hint⟩⟩ := h
  · rcases hshut with e | e <;> simp [Phase.writing, Phase.reading, e] at hopen
  · exact ⟨hpending, hint⟩

/-- Outside a session no phase is in flight and the completion flag is 0. -/
theorem State.betweenBusOps.cleared (h : s.betweenBusOps) (hshut : s.be.phase = .off ∨ s.be.phase = .idle) :
    s.bh.pending = .none ∧ s.bh.int = false := by
  obtain ⟨hpending, ⟨-, hint⟩ | ⟨hopen, -⟩⟩ := h
  · exact ⟨hpending, hint⟩
  · rcases hshut with e | e <;> simp [Phase.writing, Phase.reading, e] at hopen

/-- Once the completion flag is seen, the phase that was awaited is no longer in flight. -/
theorem State.awaits.completed {p : Pending} (h : s.awaits p) (hint : s.bh.int = true) : s.bh.pending = .none := by
  obtain ⟨-, hclear⟩ | ⟨hpending, -⟩ := h
  · simp [hclear] at hint
  · exact hpending

/-! ### The foreground -/

theorem Phase.writing.not_off_reading {p : Phase} (h : p.writing) : p ≠ .off ∧ p ≠ .transferringR := by
  rcases h with rfl | rfl <;> simp

theorem Phase.reading.not_off {p : Phase} (h : p.reading) : p ≠ .off := by
  rcases h with rfl | rfl <;> simp

/-- Each bus micro-step leads to a label that calls for what the step has just written or seen. -/
theorem MicroStep.sessionOk (h : MicroStep s i t) (hs : s.SessionOk) : t.SessionOk := by
  obtain ⟨hbus, hctrl⟩ := id hs
  cases h with
  | raised | polled => exact { hs with }
  | busBegin v d hms hphase =>
    simp only [State.busAt, hms] at hbus
    obtain ⟨hpending, hint⟩ := hbus.cleared hphase
    exact ⟨⟨hpending, .inl ⟨.inr rfl, hint⟩⟩, by simp [ctrlAt, ackAt, busCtrlWrite, hpending]⟩
  | writeStart a hms hphase | readStart a c hms hphase =>
    exact ⟨⟨hphase, .inl ⟨rfl, rfl⟩⟩, by simp [ctrlAt, ackAt, busCtrlWrite, triggered, hphase]⟩
  | writeStarted a hms hint | readStarted a c hms hint =>
    simp only [State.busAt, hms] at hbus
    obtain ⟨hphase, hawaits⟩ := hbus
    have hpending := hawaits.completed hint
    exact ⟨⟨rfl, hpending, hint⟩, by simp [ctrlAt, ackAt, hctrl, hms, hphase, hpending]⟩
  | writeAddress a hms | readAddress a c hms =>
    simp only [State.busAt, hms] at hbus
    exact ⟨hbus, by simp [ctrlAt, ackAt, hctrl, hms]⟩
  | writeAddressTrigger a hms | readAddressTrigger a c hms =>
    simp only [State.busAt, hms] at hbus
    obtain ⟨hphase, -, -⟩ := hbus
    exact ⟨⟨hphase, .inl ⟨rfl, rfl⟩⟩, by simp [ctrlAt, ackAt, busCtrlWrite, triggered, hphase]⟩
  | writeAddressed a hms hint =>
    simp only [State.busAt, hms] at hbus
    obtain ⟨hphase, hawaits⟩ := hbus
    have hpending := hawaits.completed hint
    exact ⟨⟨hpending, .inr ⟨.inl (.inl rfl), hint⟩⟩, by simp [ctrlAt, ackAt, hctrl, hms, hphase, hpending]⟩
  | writeData d hms hphase =>
    simp only [State.busAt, hms] at hbus
    exact ⟨⟨hphase, hbus.completed (.inl hphase)⟩, by simp [ctrlAt, ackAt, hctrl, hms]⟩
  | writeDataTrigger d hms =>
    simp only [State.busAt, hms] at hbus
    obtain ⟨hphase, -, -⟩ := hbus
    exact ⟨⟨hphase, .inl ⟨rfl, rfl⟩⟩, by simp [ctrlAt, ackAt, busCtrlWrite, triggered, hphase.not_off_reading]⟩
  | written d hms hint =>
    simp only [State.busAt, hms] at hbus
    obtain ⟨hphase, hawaits⟩ := hbus
    have hpending := hawaits.completed hint
    exact ⟨⟨hpending, .inr ⟨.inl (.inr rfl), hint⟩⟩,
      by simp [ctrlAt, ackAt, hctrl, hms, hphase.not_off_reading, hpending]⟩
  | readAddressed a c hms hint =>
    simp only [State.busAt, hms] at hbus
    obtain ⟨hphase, hawaits⟩ := hbus
    have hpending := hawaits.completed hint
    exact ⟨⟨hpending, .inr ⟨.inr (.inl rfl), hint⟩⟩, by simp [ctrlAt, ackAt, hctrl, hms, hphase, hpending]⟩
  | readCount hms hphase hmore =>
    simp only [State.busAt, hms] at hbus
    have hack : ackAt .fetch s.be.phase s.be.remaining = ackAt .d1 s.be.phase (s.be.remaining - 1) :=
      decide_eq_decide.2 (and_iff_left hmore)
    obtain ⟨hpending, hint⟩ := hbus.completed (.inr hphase)
    exact ⟨⟨hphase, hpending, hint⟩, by simp [ctrlAt, hctrl, hms, hphase.not_off, hpending, hack]⟩
  | readAck hms hmore =>
    simp only [State.busAt, hms] at hbus
    obtain ⟨hphase, -, -⟩ := hbus
    have hmore' : s.be.remaining ≠ 0#8 := hmore
    exact ⟨⟨hphase, .inl ⟨by simp [triggered, hmore'], rfl⟩⟩,
      by simp [ctrlAt, ackAt, busCtrlWrite, triggered, hphase.not_off, hmore']⟩
  | readNack hms hlast =>
    simp only [State.busAt, hms] at hbus
    obtain ⟨hphase, -, -⟩ := hbus
    exact ⟨⟨hphase, .inl ⟨by simp [triggered, hlast], rfl⟩⟩,
      by simp [ctrlAt, ackAt, busCtrlWrite, triggered, hphase.not_off, hlast]⟩
  | read hms hint =>
    simp only [State.busAt, hms] at hbus
    obtain ⟨hphase, hawaits⟩ := hbus
    have hpending := hawaits.completed hint
    exact ⟨⟨hpending, .inr ⟨.inr (.inr rfl), hint⟩⟩, by simp [ctrlAt, ackAt, hctrl, hms, hphase.not_off, hpending]⟩
  | stopTrigger hms hphase => exact ⟨⟨rfl, rfl, .inl rfl⟩, by simp [ctrlAt, ackAt, busCtrlWrite, triggered]⟩
  | stopped hms hsto =>
    simp only [State.busAt, hms] at hbus
    obtain ⟨hphase, hint, hpending⟩ := hbus
    have hdone : s.bh.pending = .none := hpending.resolve_left fun hstop => by simp [hctrl, ctrlAt, hstop] at hsto
    exact ⟨⟨hdone, .inl ⟨.inr rfl, hint⟩⟩, by simp [ctrlAt, ackAt, hctrl, hms, hphase, hdone]⟩
  | _ => exact hs.of_outside (by simp [Label.outsideBus, *]) (by simp [Label.outsideBus]) rfl rfl

/-! ### The other agents -/

/-- The labels that hold until the completion flag is 1 (40_bus_engine.md R123). -/
def Label.awaitsInt (l : Label) : Prop := l ∈ [Label.bt1, .bt4, .w2, .rq1, .rq4, .d2]

/-- At such a label the phase awaited is one that `BUS_HW.COMPLETE` completes. -/
theorem State.busAt.awaited (hbus : s.busAt) (hms : s.fg.ms.awaitsInt) : ∃ p, p.completes = true ∧ s.awaits p := by
  simp only [Label.awaitsInt, List.mem_cons, List.not_mem_nil, or_false] at hms
  obtain h | h | h | h | h | h := hms <;> simp only [State.busAt, h] at hbus <;> exact ⟨_, rfl, hbus.2⟩

/-- Elsewhere no phase is in flight, but for a STOP at E1. -/
theorem State.busAt.not_in_flight (hbus : s.busAt) (hms : ¬s.fg.ms.awaitsInt) :
    s.bh.pending = .none ∨ (s.fg.ms = .e1 ∧ s.bh.pending = .stop) := by
  cases h : s.fg.ms with simp only [State.busAt, h] at hbus
  | bt1 | bt4 | w2 | rq1 | rq4 | d2 => simp [Label.awaitsInt, h] at hms
  | e1 => exact hbus.2.2.symm.imp_right fun hstop => ⟨rfl, hstop⟩
  | bt2 | bt3 | rq2 | rq3 | w1 | d1 => exact .inl hbus.2.1
  | _ => exact .inl hbus.1

/-- A phase that completes was triggered by a label that awaits it. -/
theorem State.busAt.awaitsInt_of_completes (hbus : s.busAt) (hcompletes : s.bh.pending.completes = true) :
    s.fg.ms.awaitsInt := by
  by_contra hms
  obtain h | ⟨-, h⟩ := hbus.not_in_flight hms <;> simp [h, Pending.completes] at hcompletes

/-- Only E1 triggers a STOP. -/
theorem State.busAt.e1_of_stop (hbus : s.busAt) (hstop : s.bh.pending = .stop) : s.fg.ms = .e1 := by
  by_cases hms : s.fg.ms.awaitsInt
  · obtain ⟨p, hp, ⟨rfl, -⟩ | ⟨hnone, -⟩⟩ := hbus.awaited hms
    · simp [hstop, Pending.completes] at hp
    · simp [hstop] at hnone
  · obtain h | ⟨h, -⟩ := hbus.not_in_flight hms
    · simp [hstop] at h
    · exact h

/-- A completed phase is what its label goes on with. -/
theorem State.busAt.completed (hbus : s.busAt) (hms : s.fg.ms.awaitsInt) (hfg : t.fg = s.fg) (hbe : t.be = s.be)
    (hpending : t.bh.pending = .none) (hint : t.bh.int = true) : t.busAt := by
  have hawaits (p : Pending) : t.awaits p := .inr ⟨hpending, hint⟩
  simp only [Label.awaitsInt, List.mem_cons, List.not_mem_nil, or_false] at hms
  obtain h | h | h | h | h | h := hms <;> simp only [State.busAt, hfg, hbe, h] at hbus ⊢ <;> exact ⟨hbus.1, hawaits _⟩

theorem OtherStep.sessionOk (h : OtherStep s a t) (hs : s.SessionOk) : t.SessionOk := by
  obtain ⟨hbus, hctrl⟩ := id hs
  cases h with
  | busCompleted d status data e hon =>
    simp only [busCompleteEnabled, Bool.and_eq_true] at hon
    obtain ⟨⟨hcompletes, -⟩, -⟩ := hon
    have hstop : s.bh.pending ≠ .stop := fun h => by simp [h, Pending.completes] at hcompletes
    exact ⟨hbus.completed (hbus.awaitsInt_of_completes hcompletes) rfl rfl rfl rfl, by simp [hctrl, ctrlAt, hstop]⟩
  | busStopped status hon =>
    simp only [busStopEnabled, Bool.and_eq_true, decide_eq_true_eq] at hon
    obtain ⟨⟨hstop, -⟩, -⟩ := hon
    have hms := hbus.e1_of_stop hstop
    simp only [State.busAt, hms] at hbus
    obtain ⟨hphase, hint, -⟩ := hbus
    exact ⟨by simp [State.busAt, hms, hphase, hint], by simp [busStopDone, hctrl, ctrlAt]⟩
  | _ => exact { hs with }

/-- Settles O42: a bus micro-step provides for the label it leads to, a completion for the label that awaits it, and
nothing else is about the bus. -/
theorem stepsKeepTheBusSession : Obligations.StepsKeepTheBusSession := by
  intro s t hinv h
  have hs := hinv.session.advance
  obtain ⟨-, rfl | ⟨-, rfl⟩ | ⟨i, -, hmicro⟩⟩ | ⟨-, hother⟩ := step_cases h
  · exact hs
  · exact { hs with }
  · exact hmicro.sessionOk hs
  · exact hother.sessionOk hs

end Sys2Proof.Machine
end

section
/-! The two steps of the bus hardware: when each is enabled, and what it does to each kind of phase (40_bus_engine.md
R136, R137). -/

namespace Sys2Proof.Machine

variable {s : State} {d status : Byte}

theorem completes_iff (p : Pending) :
    p.completes = true ↔ p = .start ∨ p = .addr ∨ p = .txData ∨ ∃ k, p = .rxData k := by
  cases p <;> simp [Pending.completes]

theorem busCompleteEnabled_iff :
    busCompleteEnabled s = true ↔ s.bh.pending.completes = true ∧ s.bh.ctrl.en = true ∧ running s = true := by
  simp [busCompleteEnabled, and_assoc]

theorem busStopEnabled_iff :
    busStopEnabled s = true ↔ s.bh.pending = .stop ∧ s.bh.ctrl.en = true ∧ running s = true := by
  simp [busStopEnabled, and_assoc]

theorem agentStep_busComplete (hon : busCompleteEnabled s = true) :
    agentStep (.busComplete d status) s = .next (busComplete d status s) := if_pos hon

theorem agentStep_busStopDone (hon : busStopEnabled s = true) :
    agentStep (.busStopDone status) s = .next (busStopDone status s) := if_pos hon

theorem running_of_enabled {a : AgentStep} (hon : enabled a s = true) : running s = true := by
  by_contra h
  simp [still_of_not_running (by simpa using h) a] at hon

/-- An enabled step that is chosen is taken. -/
theorem step_of_enabled {a : AgentStep} (hnext : nextStep s = a) (hon : enabled a s = true) :
    step s = agentStep a (advance s) := by
  rw [step_of_running (running_of_enabled hon), hnext]

/-! ### The completion of each phase -/

theorem busComplete_start (h : s.bh.pending = .start) :
    busComplete d status s =
      { s with bh.trace := s.bh.trace ++ [.start], bh.status := status, bh.int := true, bh.pending := .none } := by
  simp [busComplete, completion, h, emit]

theorem busComplete_addr (h : s.bh.pending = .addr) :
    busComplete d status s =
      { s with bh.trace := s.bh.trace ++ [.addr s.bh.data], bh.status := status, bh.int := true, bh.pending := .none } := by
  simp [busComplete, completion, h, emit]

theorem busComplete_txData (h : s.bh.pending = .txData) :
    busComplete d status s =
      { s with bh.trace := s.bh.trace ++ [.tx s.bh.data], bh.status := status, bh.int := true, bh.pending := .none } := by
  simp [busComplete, completion, h, emit]

theorem busComplete_rxData {k : Bool} (h : s.bh.pending = .rxData k) :
    busComplete d status s =
      { s with
        bh.data := d, bh.trace := s.bh.trace ++ [.rx d k], bh.status := status, bh.int := true, bh.pending := .none } := by
  simp [busComplete, completion, h, emit]

/-- Settles O26: each conjunct of the enabling condition is one of the rule's, and each phase has its completion. -/
theorem busCompletionSetsTheEdge : Obligations.BusCompletionSetsTheEdge := by
  refine ⟨fun s d status => ?_, fun s d status hnext hon => ?_⟩
  · rw [← completes_iff, ← running_iff]
    exact busCompleteEnabled_iff
  · have hstep : step s = .next (busComplete d status (advance s)) :=
      (step_of_enabled hnext hon).trans (agentStep_busComplete hon)
    rw [hstep]
    exact ⟨fun h => congrArg _ (busComplete_start h), fun h => congrArg _ (busComplete_addr h),
      fun h => congrArg _ (busComplete_txData h), fun k h => congrArg _ (busComplete_rxData h)⟩

/-- Settles O27: the STOP's completion is `busStopDone` itself. -/
theorem stopCompletionClearsSto : Obligations.StopCompletionClearsSto := by
  refine ⟨fun s status => ?_, fun s status hnext hon => ?_⟩
  · rw [← running_iff]
    exact busStopEnabled_iff
  · exact (step_of_enabled hnext hon).trans (agentStep_busStopDone hon)

end Sys2Proof.Machine
end

section
/-! A held foreground waits: no other agent moves it, and only the agent it waits for ends the hold (40_bus_engine.md
R123, R124, R139, 41_transport.md R174, 70_reset_and_hazards.md R284, R291). -/

namespace Sys2Proof.Machine

variable {s t : State} {a : AgentStep}

/-! ### A step while the foreground is held -/

/-- The other agents leave the pump active, or idle on an empty ring. -/
theorem OtherStep.pumpOk (h : OtherStep s a t) (hp : s.PumpOk) : t.PumpOk := by
  cases h with
  | txIdled _ hempty => exact .inl ((isEmpty_iff _).2 hempty)
  | txSent hon =>
    simp only [isrTxEnabled, pendTx, Bool.and_eq_true] at hon
    exact .inr (.inl hon.1.2.1)
  | _ => exact hp

/-- No step of the other agents breaks an invariant. -/
theorem OtherStep.inv (h : OtherStep s a t) (hinv : s.Inv) : t.Inv where
  shaped := h.shaped hinv.shaped
  positioned := h.positioned hinv.shaped hinv.positioned
  session := h.sessionOk hinv.session
  pump := h.pumpOk hinv.pump
  started := h.startedOk hinv.started

theorem State.Inv.advance (h : s.Inv) : (advance s).Inv where
  shaped := h.shaped.advance
  positioned := h.positioned.advance
  session := h.session.advance
  pump := h.pump
  started := h.started.advance

/-- While the foreground is held, whatever is chosen is a step of another agent, or none. -/
theorem otherStep_of_held (hp : s.Positioned) (hheld : held s = true) (h : step s = .next t) :
    OtherStep (advance s) (nextStep s) t := by
  obtain ⟨-, -, h⟩ := step_next h
  by_cases ha : nextStep s = .fg
  · rw [ha] at h ⊢
    obtain rfl : advance s = t := next_inj.1 ((fgStep_of_held hp.advance hheld).symm.trans h)
    exact .disabled _
  · exact agentStep_other ha h

theorem running_of_step (h : step s = .next t) : running s = true := by
  obtain ⟨hfault, hrefused, -⟩ := step_next h
  exact (running_iff s).2 ⟨hfault, hrefused⟩

theorem OtherStep.schedule (h : OtherStep s a t) : t.sched = s.sched := by
  cases h <;> rfl

theorem State.Inv.step_of_held (hinv : s.Inv) (hheld : held s = true) (h : step s = .next t) :
    t.Inv ∧ ForegroundKept s t :=
  have hother := otherStep_of_held hinv.positioned hheld h
  ⟨hother.inv hinv.advance, { hother.foregroundKept with }⟩

/-! ### Held on the bus -/

/-- What a foreground held on the bus waits for: the completion flag, or the end of a STOP. -/
theorem heldOnBus_iff :
    heldOnBus s ↔ (s.fg.ms.awaitsInt ∧ s.bh.int = false) ∨ (s.fg.ms = .e1 ∧ s.bh.ctrl.sto = true) := by
  unfold heldOnBus
  cases h : s.fg.ms <;> simp [held, Label.awaitsInt, h]

/-- Only `BUS_HW` writes the bus hardware's state. -/
theorem OtherStep.bus_kept (h : OtherStep s a t) (ha : ¬isBusHw a) : t.bh = s.bh := by
  cases h with
  | busCompleted | busStopped => exact absurd trivial ha
  | _ => rfl

theorem heldOnBus_of_kept (hfg : t.fg = s.fg) (hbh : t.bh = s.bh) (h : heldOnBus s) : heldOnBus t := by
  rw [heldOnBus_iff] at h ⊢
  rwa [hfg, hbh]

/-- A step of no `BUS_HW` leaves the hold as it is. -/
theorem stalled_step (hinv : s.Inv) (hbus : heldOnBus s) (h : step s = .next t) (ha : ¬isBusHw (nextStep s)) :
    heldOnBus t := by
  have hother := otherStep_of_held hinv.positioned hbus.2 h
  exact heldOnBus_of_kept hother.foregroundKept.position (hother.bus_kept ha) hbus

theorem runSteps_succ {k : Nat} (h : step s = .next t) : runSteps (k + 1) s = runSteps k t := by
  simp only [runSteps, h]

theorem nextStep_of_sched {rest : List AgentStep} (h : s.sched = a :: rest) : nextStep s = a := by
  simp [nextStep, h]

/-- However long the schedule goes on without `BUS_HW`. -/
theorem stalled_run {quiet rest : List AgentStep} (hinv : s.Inv) (hbus : heldOnBus s) (hrun : running s = true)
    (hsched : s.sched = quiet ++ rest) (hquiet : ∀ a ∈ quiet, ¬isBusHw a) :
    ∃ t, runSteps quiet.length s = .next t ∧ t.fg = s.fg ∧ heldOnBus t ∧ t.fault = none ∧ t.sched = rest := by
  induction quiet generalizing s with
  | nil => exact ⟨s, rfl, rfl, hbus, ((running_iff s).1 hrun).1, hsched⟩
  | cons a quiet ih =>
    obtain ⟨u, hu⟩ := invariantStatesAlwaysStep s hinv hrun
    have hnext : nextStep s = a := nextStep_of_sched hsched
    have hbus' : heldOnBus u := stalled_step hinv hbus hu (hnext ▸ hquiet a (by simp))
    obtain ⟨hinv', hkept⟩ := hinv.step_of_held hbus.2 hu
    have hrun' : running u = true := by simpa [running, hkept.fault, hkept.refused] using hrun
    have hsched' : u.sched = quiet ++ rest := by
      rw [(otherStep_of_held hinv.positioned hbus.2 hu).schedule, advance_sched, hsched]
      rfl
    obtain ⟨t, ht, hfg, h⟩ := ih hinv' hbus' hrun' hsched' fun b hb => hquiet b (by simp [hb])
    exact ⟨t, (runSteps_succ hu).trans ht, hfg.trans hkept.position, h⟩

/-! ### Held on a full transmit ring -/

theorem heldOnSend_of_kept (hfg : t.fg = s.fg) (htail : t.ut.tx.tail = s.ut.tx.tail) (h : heldOnSend s) :
    heldOnSend t := by
  obtain ⟨hms, hheld⟩ := h
  refine ⟨hfg ▸ hms, ?_⟩
  simp only [held, hms, hfg, htail] at hheld ⊢
  exact hheld

/-- Only `ISR_TX` moves the transmit tail. -/
theorem send_step (hinv : s.Inv) (hsend : heldOnSend s) (h : step s = .next t) (ha : nextStep s ≠ .isrTx) :
    t.fg = s.fg ∧ heldOnSend t := by
  have hother := otherStep_of_held hinv.positioned hsend.2 h
  have hfg : t.fg = s.fg := hother.foregroundKept.position
  exact ⟨hfg, heldOnSend_of_kept hfg (hother.index_writer.2.resolve_right ha) hsend⟩

/-- With interrupts disabled no handler has a step, so none enables them again and the transmit tail stays. -/
theorem OtherStep.masked (h : OtherStep s a t) (hgie : s.gie = false) :
    t.gie = false ∧ t.ut.tx.tail = s.ut.tx.tail := by
  cases h with
  | rxRefused _ _ hon | rxWrapped _ _ hon | rxStored _ _ hon => simp [isrRxEnabled, hgie] at hon
  | txIdled hon | txSent hon => simp [isrTxEnabled, hgie] at hon
  | _ => exact ⟨hgie, rfl⟩

/-- A `send` held on a full ring with interrupts disabled never moves. -/
theorem masked_send_run {r : Nat → State} (hrun : IsRun r) (hinv : (r 0).Inv) (hsend : heldOnSend (r 0))
    (hgie : (r 0).gie = false) (k : Nat) :
    (r k).Inv ∧ heldOnSend (r k) ∧ (r k).gie = false ∧ (r k).fg = (r 0).fg := by
  induction k with
  | zero => exact ⟨hinv, hsend, hgie, rfl⟩
  | succ k ih =>
    obtain ⟨hinv, hsend, hgie, hfg⟩ := ih
    obtain ⟨hinv', hkept⟩ := hinv.step_of_held hsend.2 (hrun k)
    obtain ⟨hgie', htail⟩ := (otherStep_of_held hinv.positioned hsend.2 (hrun k)).masked hgie
    exact ⟨hinv', heldOnSend_of_kept hkept.position htail hsend, hgie', hkept.position.trans hfg⟩

/-- Settles O58: only `BUS_HW` writes what a hold on the bus reads, and only `ISR_TX`, which needs interrupts enabled,
the tail that a `send` waits for. -/
theorem waitsEndOnlyByTheirOwnAgent : Obligations.WaitsEndOnlyByTheirOwnAgent := by
  refine ⟨fun s t hinv hbus h ha => ?_, fun s quiet rest => stalled_run, fun s t => send_step,
    fun r hrun hinv hsend hgie => ⟨0, fun j _ => ?_⟩⟩
  · obtain ⟨-, hkept⟩ := hinv.step_of_held hbus.2 h
    obtain ⟨hfault, -, -⟩ := step_next h
    exact ⟨hkept.position, stalled_step hinv hbus h ha, hkept.session, hkept.fault.trans hfault⟩
  · obtain ⟨-, hsend, -, hfg⟩ := masked_send_run hrun hinv hsend hgie j
    exact ⟨hsend.2, hfg⟩

/-! ### A responsive bus -/

/-- The bus is on wherever a phase is awaited. -/
theorem State.busAt.not_off (hbus : s.busAt) (hms : s.fg.ms.awaitsInt) : s.be.phase ≠ .off := by
  simp only [Label.awaitsInt, List.mem_cons, List.not_mem_nil, or_false] at hms
  obtain h | h | h | h | h | h := hms <;> simp only [State.busAt, h] at hbus
  case inr.inr.inl => exact hbus.1.not_off_reading.1
  case inr.inr.inr.inr.inr => exact hbus.1.not_off
  all_goals simp [hbus.1]

/-- While a foreground is held on the bus, its phase is in flight and the bus is on, so `COMPLETE` or, at E1, `STOP_DONE`
is enabled. -/
theorem busHw_enabled (hs : s.SessionOk) (hrun : running s = true) (hbus : heldOnBus s) :
    ∃ a, isBusHw a ∧ enabled a s = true := by
  obtain ⟨hengine, hctrl⟩ := hs
  obtain ⟨hms, hint⟩ | ⟨hms, hsto⟩ := heldOnBus_iff.1 hbus
  · obtain ⟨p, hp, ⟨rfl, -⟩ | ⟨-, hdone⟩⟩ := hengine.awaited hms
    · have hen : s.bh.ctrl.en = true := by simp [hctrl, ctrlAt, hengine.not_off hms]
      exact ⟨.busComplete 0 0, trivial, by simp [enabled, busCompleteEnabled, hp, hen, hrun]⟩
    · simp [hint] at hdone
  · simp only [State.busAt, hms] at hengine
    have hstop : s.bh.pending = .stop := by simpa [hctrl, ctrlAt] using hsto
    have hen : s.bh.ctrl.en = true := by simp [hctrl, ctrlAt, hengine.1]
    exact ⟨.busStopDone 0, trivial, by simp [enabled, busStopEnabled, hstop, hen, hrun]⟩

/-- That step ends the hold: it sets the flag at a label that waits for the flag, or clears `STO` at E1. -/
theorem not_heldOnBus_of_busHw (hbus : s.busAt) (ha : isBusHw a) (hon : enabled a s = true)
    (h : agentStep a s = .next t) : ¬heldOnBus t := by
  rw [heldOnBus_iff]
  cases a with
  | busComplete d status =>
    obtain ⟨hcompletes, -, -⟩ := busCompleteEnabled_iff.1 hon
    have hms := hbus.awaitsInt_of_completes hcompletes
    have hne : s.fg.ms ≠ .e1 := fun e => by simp [Label.awaitsInt, e] at hms
    obtain ⟨data, e, heq⟩ := busComplete_eq d status hon
    obtain rfl := next_inj.1 ((agentStep_busComplete hon).symm.trans h)
    simp [heq, hne]
  | busStopDone status =>
    obtain ⟨hstop, -, -⟩ := busStopEnabled_iff.1 hon
    have hms := hbus.e1_of_stop hstop
    obtain rfl := next_inj.1 ((agentStep_busStopDone hon).symm.trans h)
    simp [Label.awaitsInt, hms]
  | _ => exact ha.elim

/-- Settles O59: while the hold lasts, `BUS_HW` stays enabled, and the step of it that is taken ends the hold. -/
theorem responsiveBusEndsEveryHold : Obligations.ResponsiveBusEndsEveryHold := by
  intro r hrun hfair hinv hbus
  by_contra hforever
  have hheld (k : Nat) : held (r k) = true := by simpa using not_exists.1 hforever k
  have hkept (k : Nat) : (r k).Inv ∧ heldOnBus (r k) := by
    induction k with
    | zero => exact ⟨hinv, hbus⟩
    | succ k ih =>
      obtain ⟨hinv', hkept⟩ := ih.1.step_of_held (hheld k) (hrun k)
      exact ⟨hinv', hkept.position ▸ ih.2.1, hheld (k + 1)⟩
  obtain ⟨j, -, ha, hon⟩ := hfair 0 fun j _ =>
    busHw_enabled (hkept j).1.session (running_of_step (hrun j)) (hkept j).2
  obtain ⟨-, -, hstep⟩ := step_next (hrun j)
  exact not_heldOnBus_of_busHw (hkept j).1.session.advance.engine ha ((enabled_advance _ _).trans hon) hstep
    (hkept (j + 1)).2

end Sys2Proof.Machine
end

section
/-! The fault of an operation at FETCH: its guards test what the phase table and the fault table say, in that order
(40_bus_engine.md R120, R135, 60_exceptions.md R232, R241). -/

namespace Sys2Proof.Machine

variable {s : State} {k : Result} {o : Option FaultInfo}

/-! ### The domains of the two divisor lookups -/

section
variable {α β : Type} [DecidableEq α] {l : List (α × β)} {key : α} {b : β}

theorem lookup_eq_none_iff_not_mem : l.lookup key = none ↔ key ∉ l.map Prod.fst := by
  simp only [List.lookup_eq_none_iff, bne_iff_ne, List.mem_map, not_exists, not_and]
  exact forall₂_congr fun _ _ => ne_comm

theorem mem_keys_of_lookup (h : l.lookup key = some b) : key ∈ l.map Prod.fst := by
  by_contra hnot
  simp [lookup_eq_none_iff_not_mem.2 hnot] at h

/-- With one entry a key, an entry is what the lookup finds. -/
theorem lookup_of_mem (hl : (l.map Prod.fst).Nodup) (h : (key, b) ∈ l) : l.lookup key = some b := by
  obtain ⟨l₁, l₂, rfl⟩ := List.append_of_mem h
  refine List.lookup_eq_some_iff.2 ⟨l₁, l₂, rfl, fun p hp => bne_iff_ne.2 fun hkey => ?_⟩
  simp only [List.map_append, List.map_cons] at hl
  have hin : key ∈ l₁.map Prod.fst := hkey ▸ List.mem_map_of_mem hp
  exact List.disjoint_of_nodup_append hl hin (by simp)

end

theorem busDivisor_eq_none_iff {p : Config.Params} {v : Val24} : busDivisor p v = none ↔ v.toNat ∉ p.busSpeeds :=
  lookup_eq_none_iff_not_mem

theorem mem_busSpeeds {p : Config.Params} {v : Val24} {d : Byte} (h : busDivisor p v = some d) :
    v.toNat ∈ p.busSpeeds := mem_keys_of_lookup h

theorem uartDivisor_eq_none_iff {p : Config.Params} {v : Val24} :
    uartDivisor p v = none ↔ v.toNat ∉ p.uartDivisor.map Prod.fst := lookup_eq_none_iff_not_mem

theorem mem_baudRates {p : Config.Params} {v : Val24} {d : Nat} (h : uartDivisor p v = some d) :
    v.toNat ∈ p.uartDivisor.map Prod.fst := mem_keys_of_lookup h

/-! ### Guards and what they raise -/

/-- An answer that raises exactly the fault `o`, or goes on without one. -/
def Raises (o : Option FaultInfo) (s : State) (r : Result) : Prop :=
  (∀ info, o = some info → r = .next (s.withFault info)) ∧ (o = none → ∃ t, r = .next t ∧ t.fault = s.fault)

theorem raises_raise (info : FaultInfo) (s : State) : Raises (some info) s (raise info s) :=
  ⟨fun _ h => by rw [← Option.some.inj h, raise_eq], fun h => nomatch h⟩

theorem raises_next {t : State} (h : t.fault = s.fault) : Raises none s (.next t) :=
  ⟨fun _ h => (nomatch h), fun _ => ⟨t, rfl, h⟩⟩

theorem raises_ite {P : Prop} [Decidable P] {o₁ o₂ : Option FaultInfo} {r₁ r₂ : Result} (h₁ : P → Raises o₁ s r₁)
    (h₂ : ¬P → Raises o₂ s r₂) : Raises (if P then o₁ else o₂) s (if P then r₁ else r₂) := by
  split
  · exact h₁ ‹_›
  · exact h₂ ‹_›

/-- The guards of a bus operation, as a row of the phase table. -/
theorem raises_busGuard (op : Mnemonic) (ok : Bool) (hk : Raises none s k) :
    Raises
      (if s.be.phase = .off then some (.notStarted .bus op)
        else if ok = true then none
        else some (.protocolSequenceError op s.be.phase s.be.remaining))
      s (busGuard op ok s k) :=
  raises_ite (fun _ => raises_raise _ s) fun _ => raises_ite (fun _ => hk) fun _ => raises_raise _ s

theorem raises_uartGuard (op : Mnemonic) (hk : Raises o s k) :
    Raises (if s.ut.started = true then o else some (.notStarted .uart op)) s (uartGuard op s k) :=
  raises_ite (fun _ => hk) fun _ => raises_raise _ s

/-! ### The rows of the phase table as guards -/

/-- The phase guard of each bus operation but `BUS_BEGIN` (R135). -/
def phaseGuard (i : Instr) (s : State) : Bool :=
  match i with
  | .busBeginTx _ | .busRequestFrom _ _ => s.be.phase = .idle
  | .busWrite _ => s.be.phase = .addressedW ∨ s.be.phase = .transferringW
  | .busRead => (s.be.phase = .addressedR ∨ s.be.phase = .transferringR) ∧ s.be.remaining ≠ 0
  | .busEndTx =>
    s.be.phase = .addressedW ∨ s.be.phase = .addressedR ∨ s.be.phase = .transferringW ∨ s.be.phase = .transferringR
  | _ => true

/-- A row of the phase table is the two guards of R120 in order. -/
theorem faultAtFetch_bus {i : Instr} (hbus : isBusOp i) (hne : ∀ v, i ≠ .busBegin v) :
    faultAtFetch i s =
      if s.be.phase = .off then some (.notStarted .bus i.mnemonic)
      else if phaseGuard i s = true then none
      else some (.protocolSequenceError i.mnemonic s.be.phase s.be.remaining) := by
  have hzero : s.be.remaining.toNat = 0 ↔ s.be.remaining = 0 := BitVec.toNat_inj (y := 0)
  unfold faultAtFetch phaseGuard
  cases i with
  | busBegin v => exact absurd rfl (hne v)
  | busBeginTx | busRequestFrom | busWrite | busEndTx => cases s.be.phase <;> rfl
  | busRead =>
    cases s.be.phase with
    | addressedR | transferringR =>
      simp [hzero]
    | _ => rfl
  | _ => exact hbus.elim

/-- `BUS_BEGIN` has its own row: its phase guard before its operand check (R127). -/
theorem faultAtFetch_busBegin (v : Val24) :
    faultAtFetch (.busBegin v) s =
      if s.be.phase = .off ∨ s.be.phase = .idle then
        if v.toNat ∈ s.params.busSpeeds then none else some (.unsupportedConfiguration .bus v)
      else some (.protocolSequenceError .BUS_BEGIN s.be.phase s.be.remaining) := by
  unfold faultAtFetch
  cases s.be.phase <;> rfl

/-! ### The operations -/

theorem raises_busBegin (hms : s.fg.ms = .fetch) (v : Val24) :
    Raises (faultAtFetch (.busBegin v) s) s (exec (.busBegin v) s) := by
  simp only [exec, execBusBegin, hms, faultAtFetch_busBegin]
  refine raises_ite (fun _ => ?_) fun _ => raises_raise _ s
  cases hv : busDivisor s.params v with
  | none =>
    rw [if_neg (busDivisor_eq_none_iff.1 hv)]
    exact raises_raise _ s
  | some d =>
    rw [if_pos (mem_busSpeeds hv)]
    exact raises_next rfl

theorem raises_uartBegin (hms : s.fg.ms = .fetch) (v : Val24) :
    Raises (faultAtFetch (.uartBegin v) s) s (exec (.uartBegin v) s) := by
  simp only [exec, execUartBegin, hms, faultAtFetch]
  cases hv : uartDivisor s.params v with
  | none =>
    rw [if_neg (uartDivisor_eq_none_iff.1 hv)]
    exact raises_raise _ s
  | some d =>
    rw [if_pos (mem_baudRates hv)]
    exact raises_next rfl

theorem raises_bus {i : Instr} (hms : s.fg.ms = .fetch) (hbus : isBusOp i) (hne : ∀ v, i ≠ .busBegin v) :
    Raises (faultAtFetch i s) s (exec i s) := by
  rw [faultAtFetch_bus hbus hne]
  cases i with
  | busBegin v => exact absurd rfl (hne v)
  | busBeginTx | busWrite | busRequestFrom | busRead | busEndTx =>
    simp only [exec, execBusBeginTx, execBusWrite, execBusRequestFrom, execBusRead, execBusEndTx, hms]
    exact raises_busGuard _ _ (raises_next rfl)
  | _ => exact hbus.elim

theorem raises_at_fetch (hms : s.fg.ms = .fetch) (i : Instr) : Raises (faultAtFetch i s) s (exec i s) := by
  cases i with
  | busBegin v => exact raises_busBegin hms v
  | busBeginTx | busWrite | busRequestFrom | busRead | busEndTx => exact raises_bus hms trivial (by simp)
  | uartBegin v => exact raises_uartBegin hms v
  | uartSend | uartAvailable | uartFlush =>
    simp only [exec, execUartSend, execUartAvailable, execUartFlush, hms]
    exact raises_uartGuard _ (raises_next rfl)
  | uartReceive =>
    simp only [exec, execUartReceive, hms]
    refine raises_uartGuard (o := if s.ut.rx.head = s.ut.rx.tail then some .receiveEmpty else none) _ ?_
    simp only [← isEmpty_iff]
    exact raises_ite (fun _ => raises_raise _ s) fun _ => raises_next rfl
  | irqDisable | irqEnable =>
    simp only [exec, execIrqDisable, execIrqEnable, writeGie, hms]
    exact raises_next rfl

/-- Settles O11: every operation's guards are its row of the tables. -/
theorem fetchRaisesTheTabulatedFault : Obligations.FetchRaisesTheTabulatedFault := fun i _ hms =>
  raises_at_fetch hms i

end Sys2Proof.Machine
end

section
/-! What the bus operations share: the guards at FETCH, a poll in vain, and a run as one scheduled step after another
(40_bus_engine.md R120, R123, 95_test_vectors.md P1, P2). -/

namespace Sys2Proof.Machine

variable {i : Instr} {s t : State} {op : Mnemonic} {ok : Bool} {rest : List AgentStep} {n : Nat}

/-! ### The guards -/

theorem busGuard_passes {k : Result} (hon : s.be.phase ≠ .off) : busGuard op true s k = k := if_neg hon

theorem exec_off (hms : s.fg.ms = .fetch) (hoff : s.be.phase = .off) (hbus : isBusOp i := by trivial)
    (hne : ∀ v, i ≠ .busBegin v := by simp) :
    exec i s = .next (s.withFault (.notStarted .bus i.mnemonic)) :=
  (raises_at_fetch hms i).1 _ (by rw [faultAtFetch_bus hbus hne, if_pos hoff])

theorem exec_out_of_phase (hms : s.fg.ms = .fetch) (hon : s.be.phase ≠ .off) (hguard : phaseGuard i s = false)
    (hbus : isBusOp i := by trivial) (hne : ∀ v, i ≠ .busBegin v := by simp) :
    exec i s = .next (s.withFault (.protocolSequenceError i.mnemonic s.be.phase s.be.remaining)) :=
  (raises_at_fetch hms i).1 _ (by rw [faultAtFetch_bus hbus hne, if_neg hon, hguard]; rfl)

/-- A poll that finds the completion flag 0, at a label of the command that waits for it. -/
theorem exec_poll {l : Label} (hms : s.fg.ms = l) (hint : s.bh.int = false) (hl : l ∈ labelsOf i := by simp [labelsOf])
    (hwait : l.awaitsInt := by simp [Label.awaitsInt]) : exec i s = .next s :=
  exec_of_held (hms ▸ hl) (held_of_int (hms ▸ hwait) hint)

/-! ### Runs -/

/-- The scheduled agent moves, with the head of the schedule used up. -/
theorem step_of_sched {a : AgentStep} (hrun : running s = true) (hsched : s.sched = a :: rest) :
    step s = agentStep a { s with sched := rest, tick := s.tick + 1 } := by
  rw [step_of_running hrun, nextStep_of_sched hsched]
  simp [advance, hsched]

theorem runSteps_fg (hrun : running s = true) (hsched : s.sched = .fg :: rest) (hcur : currentInstr s = some i)
    (hexec : exec i { s with sched := rest, tick := s.tick + 1 } = .next t) : runSteps (n + 1) s = runSteps n t :=
  runSteps_succ (((step_of_sched hrun hsched).trans (fgStep_of_current hcur)).trans hexec)

theorem runSteps_busComplete {d status : Byte} (hsched : s.sched = .busComplete d status :: rest)
    (hon : busCompleteEnabled s = true)
    (hdone : busComplete d status { s with sched := rest, tick := s.tick + 1 } = t) :
    runSteps (n + 1) s = runSteps n t :=
  runSteps_succ (((step_of_sched (busCompleteEnabled_iff.1 hon).2.2 hsched).trans (agentStep_busComplete hon)).trans
    (congrArg _ hdone))

theorem runSteps_busStopDone {status : Byte} (hsched : s.sched = .busStopDone status :: rest)
    (hon : busStopEnabled s = true) :
    runSteps (n + 1) s = runSteps n (busStopDone status { s with sched := rest, tick := s.tick + 1 }) :=
  runSteps_succ ((step_of_sched (busStopEnabled_iff.1 hon).2.2 hsched).trans (agentStep_busStopDone hon))

/-- A run goes on from where its first part ends. -/
theorem runSteps_add {m : Nat} (h : runSteps m s = .next t) : runSteps (m + n) s = runSteps n t := by
  induction m generalizing s with
  | zero => rw [Nat.zero_add, next_inj.1 h]
  | succ m ih =>
    rw [Nat.succ_add]
    simp only [runSteps] at h ⊢
    split at h
    · exact ih h
    · cases h
    · cases h

end Sys2Proof.Machine
end

section
/-! The two addressing operations, `BUS_BEGIN_TX` and `BUS_REQUEST_FROM`, label by label and as a whole
(40_bus_engine.md R121, R128, R130). -/

namespace Sys2Proof.Machine

variable {s : State} {a : Addr7} {c : Count} {d₁ st₁ d₂ st₂ : Byte} {rest : List AgentStep}

/-! ### Operands -/

/-- The address in bits 7:1 and the direction in bit 0 do not overlap. -/
theorem sla_toNat (a : Addr7) (rw : Bool) : (sla a rw).toNat = 2 * a.toNat + rw.toNat := by
  have hdir : ((BitVec.ofBool rw).setWidth 8).toNat = rw.toNat := by cases rw <;> rfl
  have haddr : (a.setWidth 8 <<< 1).toNat = a.toNat <<< 1 := by
    rw [BitVec.toNat_shiftLeft, BitVec.toNat_setWidth]
    omega
  rw [sla, BitVec.toNat_or, hdir, haddr, ← Nat.shiftLeft_add_eq_or_of_lt rw.toNat_lt]
  omega

/-- Settles O36: `sla` at both directions. -/
theorem addressByteShiftsTheAddress : Obligations.AddressByteShiftsTheAddress := fun a =>
  ⟨sla_toNat a false, sla_toNat a true⟩

/-- An operand keeps its value in a width that holds it (log 14). -/
theorem low_of_wide {w k : Nat} (x : BitVec w) (h : w ≤ k) : low k x = x :=
  low_of_lt (x.isLt.trans_le (Nat.pow_le_pow_right Nat.two_pos h))

/-! ### `BUS_BEGIN_TX` -/

theorem exec_busBeginTx_fetch (hms : s.fg.ms = .fetch) (hidle : s.be.phase = .idle) :
    exec (.busBeginTx a) s =
      .next { s with
        bh.ctrl := { en := true, sta := true, sto := false, ack := false, ie := false }
        bh.int := false
        bh.pending := .start
        fg.ms := .bt1 } := by
  simp only [exec, execBusBeginTx, hms, hidle, decide_true]
  exact busGuard_passes (by simp [hidle])

theorem exec_busBeginTx_bt1 (hms : s.fg.ms = .bt1) (hint : s.bh.int = true) :
    exec (.busBeginTx a) s = .next { s with be.phase := .started, fg.ms := .bt2 } := by
  simp only [exec, execBusBeginTx, hms, hint, holdUntil_true, goto]

theorem exec_busBeginTx_bt2 (hms : s.fg.ms = .bt2) :
    exec (.busBeginTx a) s = .next { s with bh.data := sla (addrOperand s.params a) false, fg.ms := .bt3 } := by
  simp only [exec, execBusBeginTx, hms, goto]

theorem exec_busBeginTx_bt3 (hms : s.fg.ms = .bt3) :
    exec (.busBeginTx a) s =
      .next { s with
        bh.ctrl := { en := true, sta := false, sto := false, ack := false, ie := false }
        bh.int := false
        bh.pending := .addr
        fg.ms := .bt4 } := by
  simp only [exec, execBusBeginTx, hms]
  rfl

theorem exec_busBeginTx_bt4 (hms : s.fg.ms = .bt4) (hint : s.bh.int = true) :
    exec (.busBeginTx a) s =
      .next { s with
        be.addr := addrOperand s.params a
        be.phase := .addressedW
        fg.pc := s.fg.pc + 1
        fg.ms := .fetch } := by
  simp only [exec, execBusBeginTx, hms, hint, holdUntil_true, endOp]

/-- The whole operation, the bus answering each phase at once. -/
theorem run_busBeginTx (hrun : running s = true) (hms : s.fg.ms = .fetch) (hidle : s.be.phase = .idle)
    (hcur : currentInstr s = some (.busBeginTx a))
    (hsched : s.sched = [.fg, .busComplete d₁ st₁, .fg, .fg, .fg, .busComplete d₂ st₂, .fg] ++ rest) :
    runSteps 7 s = .next { s with
      sched := rest
      tick := s.tick + 7
      be.addr := addrOperand s.params a
      be.phase := .addressedW
      bh.ctrl := { en := true, sta := false, sto := false, ack := false, ie := false }
      bh.int := true
      bh.data := sla (addrOperand s.params a) false
      bh.status := st₂
      bh.pending := .none
      bh.trace := s.bh.trace ++ [.start] ++ [.addr (sla (addrOperand s.params a) false)]
      fg.pc := s.fg.pc + 1
      fg.ms := .fetch } :=
  Eq.trans (runSteps_fg hrun hsched hcur (exec_busBeginTx_fetch hms hidle)) <|
  Eq.trans (runSteps_busComplete rfl hrun (busComplete_start rfl)) <|
  Eq.trans (runSteps_fg hrun rfl hcur (exec_busBeginTx_bt1 rfl rfl)) <|
  Eq.trans (runSteps_fg hrun rfl hcur (exec_busBeginTx_bt2 rfl)) <|
  Eq.trans (runSteps_fg hrun rfl hcur (exec_busBeginTx_bt3 rfl)) <|
  Eq.trans (runSteps_busComplete rfl hrun (busComplete_addr rfl)) <|
  runSteps_fg hrun rfl hcur (exec_busBeginTx_bt4 rfl rfl)

/-- Settles O14: the guards are the phase table's, a poll in vain is a hold, and the run chains the seven steps. -/
theorem busBeginTxAddressesForWriting : Obligations.BusBeginTxAddressesForWriting := by
  refine ⟨fun a => decodeWord_encode (.busBeginTx a),
    fun a s => ⟨fun hms => ⟨fun hoff => ?_, fun hphase => ?_, exec_busBeginTx_fetch hms⟩,
    fun hms => ⟨fun hint => exec_poll hms hint, exec_busBeginTx_bt1 hms⟩,
    exec_busBeginTx_bt2, exec_busBeginTx_bt3,
    fun hms => ⟨fun hint => exec_poll hms hint, exec_busBeginTx_bt4 hms⟩⟩,
    rfl, rfl, fun p a => ⟨low_toNat _ a, low_of_wide a⟩,
    fun a s d₁ st₁ d₂ st₂ rest hrun hms hidle hcur hsched => ?_⟩
  · exact exec_off hms hoff
  · simp only [List.mem_cons, List.not_mem_nil, or_false, not_or] at hphase
    exact exec_out_of_phase hms hphase.1 (decide_eq_false hphase.2)
  · exact ⟨_, run_busBeginTx hrun hms hidle hcur hsched, rfl, rfl, by simp, rfl, rfl, rfl⟩

/-! ### `BUS_REQUEST_FROM` -/

theorem exec_busRequestFrom_fetch (hms : s.fg.ms = .fetch) (hidle : s.be.phase = .idle) :
    exec (.busRequestFrom a c) s =
      .next { s with
        bh.ctrl := { en := true, sta := true, sto := false, ack := false, ie := false }
        bh.int := false
        bh.pending := .start
        fg.ms := .rq1 } := by
  simp only [exec, execBusRequestFrom, hms, hidle, decide_true]
  exact busGuard_passes (by simp [hidle])

theorem exec_busRequestFrom_rq1 (hms : s.fg.ms = .rq1) (hint : s.bh.int = true) :
    exec (.busRequestFrom a c) s = .next { s with be.phase := .started, fg.ms := .rq2 } := by
  simp only [exec, execBusRequestFrom, hms, hint, holdUntil_true, goto]

theorem exec_busRequestFrom_rq2 (hms : s.fg.ms = .rq2) :
    exec (.busRequestFrom a c) s = .next { s with bh.data := sla (addrOperand s.params a) true, fg.ms := .rq3 } := by
  simp only [exec, execBusRequestFrom, hms, goto]

theorem exec_busRequestFrom_rq3 (hms : s.fg.ms = .rq3) :
    exec (.busRequestFrom a c) s =
      .next { s with
        bh.ctrl := { en := true, sta := false, sto := false, ack := false, ie := false }
        bh.int := false
        bh.pending := .addr
        fg.ms := .rq4 } := by
  simp only [exec, execBusRequestFrom, hms]
  rfl

theorem exec_busRequestFrom_rq4 (hms : s.fg.ms = .rq4) (hint : s.bh.int = true) :
    exec (.busRequestFrom a c) s =
      .next { s with
        be := { phase := .addressedR, addr := addrOperand s.params a, remaining := countOperand s.params c }
        fg.pc := s.fg.pc + 1
        fg.ms := .fetch } := by
  simp only [exec, execBusRequestFrom, hms, hint, holdUntil_true, endOp]

/-- What the operation leaves: the session addressed for reading with its count, the two events, the flag set. -/
def afterRequestFrom (a : Addr7) (c : Count) (status : Byte) (rest : List AgentStep) (s : State) : State :=
  { s with
    sched := rest
    tick := s.tick + 7
    be := { phase := .addressedR, addr := addrOperand s.params a, remaining := countOperand s.params c }
    bh.ctrl := { en := true, sta := false, sto := false, ack := false, ie := false }
    bh.int := true
    bh.data := sla (addrOperand s.params a) true
    bh.status := status
    bh.pending := .none
    bh.trace := s.bh.trace ++ [.start] ++ [.addr (sla (addrOperand s.params a) true)]
    fg.pc := s.fg.pc + 1
    fg.ms := .fetch }

/-- The whole operation, the bus answering each phase at once. -/
theorem run_busRequestFrom (hrun : running s = true) (hms : s.fg.ms = .fetch) (hidle : s.be.phase = .idle)
    (hcur : currentInstr s = some (.busRequestFrom a c))
    (hsched : s.sched = [.fg, .busComplete d₁ st₁, .fg, .fg, .fg, .busComplete d₂ st₂, .fg] ++ rest) :
    runSteps 7 s = .next (afterRequestFrom a c st₂ rest s) :=
  Eq.trans (runSteps_fg hrun hsched hcur (exec_busRequestFrom_fetch hms hidle)) <|
  Eq.trans (runSteps_busComplete rfl hrun (busComplete_start rfl)) <|
  Eq.trans (runSteps_fg hrun rfl hcur (exec_busRequestFrom_rq1 rfl rfl)) <|
  Eq.trans (runSteps_fg hrun rfl hcur (exec_busRequestFrom_rq2 rfl)) <|
  Eq.trans (runSteps_fg hrun rfl hcur (exec_busRequestFrom_rq3 rfl)) <|
  Eq.trans (runSteps_busComplete rfl hrun (busComplete_addr rfl)) <|
  runSteps_fg hrun rfl hcur (exec_busRequestFrom_rq4 rfl rfl)

/-- Settles O16: the guards are the phase table's, a poll in vain is a hold, and the run chains the seven steps. -/
theorem busRequestFromAddressesForReading : Obligations.BusRequestFromAddressesForReading := by
  refine ⟨fun a c => decodeWord_encode (.busRequestFrom a c),
    fun a c s => ⟨fun hms => ⟨fun hoff => ?_, fun hphase => ?_, exec_busRequestFrom_fetch hms⟩,
    fun hms => ⟨fun hint => exec_poll hms hint, exec_busRequestFrom_rq1 hms⟩,
    exec_busRequestFrom_rq2, exec_busRequestFrom_rq3,
    fun hms => ⟨fun hint => exec_poll hms hint, exec_busRequestFrom_rq4 hms⟩⟩,
    fun p c => ⟨low_toNat _ c, low_of_wide c⟩,
    fun a c s d₁ st₁ d₂ st₂ rest hrun hms hidle hcur hsched => ?_⟩
  · exact exec_off hms hoff
  · simp only [List.mem_cons, List.not_mem_nil, or_false, not_or] at hphase
    exact exec_out_of_phase hms hphase.1 (decide_eq_false hphase.2)
  · exact ⟨_, run_busRequestFrom hrun hms hidle hcur hsched, rfl, by simp [afterRequestFrom], rfl, rfl, rfl⟩

end Sys2Proof.Machine
end

section
/-! `BUS_BEGIN`, `BUS_WRITE` and `BUS_END_TX`, label by label and as a whole (40_bus_engine.md R127, R129, R132). -/

namespace Sys2Proof.Machine

variable {s : State} {v : Val24} {d d₁ st₁ : Byte} {rest : List AgentStep}

/-! ### `BUS_BEGIN` -/

theorem exec_busBegin_fetch (hms : s.fg.ms = .fetch) (hphase : s.be.phase = .off ∨ s.be.phase = .idle)
    (hd : busDivisor s.params v = some d) :
    exec (.busBegin v) s =
      .next { s with
        bh.div := d
        bh.ctrl := { en := true, sta := false, sto := false, ack := false, ie := false }
        be.phase := .idle
        fg.pc := s.fg.pc + 1
        fg.ms := .fetch } := by
  simp only [exec, execBusBegin, hms, hphase, if_true, hd]
  rfl

/-- Settles O13: the guards come in the order of `faultAtFetch`, and a class listed once has its own divisor. -/
theorem busBeginSetsSpeedAndStarts : Obligations.BusBeginSetsSpeedAndStarts := by
  refine ⟨rfl, fun v => decodeWord_encode (.busBegin v),
    fun v s hms => ⟨fun hphase => ?_, fun hphase hv => ?_, fun hphase hwf d hd => ?_⟩⟩ <;>
    simp only [List.mem_cons, List.not_mem_nil, or_false] at hphase
  · exact (raises_at_fetch hms _).1 _ (by rw [faultAtFetch_busBegin, if_neg hphase])
  · exact (raises_at_fetch hms _).1 _ (by rw [faultAtFetch_busBegin, if_pos hphase, if_neg hv])
  · obtain ⟨-, -, -, -, -, hspeeds, -⟩ := hwf
    exact exec_busBegin_fetch hms hphase (lookup_of_mem hspeeds hd)

/-! ### `BUS_WRITE` -/

theorem exec_busWrite_fetch (hms : s.fg.ms = .fetch) (hphase : s.be.phase.writing) :
    exec (.busWrite d) s = .next { s with bh.data := d, fg.ms := .w1 } := by
  have hguard : s.be.phase = .addressedW ∨ s.be.phase = .transferringW := hphase
  simp only [exec, execBusWrite, hms, hguard, decide_true]
  exact busGuard_passes hphase.not_off_reading.1

theorem exec_busWrite_w1 (hms : s.fg.ms = .w1) :
    exec (.busWrite d) s =
      .next { s with
        bh.ctrl := { en := true, sta := false, sto := false, ack := false, ie := false }
        bh.int := false
        bh.pending := .txData
        fg.ms := .w2 } := by
  simp only [exec, execBusWrite, hms]
  rfl

theorem exec_busWrite_w2 (hms : s.fg.ms = .w2) (hint : s.bh.int = true) :
    exec (.busWrite d) s = .next { s with be.phase := .transferringW, fg.pc := s.fg.pc + 1, fg.ms := .fetch } := by
  simp only [exec, execBusWrite, hms, hint, holdUntil_true, endOp]

/-- The whole operation, the bus answering at once. -/
theorem run_busWrite (hrun : running s = true) (hms : s.fg.ms = .fetch) (hphase : s.be.phase.writing)
    (hcur : currentInstr s = some (.busWrite d)) (hsched : s.sched = [.fg, .fg, .busComplete d₁ st₁, .fg] ++ rest) :
    runSteps 4 s = .next { s with
      sched := rest
      tick := s.tick + 4
      be.phase := .transferringW
      bh.ctrl := { en := true, sta := false, sto := false, ack := false, ie := false }
      bh.int := true
      bh.data := d
      bh.status := st₁
      bh.pending := .none
      bh.trace := s.bh.trace ++ [.tx d]
      fg.pc := s.fg.pc + 1
      fg.ms := .fetch } :=
  Eq.trans (runSteps_fg hrun hsched hcur (exec_busWrite_fetch hms hphase)) <|
  Eq.trans (runSteps_fg hrun rfl hcur (exec_busWrite_w1 rfl)) <|
  Eq.trans (runSteps_busComplete rfl hrun (busComplete_txData rfl)) <|
  runSteps_fg hrun rfl hcur (exec_busWrite_w2 rfl rfl)

/-- Settles O15: the guards are the phase table's, a poll in vain is a hold, and the run chains the four steps. -/
theorem busWriteSendsTheByte : Obligations.BusWriteSendsTheByte := by
  refine ⟨fun d => decodeWord_encode (.busWrite d),
    fun d s => ⟨fun hms => ⟨fun hoff => ?_, fun hphase => ?_, fun hphase => ?_⟩, exec_busWrite_w1,
      fun hms => ⟨fun hint => exec_poll hms hint, exec_busWrite_w2 hms⟩⟩,
    fun d s d₁ st₁ rest hrun hms hphase hcur hsched => ?_⟩
  · exact exec_off hms hoff
  · simp only [List.mem_cons, List.not_mem_nil, or_false, not_or] at hphase
    exact exec_out_of_phase hms hphase.1 (decide_eq_false (by simp [hphase]))
  · exact exec_busWrite_fetch hms (by simpa [Phase.writing] using hphase)
  · exact ⟨_, run_busWrite hrun hms (by simpa [Phase.writing] using hphase) hcur hsched, rfl, rfl, rfl, rfl, rfl⟩

/-! ### `BUS_END_TX` -/

theorem exec_busEndTx_fetch (hms : s.fg.ms = .fetch)
    (hphase : s.be.phase ∈ [Phase.addressedW, .addressedR, .transferringW, .transferringR]) :
    exec .busEndTx s =
      .next { s with
        bh.ctrl := { en := true, sta := false, sto := true, ack := false, ie := false }
        bh.int := false
        bh.pending := .stop
        be.phase := .stopped
        fg.ms := .e1 } := by
  have hon : s.be.phase ≠ .off := fun h => by simp [h] at hphase
  simp only [List.mem_cons, List.not_mem_nil, or_false] at hphase
  simp only [exec, execBusEndTx, hms, hphase, decide_true]
  exact busGuard_passes hon

theorem exec_busEndTx_e1 (hms : s.fg.ms = .e1) (hsto : s.bh.ctrl.sto = false) :
    exec .busEndTx s =
      .next { s with be.phase := .idle, be.remaining := 0, fg.pc := s.fg.pc + 1, fg.ms := .fetch } := by
  simp only [exec, execBusEndTx, hms, hsto, Bool.not_false, holdUntil_true, endOp]

/-- The whole operation, the bus answering at once. -/
theorem run_busEndTx (hrun : running s = true) (hms : s.fg.ms = .fetch)
    (hphase : s.be.phase ∈ [Phase.addressedW, .addressedR, .transferringW, .transferringR])
    (hcur : currentInstr s = some .busEndTx) (hsched : s.sched = [.fg, .busStopDone st₁, .fg] ++ rest) :
    runSteps 3 s = .next { s with
      sched := rest
      tick := s.tick + 3
      be.phase := .idle
      be.remaining := 0
      bh.ctrl := { en := true, sta := false, sto := false, ack := false, ie := false }
      bh.int := false
      bh.status := st₁
      bh.pending := .none
      bh.trace := s.bh.trace ++ [.stop]
      fg.pc := s.fg.pc + 1
      fg.ms := .fetch } :=
  Eq.trans (runSteps_fg hrun hsched hcur (exec_busEndTx_fetch hms hphase)) <|
  Eq.trans (runSteps_busStopDone rfl hrun) <|
  runSteps_fg hrun rfl hcur (exec_busEndTx_e1 rfl rfl)

/-- Settles O18: the guards are the phase table's, a poll in vain is a hold, and the run chains the three steps. -/
theorem busEndTxStopsTheSession : Obligations.BusEndTxStopsTheSession := by
  refine ⟨decodeWord_encode .busEndTx, fun s => ⟨fun hms => ⟨fun hoff => ?_, fun hphase => ?_, exec_busEndTx_fetch hms⟩,
    fun hms => ⟨fun hsto => ?_, exec_busEndTx_e1 hms⟩⟩, fun s st rest hrun hms hphase hcur hsched => ?_⟩
  · exact exec_off hms hoff
  · simp only [List.mem_cons, List.not_mem_nil, or_false, not_or] at hphase
    exact exec_out_of_phase hms hphase.1 (decide_eq_false (by simp [hphase]))
  · exact exec_of_held (by simp [labelsOf, hms]) (held_iff.2 (.inr (.inl ⟨hms, hsto⟩)))
  · exact ⟨_, run_busEndTx hrun hms hphase hcur hsched, rfl, rfl, rfl, rfl, rfl, rfl, rfl, rfl⟩

end Sys2Proof.Machine
end

section
/-! `BUS_READ`, label by label and as a whole, and the reads of a session one after another (40_bus_engine.md R131,
R133, R134, R135). -/

namespace Sys2Proof.Machine

variable {s : State} {d st : Byte} {rest : List AgentStep} {ds : List (Byte × Byte)}

/-! ### One read -/

theorem exec_busRead_fetch (hms : s.fg.ms = .fetch) (hphase : s.be.phase.reading) (hmore : s.be.remaining ≠ 0) :
    exec .busRead s = .next { s with be.remaining := s.be.remaining - 1, fg.ms := .d1 } := by
  have hguard : (s.be.phase = .addressedR ∨ s.be.phase = .transferringR) ∧ s.be.remaining ≠ 0 := ⟨hphase, hmore⟩
  simp only [exec, execBusRead, hms, decide_eq_true hguard]
  exact busGuard_passes hphase.not_off

theorem exec_busRead_d1 (hms : s.fg.ms = .d1) :
    exec .busRead s =
      .next { s with
        bh.ctrl := { en := true, sta := false, sto := false, ack := decide (s.be.remaining ≠ 0), ie := false }
        bh.int := false
        bh.pending := .rxData (decide (s.be.remaining ≠ 0))
        fg.ms := .d2 } := by
  simp only [exec, execBusRead, hms]
  split
  · rw [decide_eq_true ‹_›]
    rfl
  · rw [decide_eq_false ‹_›]
    rfl

theorem exec_busRead_d2 (hms : s.fg.ms = .d2) (hint : s.bh.int = true) :
    exec .busRead s =
      .next { s with
        be.phase := .transferringR
        fg.b := some s.bh.data
        fg.results := s.fg.results ++ [s.bh.data]
        fg.pc := s.fg.pc + 1
        fg.ms := .fetch } := by
  simp only [exec, execBusRead, hms, hint, holdUntil_true, endOp, result]

/-- What a read leaves when the slave drives `d`: the count one lower, and an acknowledgement unless it is then 0. -/
def afterRead (d st : Byte) (rest : List AgentStep) (s : State) : State :=
  { s with
    sched := rest
    tick := s.tick + 4
    be.phase := .transferringR
    be.remaining := s.be.remaining - 1
    bh.ctrl := { en := true, sta := false, sto := false, ack := decide (s.be.remaining - 1 ≠ 0), ie := false }
    bh.int := true
    bh.data := d
    bh.status := st
    bh.pending := .none
    bh.trace := s.bh.trace ++ [.rx d (decide (s.be.remaining - 1 ≠ 0))]
    fg.b := some d
    fg.results := s.fg.results ++ [d]
    fg.pc := s.fg.pc + 1
    fg.ms := .fetch }

@[simp] theorem afterRead_be_phase : (afterRead d st rest s).be.phase = .transferringR := rfl

@[simp] theorem afterRead_bh_trace :
    (afterRead d st rest s).bh.trace = s.bh.trace ++ [.rx d (decide (s.be.remaining - 1 ≠ 0))] := rfl

@[simp] theorem afterRead_fg_results : (afterRead d st rest s).fg.results = s.fg.results ++ [d] := rfl

@[simp] theorem afterRead_fg_pc : (afterRead d st rest s).fg.pc = s.fg.pc + 1 := rfl

/-- The whole operation, the bus answering at once. -/
theorem run_busRead (hrun : running s = true) (hms : s.fg.ms = .fetch) (hphase : s.be.phase.reading)
    (hmore : s.be.remaining ≠ 0) (hcur : currentInstr s = some .busRead)
    (hsched : s.sched = [.fg, .fg, .busComplete d st, .fg] ++ rest) : runSteps 4 s = .next (afterRead d st rest s) :=
  Eq.trans (runSteps_fg hrun hsched hcur (exec_busRead_fetch hms hphase hmore)) <|
  Eq.trans (runSteps_fg hrun rfl hcur (exec_busRead_d1 rfl)) <|
  Eq.trans (runSteps_busComplete rfl hrun (busComplete_rxData rfl)) <|
  runSteps_fg hrun rfl hcur (exec_busRead_d2 rfl rfl)

/-- With no count left a read faults, in any phase but `OFF`. -/
theorem exec_busRead_exhausted (hms : s.fg.ms = .fetch) (hon : s.be.phase ≠ .off) (hnone : s.be.remaining = 0) :
    exec .busRead s = .next (s.withFault (.protocolSequenceError .BUS_READ s.be.phase s.be.remaining)) :=
  exec_out_of_phase hms hon (decide_eq_false fun h => h.2 hnone)

/-- Settles O17: the guards are the phase table's, a poll in vain is a hold, and the run chains the four steps. -/
theorem busReadCountsDownAndReturnsTheByte : Obligations.BusReadCountsDownAndReturnsTheByte := by
  have hreading (s : State) (h : s.be.phase ∈ [Phase.addressedR, .transferringR]) : s.be.phase.reading := by
    simpa [Phase.reading] using h
  refine ⟨decodeWord_encode .busRead,
    fun s => ⟨fun hms => ⟨fun hoff => ?_, fun hon hwhy => ?_, fun hphase => exec_busRead_fetch hms (hreading s hphase)⟩,
      exec_busRead_d1, fun hms => ⟨fun hint => exec_poll hms hint, exec_busRead_d2 hms⟩⟩,
    fun s d st rest hrun hms hphase hmore hcur hsched => ?_⟩
  · exact exec_off hms hoff
  · refine exec_out_of_phase hms hon (decide_eq_false fun ⟨hphase, hmore⟩ => ?_)
    exact hwhy.elim (fun h => h (by simpa using hphase)) hmore
  · refine ⟨_, run_busRead hrun hms (hreading s hphase) hmore hcur hsched, rfl, ?_, rfl, rfl, rfl, rfl⟩
    simp only [afterRead_bh_trace, sub_ne_zero]

/-! ### The reads of a session -/

/-- Every read is acknowledged but the one with no read after it. -/
theorem ackTrace_cons (d : Byte) (ds : List Byte) : ackTrace (d :: ds) = .rx d (decide (ds ≠ [])) :: ackTrace ds := by
  cases ds <;> rfl

theorem currentInstr_of_word {w : Word} {i : Instr} (hw : s.program[s.fg.pc]? = some w) (hi : decodeWord w = .ok i) :
    currentInstr s = some i := by
  simp only [currentInstr, fetchWord, hw, hi]

/-- In a read session whose count is the number of bytes the slave has, all of them are read. -/
theorem run_reads (hrun : running s = true) (hms : s.fg.ms = .fetch) (hphase : s.be.phase.reading)
    (hlen : ds.length < 256) (hcount : s.be.remaining = BitVec.ofNat 8 ds.length)
    (hprog : ∀ k < ds.length, s.program[s.fg.pc + k]? = some 0x14000000) (hsched : s.sched = readSchedule ds ++ rest) :
    ∃ t, runSteps (4 * ds.length) s = .next t ∧ running t = true ∧ t.fg.ms = .fetch ∧
      t.be.phase = (if ds = [] then s.be.phase else .transferringR) ∧ t.be.remaining = 0 ∧ t.program = s.program ∧
      t.sched = rest ∧ t.fg.pc = s.fg.pc + ds.length ∧ t.bh.trace = s.bh.trace ++ ackTrace (ds.map Prod.fst) ∧
      t.fg.results = s.fg.results ++ ds.map Prod.fst := by
  induction ds generalizing s with
  | nil => exact ⟨s, rfl, hrun, hms, rfl, hcount, rfl, hsched, rfl, by simp [ackTrace], by simp⟩
  | cons e ds ih =>
    obtain ⟨d, st⟩ := e
    rw [List.length_cons] at hlen hcount hprog
    have hmore : s.be.remaining ≠ 0 := by rw [hcount]; bv_omega
    have hless : s.be.remaining - 1 = BitVec.ofNat 8 ds.length := by rw [hcount]; bv_omega
    have hack : (s.be.remaining - 1 ≠ 0) = (ds.map Prod.fst ≠ []) := by
      rw [hless, ne_eq, ne_eq, List.map_eq_nil_iff, ← List.length_eq_zero_iff, ← BitVec.toNat_inj]
      simp [Nat.mod_eq_of_lt (Nat.lt_of_succ_lt hlen)]
    have hcur : currentInstr s = some .busRead := currentInstr_of_word (hprog 0 (by omega)) (decodeWord_encode .busRead)
    have hread := run_busRead (rest := readSchedule ds ++ rest) hrun hms hphase hmore hcur hsched
    have hprog' : ∀ k < ds.length, s.program[s.fg.pc + 1 + k]? = some 0x14000000 := fun k hk => by
      rw [Nat.add_assoc, Nat.add_comm 1]
      exact hprog (k + 1) (by omega)
    obtain ⟨t, ht, hrun', hms', hphase', hcount', hprogram, hsched', hpc, htrace, hresults⟩ :=
      ih (s := afterRead d st (readSchedule ds ++ rest) s) hrun rfl (.inr rfl) (by omega) hless hprog' rfl
    refine ⟨t, ?_, hrun', hms', ?_, hcount', hprogram, hsched', ?_, ?_, ?_⟩
    · rw [List.length_cons, Nat.mul_succ, Nat.add_comm, runSteps_add hread, ht]
    · simp [hphase']
    · rw [hpc, afterRead_fg_pc, List.length_cons]
      omega
    · simp only [htrace, afterRead_bh_trace, List.map_cons, ackTrace_cons, hack, List.append_assoc, List.singleton_append]
    · simp [hresults]

/-- Settles O19: the session's operation records the count, the reads use it up, and one more read finds it 0. -/
theorem readSessionAcknowledgesAllButTheLast : Obligations.ReadSessionAcknowledgesAllButTheLast := by
  intro s a ds d₁ st₁ d₂ st₂ rest hrun hms hidle hlen hwidth hcur hprog hsched
  have hopen := run_busRequestFrom hrun hms hidle hcur (hsched.trans (List.append_assoc _ _ _))
  have hcount : countOperand s.params (BitVec.ofNat 8 ds.length) = BitVec.ofNat 8 ds.length := by
    refine low_of_lt ?_
    rwa [BitVec.toNat_ofNat, Nat.mod_eq_of_lt hlen]
  obtain ⟨t, ht, hrun', hms', hphase, hnone, hprogram, hsched', hpc, htrace, hresults⟩ :=
    run_reads (s := afterRequestFrom a (BitVec.ofNat 8 ds.length) st₂ (readSchedule ds ++ .fg :: rest) s) hrun rfl
      (.inl rfl) hlen hcount (fun k hk => hprog k hk.le) rfl
  have hpc' : t.fg.pc = s.fg.pc + 1 + ds.length := hpc
  have hcur' : currentInstr t = some .busRead := by
    refine currentInstr_of_word ?_ (decodeWord_encode .busRead)
    rw [hpc', hprogram]
    exact hprog ds.length le_rfl
  have hon : t.be.phase ≠ .off := by
    rw [hphase]
    split <;> simp [afterRequestFrom]
  refine ⟨t, (runSteps_add hopen).trans ht, ?_, hresults, hnone, hpc', hphase, ?_⟩
  · rw [htrace]
    simp [afterRequestFrom]
  · rw [step_of_running hrun', nextStep_of_sched hsched', ← hnone]
    exact (fgStep_of_current (s := advance t) hcur').trans (exec_busRead_exhausted (s := advance t) hms' hon hnone)

end Sys2Proof.Machine
end

section
/-! The bytes a ring holds, oldest first: what storing, publishing and reading do to them (10_state.md R42 to R45,
41_transport.md R189, R190). -/

namespace Sys2Proof.Machine

/-- The bytes of `n` slots from a slot on, wrapping at the capacity. -/
def Memory.slots (buf : Memory) (cap start n : Nat) : List Byte :=
  (List.range n).map fun k => buf.read ((start + k) % cap)

/-- The byte of the starting slot comes first. -/
theorem Memory.slots_succ_first (buf : Memory) (cap start n : Nat) :
    buf.slots cap start (n + 1) = buf.read (start % cap) :: buf.slots cap (start + 1) n := by
  simp [Memory.slots, List.range_succ_eq_map, Nat.add_comm, Nat.add_left_comm]

/-- The byte of the last slot comes last. -/
theorem Memory.slots_succ_last (buf : Memory) (cap start n : Nat) :
    buf.slots cap start (n + 1) = buf.slots cap start n ++ [buf.read ((start + n) % cap)] := by
  simp [Memory.slots, List.range_succ]

/-- Only the remainder of the starting slot's number counts. -/
theorem Memory.slots_mod (buf : Memory) (cap start n : Nat) : buf.slots cap (start % cap) n = buf.slots cap start n := by
  simp [Memory.slots]

/-- A write to none of the slots leaves their bytes. -/
theorem Memory.slots_write {buf : Memory} (hbuf : buf.wf) {cap start n a : Nat} (v : Byte)
    (ha : ∀ k < n, (start + k) % cap ≠ a) : (buf.write a v).slots cap start n = buf.slots cap start n :=
  List.map_congr_left fun k hk => by rw [Memory.read_write hbuf, if_neg (ha k (List.mem_range.1 hk))]

theorem Ring.wf.head_lt {cap : Nat} {r : Ring} (h : r.wf cap) : r.head.toNat < cap := h.1

theorem Ring.wf.tail_lt {cap : Nat} {r : Ring} (h : r.wf cap) : r.tail.toNat < cap := h.2.1

theorem Ring.wf.storage {cap : Nat} {r : Ring} (h : r.wf cap) : r.buf.wf := h.2.2.1

theorem isFull_false_iff (m : Idx) (r : Ring) : r.isFull m = false ↔ nextIdx m r.head ≠ r.tail := by
  simp [Ring.isFull]

/-! ### A ring of an allowed capacity -/

section
variable {width cap : Nat} {r : Ring}

/-- The number of bytes the ring holds, as a number. -/
theorem count_eq_distance (hcap : CapacityOk cap) (hw : cap ≤ 2 ^ width) (hr : r.wf cap) :
    (r.count (mask width cap)).toNat =
      if r.tail.toNat ≤ r.head.toNat then r.head.toNat - r.tail.toNat else cap + r.head.toNat - r.tail.toNat := by
  rw [count_eq_mod_cap hcap hw hr.tail_lt, distance_mod hr.head_lt hr.tail_lt]

theorem contents_eq_slots (hcap : CapacityOk cap) (hw : cap ≤ 2 ^ width) :
    r.contents (mask width cap) = r.buf.slots cap r.tail.toNat (r.count (mask width cap)).toNat := by
  refine List.map_congr_left fun k _ => ?_
  rw [toNat_and_mask hcap hw, BitVec.toNat_add, BitVec.toNat_ofNat, mod_256_mod hcap, Nat.add_mod, mod_256_mod hcap,
    ← Nat.add_mod]

/-- The slot after an index in range, as a number. -/
theorem nextIdx_toNat_of_lt (hcap : CapacityOk cap) (hw : cap ≤ 2 ^ width) {k : Idx} (hk : k.toNat < cap) :
    (nextIdx (mask width cap) k).toNat = if k.toNat + 1 = cap then 0 else k.toNat + 1 := by
  rw [nextIdx_toNat hcap hw, succ_mod hk]

theorem count_of_isEmpty (hempty : r.head = r.tail) (m : Idx) : (r.count m).toNat = 0 := by
  simp [Ring.count, hempty]

/-- An empty ring holds nothing. -/
theorem contents_of_isEmpty (hempty : r.head = r.tail) (m : Idx) : r.contents m = [] := by
  simp [Ring.contents, count_of_isEmpty hempty]

/-- Publishing a slot with room left adds one to the count. -/
theorem count_publish (hcap : CapacityOk cap) (hw : cap ≤ 2 ^ width) (hr : r.wf cap)
    (hroom : nextIdx (mask width cap) r.head ≠ r.tail) :
    (Ring.count (mask width cap) { r with head := nextIdx (mask width cap) r.head }).toNat =
      (r.count (mask width cap)).toNat + 1 := by
  have hnext := nextIdx_toNat_of_lt hcap hw hr.head_lt
  have hne : (nextIdx (mask width cap) r.head).toNat ≠ r.tail.toNat := fun e => hroom (BitVec.eq_of_toNat_eq e)
  rw [count_eq_distance hcap hw (Ring.wf_head hr (nextIdx_lt hcap hw _)), count_eq_distance hcap hw hr]
  obtain ⟨hhead, htail, -⟩ := hr
  rw [hnext] at hne ⊢
  dsimp only
  split_ifs at hne ⊢ <;> omega

/-- Taking a byte from a ring that holds one subtracts one from the count. -/
theorem count_take (hcap : CapacityOk cap) (hw : cap ≤ 2 ^ width) (hr : r.wf cap) (hne : r.head ≠ r.tail) :
    (r.count (mask width cap)).toNat =
      (Ring.count (mask width cap) { r with tail := nextIdx (mask width cap) r.tail }).toNat + 1 := by
  have hnext := nextIdx_toNat_of_lt hcap hw hr.tail_lt
  have hne' : r.head.toNat ≠ r.tail.toNat := fun e => hne (BitVec.eq_of_toNat_eq e)
  rw [count_eq_distance hcap hw (Ring.wf_tail hr (nextIdx_lt hcap hw _)), count_eq_distance hcap hw hr]
  obtain ⟨hhead, htail, -⟩ := hr
  dsimp only
  rw [hnext]
  split_ifs <;> omega

/-- The head is the slot after the ring's last byte. -/
theorem tail_add_count_mod (hcap : CapacityOk cap) (hw : cap ≤ 2 ^ width) (hr : r.wf cap) :
    (r.tail.toNat + (r.count (mask width cap)).toNat) % cap = r.head.toNat := by
  rw [count_eq_distance hcap hw hr]
  obtain ⟨hhead, htail, -⟩ := hr
  split_ifs
  · rw [show r.tail.toNat + (r.head.toNat - r.tail.toNat) = r.head.toNat by omega, Nat.mod_eq_of_lt hhead]
  · rw [show r.tail.toNat + (cap + r.head.toNat - r.tail.toNat) = r.head.toNat + cap by omega, Nat.add_mod_right,
      Nat.mod_eq_of_lt hhead]

/-- The head is none of the slots that hold a byte. -/
theorem tail_add_mod_ne_head (hcap : CapacityOk cap) (hw : cap ≤ 2 ^ width) (hr : r.wf cap) {k : Nat}
    (hk : k < (r.count (mask width cap)).toNat) : (r.tail.toNat + k) % cap ≠ r.head.toNat := by
  rw [count_eq_distance hcap hw hr] at hk
  obtain ⟨hhead, htail, -⟩ := hr
  by_cases hlt : r.tail.toNat + k < cap
  · rw [Nat.mod_eq_of_lt hlt]
    split_ifs at hk <;> omega
  · rw [Nat.mod_eq_sub_mod (by omega), Nat.mod_eq_of_lt (by split_ifs at hk <;> omega)]
    split_ifs at hk <;> omega

/-- What stands at the head is not yet part of the ring. -/
theorem contents_store (hcap : CapacityOk cap) (hw : cap ≤ 2 ^ width) (hr : r.wf cap) (v : Byte) :
    Ring.contents (mask width cap) { r with buf := r.buf.write r.head.toNat v } = r.contents (mask width cap) := by
  rw [contents_eq_slots hcap hw, contents_eq_slots hcap hw]
  exact Memory.slots_write hr.storage v fun k hk => tail_add_mod_ne_head hcap hw hr hk

/-- Publishing the head's slot appends its byte. -/
theorem contents_publish (hcap : CapacityOk cap) (hw : cap ≤ 2 ^ width) (hr : r.wf cap)
    (hroom : nextIdx (mask width cap) r.head ≠ r.tail) :
    Ring.contents (mask width cap) { r with head := nextIdx (mask width cap) r.head } =
      r.contents (mask width cap) ++ [r.buf.read r.head.toNat] := by
  rw [contents_eq_slots hcap hw, contents_eq_slots hcap hw, count_publish hcap hw hr hroom, Memory.slots_succ_last,
    tail_add_count_mod hcap hw hr]

/-- Moving the tail takes the oldest byte. -/
theorem contents_take (hcap : CapacityOk cap) (hw : cap ≤ 2 ^ width) (hr : r.wf cap) (hne : r.head ≠ r.tail) :
    r.contents (mask width cap) =
      r.buf.read r.tail.toNat ::
        Ring.contents (mask width cap) { r with tail := nextIdx (mask width cap) r.tail } := by
  rw [contents_eq_slots hcap hw, contents_eq_slots hcap hw, count_take hcap hw hr hne, Memory.slots_succ_first,
    Nat.mod_eq_of_lt hr.tail_lt, nextIdx_toNat hcap hw, Memory.slots_mod]

/-- Storing a byte at the head of a ring with room and publishing it appends the byte. -/
theorem contents_enqueue (hcap : CapacityOk cap) (hw : cap ≤ 2 ^ width) (hr : r.wf cap)
    (hroom : nextIdx (mask width cap) r.head ≠ r.tail) (v : Byte) :
    Ring.contents (mask width cap)
        { r with buf := r.buf.write r.head.toNat v, head := nextIdx (mask width cap) r.head } =
      r.contents (mask width cap) ++ [v] := by
  have hpublish := contents_publish hcap hw (Ring.wf_write hr v) hroom
  rwa [contents_store hcap hw hr, Memory.read_write hr.storage, if_pos rfl] at hpublish

/-- In a ring of at least two slots the slot after an index is another one. -/
theorem nextIdx_ne (hcap : CapacityOk cap) (hw : cap ≤ 2 ^ width) {k : Idx} (hk : k.toNat < cap) :
    nextIdx (mask width cap) k ≠ k := fun e => by
  have hnext := nextIdx_toNat_of_lt hcap hw hk
  rw [e] at hnext
  have htwo := capacity_pos hcap
  split_ifs at hnext <;> omega

end

end Sys2Proof.Machine
end

section
/-! The operations of the transport, label by label and as a whole (41_transport.md R171, R173, R175, R176, R177). -/

namespace Sys2Proof.Machine

variable {s : State} {i : Instr} {v : Val24} {d b : Byte} {n k : Idx} {div : Nat} {rest : List AgentStep}

/-! ### Guards -/

theorem exec_not_started (hms : s.fg.ms = .fetch) (hoff : s.ut.started = false) (huart : isTransportOp i := by trivial)
    (hne : ∀ v, i ≠ .uartBegin v := by simp) : exec i s = .next (s.withFault (.notStarted .uart i.mnemonic)) := by
  refine (raises_at_fetch hms i).1 _ ?_
  cases i with
  | uartBegin v => exact absurd rfl (hne v)
  | uartSend | uartAvailable | uartReceive | uartFlush => simp [faultAtFetch, hoff]
  | _ => exact huart.elim

theorem uartGuard_passes {op : Mnemonic} {r : Result} (hon : s.ut.started = true) : uartGuard op s r = r := if_pos hon

/-! ### `UART_BEGIN` -/

theorem exec_uartBegin_fetch (hms : s.fg.ms = .fetch) (hbaud : v.toNat ∈ s.params.uartDivisor.map Prod.fst) :
    exec (.uartBegin v) s =
      .next { s with
        uh.ctrl := { rxen := false, txen := false, rxcie := false, udrie := false }
        uh.rxFifo := []
        fg.ms := .u1 } := by
  obtain ⟨div, hdiv⟩ : ∃ div, uartDivisor s.params v = some div :=
    Option.ne_none_iff_exists'.1 fun hnone => uartDivisor_eq_none_iff.1 hnone hbaud
  simp only [exec, execUartBegin, hms, hdiv]
  rfl

/-- A listed rate has its own divisor, which the register holds whole. -/
theorem uartDivisor_of_mem {p : Config.Params} (hp : p.wf) (hdiv : (v.toNat, div) ∈ p.uartDivisor) :
    uartDivisor p v = some div ∧ divRegister p div = div := by
  obtain ⟨-, -, -, ⟨hnodup, hfits⟩, -⟩ := hp
  exact ⟨lookup_of_mem hnodup hdiv, Nat.mod_eq_of_lt (hfits _ hdiv)⟩

theorem exec_uartBegin_u1 (hms : s.fg.ms = .u1) (hp : s.params.wf) (hdiv : (v.toNat, div) ∈ s.params.uartDivisor) :
    exec (.uartBegin v) s = .next { s with uh.div := div, fg.ms := .u2 } := by
  obtain ⟨hlookup, hfits⟩ := uartDivisor_of_mem hp hdiv
  simp only [exec, execUartBegin, hms, hlookup, hfits, goto]

theorem exec_uartBegin_u2 (hms : s.fg.ms = .u2) :
    exec (.uartBegin v) s =
      .next { s with
        ut.rx.head := 0, ut.rx.tail := 0, ut.tx.head := 0, ut.tx.tail := 0, ut.rxOvf := 0, fg.ms := .u3 } := by
  simp only [exec, execUartBegin, hms, goto]

theorem exec_uartBegin_u3 (hms : s.fg.ms = .u3) :
    exec (.uartBegin v) s =
      .next { s with
        uh.ctrl := { rxen := true, txen := true, rxcie := true, udrie := false }
        ut.started := true
        fg.pc := s.fg.pc + 1
        fg.ms := .fetch } := by
  simp only [exec, execUartBegin, hms]
  rfl

/-- The whole operation. -/
theorem run_uartBegin (hp : s.params.wf) (hrun : running s = true) (hms : s.fg.ms = .fetch)
    (hdiv : (v.toNat, div) ∈ s.params.uartDivisor) (hcur : currentInstr s = some (.uartBegin v))
    (hsched : s.sched = [.fg, .fg, .fg, .fg] ++ rest) :
    runSteps 4 s =
      .next { s with
        sched := rest
        tick := s.tick + 4
        uh.ctrl := { rxen := true, txen := true, rxcie := true, udrie := false }
        uh.rxFifo := []
        uh.div := div
        ut := { started := true, rx := { s.ut.rx with head := 0, tail := 0 }, tx := { s.ut.tx with head := 0, tail := 0 },
                rxOvf := 0 }
        fg.pc := s.fg.pc + 1
        fg.ms := .fetch } :=
  Eq.trans (runSteps_fg hrun hsched hcur (exec_uartBegin_fetch hms (List.mem_map_of_mem hdiv))) <|
  Eq.trans (runSteps_fg hrun rfl hcur (exec_uartBegin_u1 rfl hp hdiv)) <|
  Eq.trans (runSteps_fg hrun rfl hcur (exec_uartBegin_u2 rfl)) <|
  runSteps_fg hrun rfl hcur (exec_uartBegin_u3 rfl)

/-- Settles O20: a listed rate's divisor fits its register, and the run chains the four steps. -/
theorem uartBeginResetsAndEnables : Obligations.UartBeginResetsAndEnables := by
  refine ⟨fun v => decodeWord_encode (.uartBegin v),
    fun v s => ⟨fun hms => ⟨fun hbaud => ?_, exec_uartBegin_fetch hms⟩, fun hms hp _ => exec_uartBegin_u1 hms hp,
      exec_uartBegin_u2, exec_uartBegin_u3⟩,
    fun v div s rest => run_uartBegin⟩
  exact (raises_at_fetch hms _).1 _ (if_neg hbaud)

/-! ### `UART_SEND` -/

theorem exec_uartSend_fetch (hms : s.fg.ms = .fetch) (hon : s.ut.started = true) :
    exec (.uartSend d) s =
      .next { s with fg.n := some (nextIdx (maskTx s.params) s.ut.tx.head), fg.ms := .s1 } := by
  simp only [exec, execUartSend, hms]
  exact uartGuard_passes hon

theorem exec_uartSend_s1_full (hms : s.fg.ms = .s1) (hn : s.fg.n = some s.ut.tx.tail) :
    exec (.uartSend d) s = .next s :=
  exec_of_held (by simp [labelsOf, hms]) (held_iff.2 (.inr (.inr ⟨hms, hn⟩)))

theorem exec_uartSend_s1_room (hn : s.fg.n = some n) (hms : s.fg.ms = .s1) (hroom : n ≠ s.ut.tx.tail) :
    exec (.uartSend d) s = .next { s with fg.ms := .s2 } := by
  simp only [exec, execUartSend, hms, hn, hroom, ne_eq, not_false_iff, decide_true, holdUntil_true, goto]

theorem exec_uartSend_s2 (hms : s.fg.ms = .s2) (hslot : s.ut.tx.head.toNat < s.params.capTx) :
    exec (.uartSend d) s =
      .next { s with ut.tx.buf := s.ut.tx.buf.write s.ut.tx.head.toNat d, fg.ms := .s3 } := by
  simp only [exec, execUartSend, hms, Ring.slotWrite_of_lt hslot, goto]

theorem exec_uartSend_s3 (hn : s.fg.n = some n) (hms : s.fg.ms = .s3) :
    exec (.uartSend d) s = .next { s with ut.tx.head := n, fg.ms := .s4 } := by
  simp only [exec, execUartSend, hms, hn, goto]

theorem exec_uartSend_s4 (hms : s.fg.ms = .s4) :
    exec (.uartSend d) s = .next { s with uh.ctrl.udrie := true, fg.pc := s.fg.pc + 1, fg.ms := .fetch } := by
  simp only [exec, execUartSend, hms, setUdrie, endOp]

/-- The whole operation on a ring with room. -/
theorem run_uartSend (hrun : running s = true) (hms : s.fg.ms = .fetch) (hon : s.ut.started = true)
    (hslot : s.ut.tx.head.toNat < s.params.capTx) (hroom : nextIdx (maskTx s.params) s.ut.tx.head ≠ s.ut.tx.tail)
    (hcur : currentInstr s = some (.uartSend d)) (hsched : s.sched = [.fg, .fg, .fg, .fg, .fg] ++ rest) :
    runSteps 5 s =
      .next { s with
        sched := rest
        tick := s.tick + 5
        ut.tx.buf := s.ut.tx.buf.write s.ut.tx.head.toNat d
        ut.tx.head := nextIdx (maskTx s.params) s.ut.tx.head
        uh.ctrl.udrie := true
        fg.n := some (nextIdx (maskTx s.params) s.ut.tx.head)
        fg.pc := s.fg.pc + 1
        fg.ms := .fetch } :=
  Eq.trans (runSteps_fg hrun hsched hcur (exec_uartSend_fetch hms hon)) <|
  Eq.trans (runSteps_fg hrun rfl hcur (exec_uartSend_s1_room rfl rfl hroom)) <|
  Eq.trans (runSteps_fg hrun rfl hcur (exec_uartSend_s2 rfl hslot)) <|
  Eq.trans (runSteps_fg hrun rfl hcur (exec_uartSend_s3 rfl rfl)) <|
  runSteps_fg hrun rfl hcur (exec_uartSend_s4 rfl)

/-- Settles O21: a poll on a full ring is a hold, and the run chains the five steps. -/
theorem uartSendStoresPublishesEnables : Obligations.UartSendStoresPublishesEnables := by
  refine ⟨fun d => decodeWord_encode (.uartSend d),
    fun d s => ⟨fun hms => ⟨exec_not_started hms, exec_uartSend_fetch hms⟩,
      fun n hn hms => ⟨fun hfull => exec_uartSend_s1_full hms (hfull ▸ hn), exec_uartSend_s1_room hn hms⟩,
      exec_uartSend_s2, fun n => exec_uartSend_s3, exec_uartSend_s4⟩,
    fun d s rest hs hrun hms hon hfull hcur hsched => ?_⟩
  have hroom := (isFull_false_iff _ _).1 hfull
  obtain ⟨hcap, hw⟩ := (wf_masks hs.params).2
  exact ⟨_, run_uartSend hrun hms hon hs.tx.head_lt hroom hcur hsched, fun a => Memory.read_write hs.tx.storage _ a d,
    nextIdx_toNat hcap hw _, rfl, rfl, rfl, rfl, rfl, rfl⟩

/-! ### `UART_AVAILABLE` -/

/-- Settles O22: the mask's count is the remainder modulo the capacity. -/
theorem uartAvailableCountsAtomically : Obligations.UartAvailableCountsAtomically := by
  refine ⟨decodeWord_encode .uartAvailable, fun s hms => ⟨exec_not_started hms, fun hon hs => ?_⟩⟩
  obtain ⟨hcap, hw⟩ := (wf_masks hs.params).1
  have hcount := count_eq_mod_cap hcap hw hs.rx.tail_lt
  rw [← maskRx] at hcount
  rw [← hcount, BitVec.ofNat_toNat, BitVec.setWidth_eq]
  simp only [exec, execUartAvailable, hms]
  exact uartGuard_passes hon

/-! ### `UART_RECEIVE` -/

theorem exec_uartReceive_empty (hms : s.fg.ms = .fetch) (hon : s.ut.started = true)
    (hempty : s.ut.rx.head = s.ut.rx.tail) : exec .uartReceive s = .next (s.withFault .receiveEmpty) :=
  (raises_at_fetch hms _).1 _ ((if_pos hon).trans (if_pos hempty))

theorem exec_uartReceive_fetch (hms : s.fg.ms = .fetch) (hon : s.ut.started = true)
    (hne : s.ut.rx.head ≠ s.ut.rx.tail) :
    exec .uartReceive s = .next { s with fg.h := some s.ut.rx.head, fg.ms := .v1 } := by
  simp only [exec, execUartReceive, hms, (isEmpty_false_iff _).2 hne]
  exact uartGuard_passes hon

theorem exec_uartReceive_v1 (hms : s.fg.ms = .v1) (hslot : s.ut.rx.tail.toNat < s.params.capRx) :
    exec .uartReceive s = .next { s with fg.b := some (s.ut.rx.buf.read s.ut.rx.tail.toNat), fg.ms := .v2 } := by
  simp only [exec, execUartReceive, hms, Ring.slotRead_of_lt hslot, goto]

theorem exec_uartReceive_v2 (hb : s.fg.b = some b) (hms : s.fg.ms = .v2) :
    exec .uartReceive s =
      .next { s with
        ut.rx.tail := nextIdx (maskRx s.params) s.ut.rx.tail
        fg.results := s.fg.results ++ [b]
        fg.pc := s.fg.pc + 1
        fg.ms := .fetch } := by
  simp only [exec, execUartReceive, hms, hb, result, endOp]

/-- The whole operation on a ring that holds a byte. -/
theorem run_uartReceive (hrun : running s = true) (hms : s.fg.ms = .fetch) (hon : s.ut.started = true)
    (hne : s.ut.rx.head ≠ s.ut.rx.tail) (hslot : s.ut.rx.tail.toNat < s.params.capRx)
    (hcur : currentInstr s = some .uartReceive) (hsched : s.sched = [.fg, .fg, .fg] ++ rest) :
    runSteps 3 s =
      .next { s with
        sched := rest
        tick := s.tick + 3
        ut.rx.tail := nextIdx (maskRx s.params) s.ut.rx.tail
        fg.h := some s.ut.rx.head
        fg.b := some (s.ut.rx.buf.read s.ut.rx.tail.toNat)
        fg.results := s.fg.results ++ [s.ut.rx.buf.read s.ut.rx.tail.toNat]
        fg.pc := s.fg.pc + 1
        fg.ms := .fetch } :=
  Eq.trans (runSteps_fg hrun hsched hcur (exec_uartReceive_fetch hms hon hne)) <|
  Eq.trans (runSteps_fg hrun rfl hcur (exec_uartReceive_v1 rfl hslot)) <|
  runSteps_fg hrun rfl hcur (exec_uartReceive_v2 rfl rfl)

/-- Settles O23: the run chains the three steps, and the byte at the tail is the oldest. -/
theorem uartReceiveReturnsTheOldestByte : Obligations.UartReceiveReturnsTheOldestByte := by
  refine ⟨decodeWord_encode .uartReceive,
    fun s => ⟨fun hms => ⟨exec_not_started hms, exec_uartReceive_empty hms, exec_uartReceive_fetch hms⟩,
      exec_uartReceive_v1, fun b => exec_uartReceive_v2⟩,
    fun s rest hs hrun hms hon hne hcur hsched => ?_⟩
  obtain ⟨hcap, hw⟩ := (wf_masks hs.params).1
  exact ⟨_, _, run_uartReceive hrun hms hon hne hs.rx.tail_lt hcur hsched, contents_take hcap hw hs.rx hne,
    rfl, rfl, rfl, rfl, rfl, rfl, rfl, rfl⟩

/-! ### `UART_FLUSH` -/

theorem exec_uartFlush_fetch (hms : s.fg.ms = .fetch) (hon : s.ut.started = true) :
    exec .uartFlush s = .next { s with fg.h := some s.ut.rx.head, fg.ms := .f1 } := by
  simp only [exec, execUartFlush, hms]
  exact uartGuard_passes hon

theorem exec_uartFlush_f1 (hk : s.fg.h = some k) (hms : s.fg.ms = .f1) :
    exec .uartFlush s = .next { s with ut.rx.tail := k, fg.pc := s.fg.pc + 1, fg.ms := .fetch } := by
  simp only [exec, execUartFlush, hms, hk, endOp]

/-- Settles O24: F1 writes what FETCH read, and the run chains the two steps. -/
theorem uartFlushDiscardsTheSnapshot : Obligations.UartFlushDiscardsTheSnapshot := by
  refine ⟨decodeWord_encode .uartFlush,
    fun s => ⟨fun hms => ⟨exec_not_started hms, exec_uartFlush_fetch hms⟩, fun k => exec_uartFlush_f1⟩,
    fun s rest hrun hms hon hcur hsched => ?_⟩
  exact (runSteps_fg hrun hsched hcur (exec_uartFlush_fetch hms hon)).trans
    (runSteps_fg hrun rfl hcur (exec_uartFlush_f1 rfl rfl))

end Sys2Proof.Machine
end

section
/-! No byte is stranded in the transmit ring with the pump idle (41_transport.md R171, R173, R183, R184). -/

namespace Sys2Proof.Machine

variable {i : Instr} {s t : State} {a : AgentStep}

/-- Away from the labels that excuse an idle pump, a micro-step that moves no transmit index and leaves `UDRIE` alone keeps
the pump invariant. -/
theorem pumpOk_of_kept (hp : s.PumpOk) (hms : s.fg.ms ∉ [Label.s4, .u1, .u2]) (hhead : t.ut.tx.head = s.ut.tx.head)
    (htail : t.ut.tx.tail = s.ut.tx.tail) (hudrie : t.uh.ctrl.udrie = s.uh.ctrl.udrie) : t.PumpOk := by
  simp only [List.mem_cons, List.not_mem_nil, or_false] at hms
  simp only [State.PumpOk, hms, or_false, isEmpty_iff] at hp
  simp only [State.PumpOk, isEmpty_iff, hhead, htail, hudrie]
  exact hp.imp_right .inl

/-- S3 publishes a byte and leads to S4, which enables the pump; `begin` disables it and leads to U1 and U2, which empties
the ring. -/
theorem MicroStep.pumpOk (h : MicroStep s i t) (hp : s.PumpOk) (hst : s.StartedOk) : t.PumpOk := by
  cases h with
  | raised | polled => exact hp
  | uartDisable => exact .inr (.inr (.inr (.inl rfl)))
  | uartSetDivisor => exact .inr (.inr (.inr (.inr rfl)))
  | uartResetRings => exact .inl ((isEmpty_iff _).2 rfl)
  | uartEnable v hms =>
    obtain ⟨-, -, hhead, htail, -⟩ := hst.emptied hms
    exact .inl ((isEmpty_iff _).2 (hhead.trans htail.symm))
  | sendPublish => exact .inr (.inr (.inl rfl))
  | sendPump => exact .inr (.inl rfl)
  | _ => exact pumpOk_of_kept hp (by simp [*]) rfl rfl rfl

/-- Of the micro-steps only the FETCH and U3 of `UART_BEGIN` can clear `UDRIE`. -/
theorem MicroStep.udrie_cleared (h : MicroStep s i t) (hon : s.uh.ctrl.udrie = true) (hoff : t.uh.ctrl.udrie = false) :
    (s.fg.ms = .fetch ∨ s.fg.ms = .u3) ∧ ∃ v, i = .uartBegin v := by
  have hchanged : t.uh.ctrl.udrie ≠ s.uh.ctrl.udrie := by simp [hon, hoff]
  cases h with
  | uartDisable v hms => exact ⟨.inl hms, v, rfl⟩
  | uartEnable v hms => exact ⟨.inr hms, v, rfl⟩
  | sendPump => cases hoff
  | _ => exact absurd rfl hchanged

/-- Of the other agents only `ISR_TX` can, on an empty ring. -/
theorem OtherStep.udrie_cleared (h : OtherStep s a t) (hon : s.uh.ctrl.udrie = true) (hoff : t.uh.ctrl.udrie = false) :
    a = .isrTx ∧ s.ut.tx.head = s.ut.tx.tail := by
  have hchanged : t.uh.ctrl.udrie ≠ s.uh.ctrl.udrie := by simp [hon, hoff]
  cases h with
  | txIdled _ hempty => exact ⟨rfl, hempty⟩
  | _ => exact absurd rfl hchanged

/-- Settles O43: each micro-step provides for the pump at the label it leads to, and the other agents idle it only on an
empty ring. -/
theorem stepsKeepThePump : Obligations.StepsKeepThePump := by
  refine ⟨fun s t hinv h => ?_, fun d s t hms h => ?_, fun s t h hon hoff => ?_⟩
  · obtain ⟨-, rfl | ⟨-, rfl⟩ | ⟨i, -, hmicro⟩⟩ | ⟨-, hother⟩ := step_cases h
    · exact hinv.pump
    · exact hinv.pump
    · exact hmicro.pumpOk hinv.pump hinv.started.advance
    · exact hother.pumpOk hinv.pump
  · obtain rfl := next_inj.1 ((exec_uartSend_s4 hms).symm.trans h)
    rfl
  · obtain ⟨hfg, rfl | ⟨-, rfl⟩ | ⟨i, hcur, hmicro⟩⟩ | ⟨-, hother⟩ := step_cases h
    · exact absurd hon (Bool.eq_false_iff.1 hoff)
    · exact absurd hon (Bool.eq_false_iff.1 hoff)
    · obtain ⟨hms, v, rfl⟩ := hmicro.udrie_cleared hon hoff
      exact .inr ⟨hfg, hms, v, hcur⟩
    · exact .inl (hother.udrie_cleared hon hoff)

end Sys2Proof.Machine
end

section
/-! The UART hardware and the two interrupt handlers: when each step is enabled, and what it does (41_transport.md R180 to
R183, R185 to R187, 60_exceptions.md R250 to R252). -/

namespace Sys2Proof.Machine

variable {s : State} {b : Byte} {rest : List Byte}

/-! ### The UART hardware -/

theorem arriveEnabled_iff :
    arriveEnabled s = true ↔ s.wire.rxIn ≠ [] ∧ s.uh.ctrl.rxen = true ∧ running s = true := by
  simp [arriveEnabled, and_assoc]

theorem dropEnabled_iff :
    dropEnabled s = true ↔ s.wire.rxIn ≠ [] ∧ s.uh.ctrl.rxen = false ∧ running s = true := by
  simp [dropEnabled, and_assoc]

theorem shiftEnabled_iff :
    shiftEnabled s = true ↔ s.uh.txReg ≠ none ∧ s.uh.ctrl.txen = true ∧ running s = true := by
  simp [shiftEnabled, and_assoc, Option.isSome_iff_ne_none]

theorem arrive_of_room (hin : s.wire.rxIn = b :: rest) (hroom : s.uh.rxFifo.length < s.params.rxHwDepth) :
    arrive s = { s with wire.rxIn := rest, uh.rxFifo := s.uh.rxFifo ++ [b] } := by
  simp only [arrive, hin, if_pos hroom]

theorem arrive_of_full (hin : s.wire.rxIn = b :: rest) (hfull : s.params.rxHwDepth ≤ s.uh.rxFifo.length) :
    arrive s = { s with wire.rxIn := rest, uh.hwOvr := s.uh.hwOvr + 1 } := by
  simp only [arrive, hin, if_neg (Nat.not_lt.2 hfull)]

theorem drop_of_cons (hin : s.wire.rxIn = b :: rest) :
    drop s = { s with wire.rxIn := rest, uh.hwOvr := s.uh.hwOvr + 1 } := by
  simp only [drop, hin, List.tail_cons]

theorem shift_of_some (hreg : s.uh.txReg = some b) :
    shift s = { s with wire.txOut := s.wire.txOut ++ [b], uh.txReg := none } := by
  simp only [shift, hreg]

/-- Settles O28: each conjunct of an enabling condition is one of the rule's, and each step has its effect. -/
theorem uartHardwareMovesBytes : Obligations.UartHardwareMovesBytes := by
  refine ⟨fun s => ?_, fun s b rest => ⟨fun hnext hon hin => ⟨fun hroom => ?_, fun hfull => ?_⟩, fun hnext hon hin => ?_,
    fun hnext hon hreg => ?_⟩⟩
  · rw [← running_iff]
    exact ⟨arriveEnabled_iff, dropEnabled_iff, shiftEnabled_iff⟩
  · exact ((step_of_enabled hnext hon).trans (if_pos hon)).trans (congrArg _ (arrive_of_room hin hroom))
  · exact ((step_of_enabled hnext hon).trans (if_pos hon)).trans (congrArg _ (arrive_of_full hin hfull))
  · exact ((step_of_enabled hnext hon).trans (if_pos hon)).trans (congrArg _ (drop_of_cons hin))
  · exact ((step_of_enabled hnext hon).trans (if_pos hon)).trans (congrArg _ (shift_of_some hreg))

/-! ### `ISR_RX` -/

theorem isrRxEnabled_iff :
    isrRxEnabled s = true ↔ s.gie = true ∧ s.uh.ctrl.rxcie = true ∧ s.uh.rxFifo ≠ [] ∧ running s = true := by
  simp [isrRxEnabled, pendRx, rxc, and_assoc]

/-- What `ISR_RX` leaves where it stores: the popped byte at the old head, which advances, under the given overflow count. -/
def afterRxStore (b : Byte) (rest : List Byte) (ovf : Nat) (s : State) : State :=
  { s with
    uh.rxFifo := rest
    ut.rxOvf := ovf
    ut.rx.buf := s.ut.rx.buf.write s.ut.rx.head.toNat b
    ut.rx.head := nextIdx (maskRx s.params) s.ut.rx.head }

theorem rxStore_of_lt (hslot : s.ut.rx.head.toNat < s.params.capRx) :
    rxStore b s = .next (afterRxStore b s.uh.rxFifo s.ut.rxOvf s) := by
  simp only [rxStore, Ring.slotWrite_of_lt hslot, afterRxStore]

theorem isrRx_of_room (hq : s.uh.rxFifo = b :: rest) (hroom : rxFull s = false)
    (hslot : s.ut.rx.head.toNat < s.params.capRx) :
    isrRx s = .next { afterRxStore b rest s.ut.rxOvf s with gie := true } := by
  refine takeHandler_of_next (u := afterRxStore b rest s.ut.rxOvf (enterHandler s)) ?_
  have hroom' : rxFull (enterHandler s) = false := hroom
  simp only [isrRxBody, enterHandler_uh, hq, hroom', Bool.false_eq_true, if_false]
  exact rxStore_of_lt hslot

theorem isrRx_of_full_dropNew (hq : s.uh.rxFifo = b :: rest) (hfull : rxFull s = true)
    (hpolicy : s.params.rxPolicy = .dropNew) :
    isrRx s =
      .next { s with uh.rxFifo := rest, ut.rxOvf := bumpOvf s.params.ovfWidth s.ut.rxOvf, gie := true } := by
  refine takeHandler_of_next
    (u := { enterHandler s with uh.rxFifo := rest, ut.rxOvf := bumpOvf s.params.ovfWidth s.ut.rxOvf }) ?_
  have hfull' : rxFull (enterHandler s) = true := hfull
  simp only [isrRxBody, enterHandler_uh, hq, hfull', if_true, enterHandler_params, hpolicy, enterHandler_ut]

theorem isrRx_of_full_wrap (hq : s.uh.rxFifo = b :: rest) (hfull : rxFull s = true)
    (hpolicy : s.params.rxPolicy = .wrap) (hslot : s.ut.rx.head.toNat < s.params.capRx) :
    isrRx s = .next { afterRxStore b rest (bumpOvf s.params.ovfWidth s.ut.rxOvf) s with gie := true } := by
  refine takeHandler_of_next
    (u := afterRxStore b rest (bumpOvf s.params.ovfWidth s.ut.rxOvf) (enterHandler s)) ?_
  have hfull' : rxFull (enterHandler s) = true := hfull
  simp only [isrRxBody, enterHandler_uh, hq, hfull', if_true, enterHandler_params, hpolicy]
  exact rxStore_of_lt hslot

theorem step_of_isrRxEnabled (hnext : nextStep s = .isrRx) (hon : enabled .isrRx s = true) :
    step s = isrRx (advance s) := (step_of_enabled hnext hon).trans (if_pos hon)

/-- Settles O29: the handler returns with interrupts enabled, as they were when it was taken. -/
theorem receiveHandlerStoresOrCounts : Obligations.ReceiveHandlerStoresOrCounts := by
  refine ⟨fun s => ?_, fun v => rfl, fun s b rest hnext hon hq hslot => ?_⟩
  · rw [← running_iff]
    exact isrRxEnabled_iff
  · obtain ⟨hgie, -⟩ := isrRxEnabled_iff.1 hon
    rw [step_of_isrRxEnabled hnext hon]
    refine ⟨fun hroom => ?_, fun hfull hpolicy => ?_, fun hfull hpolicy => ?_⟩
    · rw [isrRx_of_room (s := advance s) hq ((isFull_false_iff _ _).2 hroom) hslot, ← hgie]
      rfl
    · rw [isrRx_of_full_dropNew (s := advance s) hq ((isFull_iff _ _).2 hfull) hpolicy, ← hgie]
      rfl
    · rw [isrRx_of_full_wrap (s := advance s) hq ((isFull_iff _ _).2 hfull) hpolicy hslot, ← hgie]
      rfl

/-! ### `ISR_TX` -/

theorem isrTxEnabled_iff :
    isrTxEnabled s = true ↔ s.gie = true ∧ s.uh.ctrl.udrie = true ∧ s.uh.txReg = none ∧ running s = true := by
  simp [isrTxEnabled, pendTx, udre, and_assoc]

theorem isrTx_of_isEmpty (hempty : s.ut.tx.head = s.ut.tx.tail) :
    isrTx s = .next { s with uh.ctrl.udrie := false, gie := true } := by
  refine takeHandler_of_next (u := setUdrie false (enterHandler s)) ?_
  simp only [isrTxBody, enterHandler_ut, (isEmpty_iff _).2 hempty, if_true]

theorem isrTx_of_nonempty (hne : s.ut.tx.head ≠ s.ut.tx.tail) (hslot : s.ut.tx.tail.toNat < s.params.capTx) :
    isrTx s =
      .next { s with
        uh.txReg := some (s.ut.tx.buf.read s.ut.tx.tail.toNat)
        ut.tx.tail := nextIdx (maskTx s.params) s.ut.tx.tail
        gie := true } := by
  refine takeHandler_of_next
    (u := { enterHandler s with
      uh.txReg := some (s.ut.tx.buf.read s.ut.tx.tail.toNat)
      ut.tx.tail := nextIdx (maskTx s.params) s.ut.tx.tail }) ?_
  simp only [isrTxBody, enterHandler_ut, enterHandler_params, (isEmpty_false_iff _).2 hne, Bool.false_eq_true, if_false,
    Ring.slotRead_of_lt hslot, txDataWrite]

/-- Settles O30: the handler returns with interrupts enabled, as they were when it was taken. -/
theorem transmitHandlerSendsOrDisables : Obligations.TransmitHandlerSendsOrDisables := by
  refine ⟨fun s => ?_, fun s hnext hon => ?_⟩
  · rw [← running_iff]
    exact isrTxEnabled_iff
  · obtain ⟨hgie, -⟩ := isrTxEnabled_iff.1 hon
    have hstep : step s = isrTx (advance s) := (step_of_enabled hnext hon).trans (if_pos hon)
    rw [hstep]
    refine ⟨fun hempty => ?_, fun hne hslot => ?_⟩
    · rw [isrTx_of_isEmpty (s := advance s) hempty, ← hgie]
      rfl
    · rw [isrTx_of_nonempty (s := advance s) hne hslot, ← hgie]
      rfl

/-! ### Overflow -/

/-- Storing on a full ring moves the head onto the tail. -/
theorem afterRxStore_isEmpty {ovf : Nat} (hfull : rxFull s = true) :
    (afterRxStore b rest ovf s).ut.rx.head = (afterRxStore b rest ovf s).ut.rx.tail := (isFull_iff _ _).1 hfull

/-- With one slot kept free, a ring of `cap - 1` bytes is full. -/
theorem rxFull_of_count (hs : s.Shaped) (hcount : (s.ut.rx.count (maskRx s.params)).toNat = s.params.capRx - 1) :
    rxFull s = true := by
  obtain ⟨hcap, hw⟩ := (wf_masks hs.params).1
  obtain ⟨-, -, -, -, -, -, hfull⟩ := ringArithmeticIsModuloCapacity _ _ s.ut.rx hcap hw hs.rx.head_lt hs.rx.tail_lt
  exact hfull.2 hcount

theorem afterRxStore_wf {ovf : Nat} (hs : s.Shaped) :
    (afterRxStore b rest ovf s).ut.rx.wf s.params.capRx :=
  Ring.wf_head (Ring.wf_write hs.rx b) (nextIdx_rx_lt hs.params _)

/-- On an empty ring the arriving byte becomes the only one, in the slot of the tail. -/
theorem isrRx_of_isEmpty (hp : s.params.wf) (hr : s.ut.rx.wf s.params.capRx) (hempty : s.ut.rx.head = s.ut.rx.tail)
    (hq : s.uh.rxFifo = b :: rest) :
    ∃ u, isrRx s = .next u ∧ (u.ut.rx.count (maskRx s.params)).toNat = 1 ∧
      u.ut.rx.contents (maskRx s.params) = [b] ∧ u.ut.rx.buf.read s.ut.rx.tail.toNat = b := by
  obtain ⟨hcap, hw⟩ := (wf_masks hp).1
  have hroom : nextIdx (maskRx s.params) s.ut.rx.head ≠ s.ut.rx.tail := hempty ▸ nextIdx_ne hcap hw hr.head_lt
  refine ⟨_, isrRx_of_room hq ((isFull_false_iff _ _).2 hroom) hr.head_lt, ?_, ?_, ?_⟩
  · exact (count_publish hcap hw (Ring.wf_write hr b) hroom).trans (congrArg (· + 1) (count_of_isEmpty hempty _))
  · exact (contents_enqueue hcap hw hr hroom b).trans (congrArg (· ++ [b]) (contents_of_isEmpty hempty _))
  · exact (Memory.read_write hr.storage _ _ b).trans (if_pos (by rw [hempty]))

/-- Settles O31: under `WRAP` the store moves the head onto the tail, so the next byte arrives on an empty ring. -/
theorem overflowPoliciesLoseWhatTheySay : Obligations.OverflowPoliciesLoseWhatTheySay := by
  refine ⟨fun s hs hpolicy hrxc hcount => ?_, fun s b rest hpolicy hq hfull => ?_⟩
  · have hfull := rxFull_of_count hs hcount
    obtain ⟨b, rest, hq⟩ : ∃ b rest, s.uh.rxFifo = b :: rest :=
      List.exists_cons_of_ne_nil fun hnil => by simp [rxc, hnil] at hrxc
    have hempty := afterRxStore_isEmpty (b := b) (rest := rest) (ovf := bumpOvf s.params.ovfWidth s.ut.rxOvf) hfull
    refine ⟨_, isrRx_of_full_wrap hq hfull hpolicy hs.rx.head_lt, hempty, count_of_isEmpty hempty _,
      contents_of_isEmpty hempty _, fun b' rest' hq' => ?_⟩
    exact isrRx_of_isEmpty hs.params (afterRxStore_wf (rest := rest) hs) hempty hq'
  · exact ⟨_, isrRx_of_full_dropNew hq hfull hpolicy, rfl, rfl, rfl⟩

end Sys2Proof.Machine
end

section
/-! Both directions of the transport are FIFOs: what each step does to the bytes on their way out and on their way in
(41_transport.md R172, R173, R176, R180, R183, R185, R187 to R191). -/

namespace Sys2Proof.Machine

variable {i : Instr} {s t : State} {a : AgentStep} {d : Byte}

/-! ### The foreground's steps -/

/-- Inside an operation the foreground stands at a command. -/
theorem State.Positioned.current_of_inside (hp : s.Positioned) (hms : s.fg.ms ≠ .fetch) :
    ∃ i, currentInstr s = some i :=
  let ⟨i, hcur, _⟩ := hp.label.resolve_left hms
  ⟨i, hcur⟩

/-- A foreground step at a command is one of its micro-steps. -/
theorem microStep_of_current (hcur : currentInstr s = some i) (hfg : nextStep s = .fg) (h : step s = .next t) :
    MicroStep (advance s) i t := by
  obtain ⟨-, -, h⟩ := step_next h
  rw [hfg] at h
  exact exec_next ((fgStep_of_current (s := advance s) hcur).symm.trans h)

/-- A step of the machine is a micro-step of the current command, moves on the schedule or sets the refusal mark at FETCH
of no command, or is another agent's. -/
theorem step_cases_positioned (hp : s.Positioned) (h : step s = .next t) :
    (nextStep s = .fg ∧ s.fg.ms = .fetch ∧ currentInstr s = none ∧
        (t = advance s ∨ t = { advance s with refused := some s.fg.pc })) ∨
      (nextStep s = .fg ∧ ∃ i, currentInstr s = some i ∧ MicroStep (advance s) i t) ∨
      (nextStep s ≠ .fg ∧ OtherStep (advance s) (nextStep s) t) := by
  obtain ⟨hfg, hcases⟩ | hother := step_cases h
  · cases hcur : currentInstr s with
    | none =>
      have hms : s.fg.ms = .fetch := by
        by_contra hms
        simpa [hcur] using hp.current_of_inside hms
      obtain rfl | ⟨-, rfl⟩ | ⟨i, hi, -⟩ := hcases
      · exact .inl ⟨hfg, hms, rfl, .inl rfl⟩
      · exact .inl ⟨hfg, hms, rfl, .inr rfl⟩
      · simp [hcur] at hi
    | some i => exact .inr (.inl ⟨hfg, i, rfl, microStep_of_current hcur hfg h⟩)
  · exact .inr (.inr hother)

/-! ### On the way out -/

theorem publishes_eq_some_iff :
    publishes s = some d ↔ nextStep s = .fg ∧ s.fg.ms = .s3 ∧ currentInstr s = some (.uartSend d) := by
  unfold publishes
  split <;> simp_all

theorem publishes_eq_none (h : nextStep s ≠ .fg ∨ s.fg.ms ≠ .s3) : publishes s = none := by
  refine Option.eq_none_iff_forall_ne_some.2 fun d hd => ?_
  obtain ⟨hfg, hms, -⟩ := publishes_eq_some_iff.1 hd
  exact h.elim (· hfg) (· hms)

/-- What a micro-step does to the bytes on their way out: S3 of `UART_SEND` appends one, U2 of `UART_BEGIN` drops those in
the ring, and no other changes them. -/
theorem MicroStep.txLine_cases (h : MicroStep s i t) (hs : s.Shaped) (hp : s.Positioned)
    (hcur : currentInstr s = some i) :
    (s.fg.ms = .s3 ∧ ∃ d, i = .uartSend d ∧ txLine t = txLine s ++ [d]) ∨
      (s.fg.ms = .u2 ∧ txLine t = s.wire.txOut ++ s.uh.txReg.toList) ∨
      (s.fg.ms ≠ .s3 ∧ s.fg.ms ≠ .u2 ∧ txLine t = txLine s) := by
  obtain ⟨hcap, hw⟩ := (wf_masks hs.params).2
  cases h with
  | sendPublish d n hms hn =>
    have hnext : n = nextIdx (maskTx s.params) s.ut.tx.head :=
      Option.some.inj (hn.symm.trans (hp.next (.inr (.inr hms))))
    have hroom : nextIdx (maskTx s.params) s.ut.tx.head ≠ s.ut.tx.tail := fun e =>
      hp.room (.inr hms) (hn.trans (congrArg some (hnext.trans e)))
    have hpublished := contents_publish hcap hw hs.tx hroom
    rw [hp.stored d hms hcur] at hpublished
    subst hnext
    exact .inl ⟨hms, d, rfl, (congrArg (_ ++ ·) hpublished).trans (List.append_assoc _ _ _).symm⟩
  | uartResetRings v hms =>
    have hempty := contents_of_isEmpty (r := { s.ut.tx with head := 0, tail := 0 }) rfl (maskTx s.params)
    exact .inr (.inl ⟨hms, (congrArg (_ ++ ·) hempty).trans (List.append_nil _)⟩)
  | sendStore d hms => exact .inr (.inr ⟨by simp [hms], by simp [hms], congrArg (_ ++ ·) (contents_store hcap hw hs.tx d)⟩)
  | polled _ hheld =>
    exact .inr (.inr ⟨fun e => by simp [held, e] at hheld, fun e => by simp [held, e] at hheld, rfl⟩)
  | _ => exact .inr (.inr ⟨by simp [*], by simp [*], rfl⟩)

/-- No other agent changes them: `ISR_TX` moves the oldest byte of the ring to the empty register, and the transmitter the
register's to the wire. -/
theorem OtherStep.txLine_eq (h : OtherStep s a t) (hs : s.Shaped) : txLine t = txLine s := by
  obtain ⟨hcap, hw⟩ := (wf_masks hs.params).2
  cases h with
  | shifted b _ hreg => simp [txLine, hreg]
  | txSent hon hne =>
    obtain ⟨-, -, hempty, -⟩ := isrTxEnabled_iff.1 hon
    have htaken := contents_take hcap hw hs.tx hne
    rw [← maskTx] at htaken
    simp [txLine, hempty, htaken]
  | _ => rfl

/-- Settles O56: S3 and U2 are the only steps that change the line. -/
theorem transmitPathIsFifo : Obligations.TransmitPathIsFifo := by
  intro s t hinv h
  obtain ⟨hfg, hms, hcur, hidle⟩ | ⟨hfg, i, hcur, hmicro⟩ | ⟨hfg, hother⟩ := step_cases_positioned hinv.positioned h
  · have hkept : txLine t = txLine s := by rcases hidle with rfl | rfl <;> rfl
    simp [publishes_eq_none (.inr (show s.fg.ms ≠ .s3 by simp [hms])), resetsRings, hms, hkept]
  · obtain ⟨hms, d, rfl, hline⟩ | ⟨hms, hline⟩ | ⟨hs3, hu2, hline⟩ :=
      hmicro.txLine_cases hinv.shaped.advance hinv.positioned.advance hcur
    · have hpub : publishes s = some d := publishes_eq_some_iff.2 ⟨hfg, hms, hcur⟩
      refine ⟨fun d' hd' => ?_, fun hreset => ?_, fun hnone => ?_⟩
      · rw [← Option.some.inj (hpub.symm.trans hd')]
        exact hline
      · cases hms.symm.trans hreset.2
      · cases hpub.symm.trans hnone
    · have hpub : publishes s = none := publishes_eq_none (.inr fun hs3 => by cases hms.symm.trans hs3)
      exact ⟨by simp [hpub], fun _ => hline, fun _ hnot => absurd ⟨hfg, hms⟩ hnot⟩
    · have hpub : publishes s = none := publishes_eq_none (.inr hs3)
      exact ⟨by simp [hpub], fun hreset => absurd hreset.2 hu2, fun _ _ => hline⟩
  · have hpub := publishes_eq_none (.inl hfg)
    exact ⟨by simp [hpub], fun hreset => absurd hreset.1 hfg, fun _ _ => hother.txLine_eq hinv.shaped.advance⟩

/-! ### On the way in -/

theorem State.CaptureOk.advance (h : s.CaptureOk) : (advance s).CaptureOk := h

/-- Where no `UART_RECEIVE` is in progress there is nothing to keep. -/
theorem captureOk_outside (hms : s.fg.ms ≠ .v1 ∧ s.fg.ms ≠ .v2) : s.CaptureOk := by
  simp [State.CaptureOk, hms]

/-- FETCH of `UART_RECEIVE` sees a byte in the ring and V1 reads the oldest. -/
theorem MicroStep.captureOk (h : MicroStep s i t) (hc : s.CaptureOk) : t.CaptureOk := by
  cases h with
  | raised | polled => exact hc
  | receiveHead _ _ hne => exact ⟨fun _ => (isEmpty_false_iff _).2 hne, by simp⟩
  | receiveByte hms => exact ⟨fun _ => hc.1 (.inl hms), fun _ => rfl⟩
  | _ => exact captureOk_outside (by simp)

/-- Without an overflow `ISR_RX` stores beside the bytes that the ring holds. -/
theorem OtherStep.captureOk (h : OtherStep s a t) (hs : s.Shaped) (hc : s.CaptureOk)
    (hover : a = .isrRx → isrRxEnabled s = true → rxFull s = false) : t.CaptureOk := by
  cases h with
  | rxRefused _ _ hon _ hfull | rxWrapped _ _ hon _ hfull => simp [hover rfl hon] at hfull
  | rxStored b _ _ _ hroom =>
    have hnext := (isFull_false_iff _ _).1 hroom
    refine ⟨fun _ => (isEmpty_false_iff _).2 hnext, fun hms => ?_⟩
    have hne : s.ut.rx.head ≠ s.ut.rx.tail := (isEmpty_false_iff _).1 (hc.1 (.inr hms))
    have hother : s.ut.rx.tail.toNat ≠ s.ut.rx.head.toNat := fun e => hne (BitVec.eq_of_toNat_eq e).symm
    exact (hc.2 hms).trans (by rw [Memory.read_write hs.rx.storage, if_neg hother])
  | _ => exact hc

/-- What a micro-step does to the bytes on their way in: V2 of `UART_RECEIVE` takes the first and returns it, three steps
discard bytes, and no other changes them. -/
theorem MicroStep.rxLine_cases (h : MicroStep s i t) (hs : s.Shaped) (hc : s.CaptureOk) :
    (s.fg.ms = .v2 ∧ ∃ b, rxLine s = b :: rxLine t ∧ t.fg.results = s.fg.results ++ [b]) ∨
      (s.fg.ms = .u2 ∨ s.fg.ms = .f1 ∨ (s.fg.ms = .fetch ∧ ∃ v, i = .uartBegin v)) ∨
      (s.fg.ms ≠ .v2 ∧ rxLine t = rxLine s) := by
  obtain ⟨hcap, hw⟩ := (wf_masks hs.params).1
  cases h with
  | received b hms hb =>
    have hne : s.ut.rx.head ≠ s.ut.rx.tail := (isEmpty_false_iff _).1 (hc.1 (.inr hms))
    have holdest : b = s.ut.rx.buf.read s.ut.rx.tail.toNat := Option.some.inj (hb.symm.trans (hc.2 hms))
    have htaken := contents_take hcap hw hs.rx hne
    rw [← holdest] at htaken
    exact .inl ⟨hms, b, congrArg (· ++ _ ++ _) htaken, rfl⟩
  | uartDisable v hms => exact .inr (.inl (.inr (.inr ⟨hms, v, rfl⟩)))
  | uartResetRings v hms => exact .inr (.inl (.inl hms))
  | flushed k hms => exact .inr (.inl (.inr (.inl hms)))
  | polled _ hheld => exact .inr (.inr ⟨fun e => by simp [held, e] at hheld, rfl⟩)
  | _ => exact .inr (.inr ⟨by simp [*], rfl⟩)

/-- Without an overflow, an overrun or a drop the other agents change nothing: the receiver moves the next byte to the
register, and `ISR_RX` the register's oldest to the ring. -/
theorem OtherStep.rxLine_eq (h : OtherStep s a t) (hs : s.Shaped)
    (hover : a = .isrRx → isrRxEnabled s = true → rxFull s = false) (hovr : t.uh.hwOvr = s.uh.hwOvr) :
    rxLine t = rxLine s := by
  obtain ⟨hcap, hw⟩ := (wf_masks hs.params).1
  cases h with
  | arrived b rest _ hin => simp [rxLine, hin]
  | overrun | dropped => exact absurd hovr (Nat.succ_ne_self _)
  | rxRefused _ _ hon _ hfull | rxWrapped _ _ hon _ hfull => simp [hover rfl hon] at hfull
  | rxStored b rest _ hq hroom =>
    have hnext := (isFull_false_iff _ _).1 hroom
    have hstored := contents_enqueue hcap hw hs.rx hnext b
    rw [← maskRx] at hstored
    simp [rxLine, hq, hstored]
  | _ => rfl

/-- Settles O57: only V2 takes a byte, and the steps that lose one are excluded. -/
theorem receivePathIsFifo : Obligations.ReceivePathIsFifo := by
  intro s t hinv hc h hnot
  have hs := hinv.shaped.advance
  obtain ⟨hfg, hms, -, hidle⟩ | ⟨hfg, i, hcur, hmicro⟩ | ⟨hfg, hother⟩ := step_cases_positioned hinv.positioned h
  · have hkept : t.CaptureOk ∧ rxLine t = rxLine s := by rcases hidle with rfl | rfl <;> exact ⟨hc, rfl⟩
    exact ⟨hkept.1, fun _ _ => ⟨fun _ => hkept.2, fun hv2 => by simp [hv2.2] at hms⟩⟩
  · refine ⟨hmicro.captureOk hc.advance, fun _ hkept => ?_⟩
    obtain ⟨hms, hreturned⟩ | hlost | ⟨hms, hline⟩ := hmicro.rxLine_cases hs hc.advance
    · exact ⟨fun hv2 => absurd ⟨hfg, hms⟩ hv2, fun _ => hreturned⟩
    · refine absurd ⟨hfg, hlost.imp_right (Or.imp_right fun ⟨hms, v, hv⟩ => ⟨hms, v, hv ▸ hcur⟩)⟩ hkept
    · exact ⟨fun _ => hline, fun hv2 => absurd hv2.2 hms⟩
  · have hover : nextStep s = .isrRx → isrRxEnabled (advance s) = true → rxFull (advance s) = false := fun hnext hon =>
      Bool.eq_false_iff.2 fun hfull => hnot ⟨hnext, hon, hfull⟩
    exact ⟨hother.captureOk hs hc.advance hover,
      fun hovr _ => ⟨fun _ => hother.rxLine_eq hs hover hovr, fun hv2 => absurd hv2.1 hfg⟩⟩

end Sys2Proof.Machine
end

section
/-! Under `UART_FAIR` the transmit path drains: while the foreground waits or is finished, every byte on its way out reaches
the wire (41_transport.md R174, R190, R192, 70_reset_and_hazards.md R284). -/

namespace Sys2Proof.Machine

variable {s t : State} {a : AgentStep} {r : Nat → State} {k : Nat}

/-! ### Weak fairness -/

/-- The step is chosen where it is enabled. -/
def taken (a : AgentStep) (s : State) : Prop := nextStep s = a ∧ enabled a s = true

/-- Under weak fairness a step is taken that is enabled by a condition which lasts as long as the step is not taken. -/
theorem exists_taken (hfair : WeaklyFair (· = a) r) (P : State → Prop) (hstart : P (r k))
    (hkeep : ∀ j, P (r j) → ¬taken a (r j) → P (r (j + 1))) (hon : ∀ j, P (r j) → enabled a (r j) = true) :
    ∃ j, k ≤ j ∧ taken a (r j) ∧ P (r j) := by
  by_contra hnever
  have hnot (j : Nat) (hj : k ≤ j) (hP : P (r j)) : ¬taken a (r j) := fun ht => hnever ⟨j, hj, ht, hP⟩
  have hforever (j : Nat) (hj : k ≤ j) : P (r j) := by
    induction j, hj using Nat.le_induction with
    | base => exact hstart
    | succ j hj ih => exact hkeep j ih (hnot j hj ih)
  obtain ⟨j, hj, hnext, henabled⟩ := hfair k fun j hj => ⟨a, rfl, hon j (hforever j hj)⟩
  exact hnot j hj (hforever j hj) ⟨hnext, hnext ▸ henabled⟩

/-! ### A run in which the foreground does nothing -/

/-- A state from which the transmit path can drain: started, with interrupts enabled, the foreground at FETCH or S1. -/
structure State.Draining (s : State) : Prop where
  inv : s.Inv
  running : running s = true
  started : s.ut.started = true
  gie : s.gie = true
  label : s.fg.ms = .fetch ∨ s.fg.ms = .s1

/-- A run through such states in which only other agents act. -/
structure DrainingRun (r : Nat → State) : Prop where
  state : ∀ k, (r k).Draining
  step : ∀ k, OtherStep (advance (r k)) (nextStep (r k)) (r (k + 1))

/-- No other agent disables interrupts. -/
theorem OtherStep.gie_kept (h : OtherStep s a t) (hgie : s.gie = true) : t.gie = true := by
  cases h with
  | rxRefused | rxWrapped | rxStored | txIdled | txSent => rfl
  | _ => exact hgie

/-- A foreground whose step changes nothing leaves every step to the other agents. -/
theorem otherStep_of_idle (hidle : fgStep (advance s) = .next (advance s)) (h : step s = .next t) :
    OtherStep (advance s) (nextStep s) t := by
  obtain ⟨-, -, h⟩ := step_next h
  by_cases ha : nextStep s = .fg
  · rw [ha] at h ⊢
    obtain rfl := next_inj.1 (hidle.symm.trans h)
    exact .disabled _
  · exact agentStep_other ha h

/-- The other agents keep such a state one. -/
theorem OtherStep.draining (h : OtherStep (advance s) a t) (hs : s.Draining) (hrun : running t = true) :
    t.Draining where
  inv := h.inv hs.inv.advance
  running := hrun
  started := h.foregroundKept.started.trans hs.started
  gie := h.gie_kept hs.gie
  label := by
    rw [h.foregroundKept.position]
    exact hs.label

/-- A run whose foreground idles for ever drains. -/
theorem drainingRun_of_idle (hrun : IsRun r) (hstart : (r 0).Draining)
    (hidle : ∀ k, (r k).Inv → (r k).fg = (r 0).fg → (r k).program = (r 0).program →
      fgStep (advance (r k)) = .next (advance (r k))) : DrainingRun r := by
  have hkept (k : Nat) : (r k).Draining ∧ (r k).fg = (r 0).fg ∧ (r k).program = (r 0).program := by
    induction k with
    | zero => exact ⟨hstart, rfl, rfl⟩
    | succ k ih =>
      obtain ⟨hs, hfg, hprogram⟩ := ih
      have hother := otherStep_of_idle (hidle k hs.inv hfg hprogram) (hrun k)
      exact ⟨hother.draining hs (running_of_step (hrun (k + 1))), hother.foregroundKept.position.trans hfg,
        hother.foregroundKept.program.trans hprogram⟩
  refine ⟨fun k => (hkept k).1, fun k => ?_⟩
  obtain ⟨hs, hfg, hprogram⟩ := hkept k
  exact otherStep_of_idle (hidle k hs.inv hfg hprogram) (hrun k)

theorem DrainingRun.position (hr : DrainingRun r) (k : Nat) : (r k).fg = (r 0).fg := by
  induction k with
  | zero => rfl
  | succ k ih => exact (hr.step k).foregroundKept.position.trans ih

/-! ### The two steps that move a byte out -/

/-- A byte in the transmit register enables the transmitter. -/
theorem State.Draining.shift_enabled (hs : s.Draining) (hreg : s.uh.txReg ≠ none) : enabled .txShift s = true := by
  have hout : s.fg.ms ∉ [Label.u1, .u2, .u3] := by rcases hs.label with h | h <;> simp [h]
  obtain ⟨-, htxen, -⟩ := hs.inv.started.active hs.started hout
  exact shiftEnabled_iff.2 ⟨hreg, htxen, hs.running⟩

/-- A byte in the ring behind an empty register enables `ISR_TX`, as the pump is on. -/
theorem State.Draining.isrTx_enabled (hs : s.Draining) (hreg : s.uh.txReg = none) (hne : s.ut.tx.head ≠ s.ut.tx.tail) :
    enabled .isrTx s = true := by
  have hudrie : s.uh.ctrl.udrie = true := by
    have hpump := hs.inv.pump
    rcases hs.label with h | h <;> simpa [State.PumpOk, hne, h] using hpump
  exact isrTxEnabled_iff.2 ⟨hs.gie, hudrie, hreg, hs.running⟩

/-- Of the other agents only the transmitter and `ISR_TX` write the transmit register or the transmit ring. -/
theorem OtherStep.tx_kept (h : OtherStep s a t) :
    (t.uh.txReg = s.uh.txReg ∧ t.ut.tx = s.ut.tx) ∨ (a = .txShift ∧ shiftEnabled s = true) ∨
      (a = .isrTx ∧ isrTxEnabled s = true) := by
  cases h with
  | shifted _ hon => exact .inr (.inl ⟨rfl, hon⟩)
  | txSent hon => exact .inr (.inr ⟨rfl, hon⟩)
  | _ => exact .inl ⟨rfl, rfl⟩

/-- While the register holds a byte, it stays until the transmitter is taken, which it will be. -/
theorem exists_shift_taken (hr : DrainingRun r) (hfair : UartFair r) (hreg : (r k).uh.txReg ≠ none) :
    ∃ j, k ≤ j ∧ taken .txShift (r j) ∧ (r j).ut.tx = (r k).ut.tx := by
  have hkeep (j : Nat) (hP : (r j).uh.txReg ≠ none ∧ (r j).ut.tx = (r k).ut.tx) (hnot : ¬taken .txShift (r j)) :
      (r (j + 1)).uh.txReg ≠ none ∧ (r (j + 1)).ut.tx = (r k).ut.tx := by
    obtain ⟨hreg', htx'⟩ | hshift | ⟨-, hon⟩ := (hr.step j).tx_kept
    · exact ⟨hreg' ▸ hP.1, htx'.trans hP.2⟩
    · exact absurd hshift hnot
    · obtain ⟨-, -, hempty, -⟩ := isrTxEnabled_iff.1 hon
      exact absurd hempty hP.1
  obtain ⟨-, -, hshift⟩ := hfair
  obtain ⟨j, hj, htaken, -, htx⟩ := exists_taken hshift (fun s => s.uh.txReg ≠ none ∧ s.ut.tx = (r k).ut.tx)
    ⟨hreg, rfl⟩ hkeep fun j hP => (hr.state j).shift_enabled hP.1
  exact ⟨j, hj, htaken, htx⟩

/-- While the register is empty and the ring holds a byte, both stay until `ISR_TX` is taken, which it will be. -/
theorem exists_isrTx_taken_of_empty (hr : DrainingRun r) (hfair : UartFair r) (hreg : (r k).uh.txReg = none)
    (hne : (r k).ut.tx.head ≠ (r k).ut.tx.tail) :
    ∃ j, k ≤ j ∧ taken .isrTx (r j) ∧ (r j).ut.tx = (r k).ut.tx := by
  have hkeep (j : Nat) (hP : (r j).uh.txReg = none ∧ (r j).ut.tx = (r k).ut.tx) (hnot : ¬taken .isrTx (r j)) :
      (r (j + 1)).uh.txReg = none ∧ (r (j + 1)).ut.tx = (r k).ut.tx := by
    obtain ⟨hreg', htx'⟩ | ⟨-, hon⟩ | hisr := (hr.step j).tx_kept
    · exact ⟨hreg'.trans hP.1, htx'.trans hP.2⟩
    · exact absurd hP.1 (shiftEnabled_iff.1 hon).1
    · exact absurd hisr hnot
  obtain ⟨-, hisr, -⟩ := hfair
  obtain ⟨j, hj, htaken, -, htx⟩ := exists_taken hisr (fun s => s.uh.txReg = none ∧ s.ut.tx = (r k).ut.tx)
    ⟨hreg, rfl⟩ hkeep fun j hP => (hr.state j).isrTx_enabled hP.1 (hP.2 ▸ hne)
  exact ⟨j, hj, htaken, htx⟩

/-- A taken transmitter step puts the register's byte on the wire. -/
theorem next_of_shift_taken (h : step s = .next t) (htaken : taken .txShift s) :
    ∃ b, t = { advance s with wire.txOut := s.wire.txOut ++ [b], uh.txReg := none } := by
  obtain ⟨hnext, hon⟩ := htaken
  obtain ⟨b, hreg⟩ := Option.ne_none_iff_exists'.1 (shiftEnabled_iff.1 hon).1
  obtain ⟨-, hmoves⟩ := uartHardwareMovesBytes
  obtain ⟨-, -, hshift⟩ := hmoves s b []
  exact ⟨b, next_inj.1 (h.symm.trans (hshift hnext hon hreg))⟩

/-- A taken `ISR_TX` step on a ring that holds a byte fills the register and moves the tail. -/
theorem next_of_isrTx_taken (h : step s = .next t) (hs : s.Shaped) (htaken : taken .isrTx s)
    (hne : s.ut.tx.head ≠ s.ut.tx.tail) :
    t.uh.txReg ≠ none ∧ t.ut.tx.tail = nextIdx (maskTx s.params) s.ut.tx.tail := by
  obtain ⟨-, hmoves⟩ := transmitHandlerSendsOrDisables
  obtain rfl := next_inj.1 (h.symm.trans ((hmoves s htaken.1 htaken.2).2 hne hs.tx.tail_lt))
  exact ⟨Option.some_ne_none _, rfl⟩

/-- While the ring holds a byte, `ISR_TX` is taken sooner or later, at the latest once the transmitter has emptied the
register. -/
theorem exists_isrTx_taken (hrun : IsRun r) (hr : DrainingRun r) (hfair : UartFair r)
    (hne : (r k).ut.tx.head ≠ (r k).ut.tx.tail) : ∃ j, taken .isrTx (r j) := by
  by_cases hreg : (r k).uh.txReg = none
  · obtain ⟨j, -, htaken, -⟩ := exists_isrTx_taken_of_empty hr hfair hreg hne
    exact ⟨j, htaken⟩
  · obtain ⟨i, -, hshift, htx⟩ := exists_shift_taken hr hfair hreg
    obtain ⟨b, hafter⟩ := next_of_shift_taken (hrun i) hshift
    have hne' : (r (i + 1)).ut.tx.head ≠ (r (i + 1)).ut.tx.tail := by
      rw [hafter]
      exact htx ▸ hne
    obtain ⟨j, -, htaken, -⟩ := exists_isrTx_taken_of_empty hr hfair (by rw [hafter]) hne'
    exact ⟨j, htaken⟩

/-! ### The held `send` -/

theorem fg_n_of_heldOnSend (h : heldOnSend s) : s.fg.n = some s.ut.tx.tail := by
  obtain ⟨hms, hheld⟩ := h
  simpa [held, hms] using hheld

/-- A ring that a `send` finds full holds a byte. -/
theorem nonempty_of_heldOnSend (hinv : s.Inv) (h : heldOnSend s) : s.ut.tx.head ≠ s.ut.tx.tail := by
  obtain ⟨hcap, hw⟩ := (wf_masks hinv.shaped.params).2
  have hnext := hinv.positioned.next (.inl h.1)
  rw [fg_n_of_heldOnSend h] at hnext
  exact Option.some.inj hnext ▸ (nextIdx_ne hcap hw hinv.shaped.tx.head_lt).symm

/-- The `ISR_TX` step taken while a `send` is held makes room for it. -/
theorem not_heldOnSend_of_isrTx_taken (h : step s = .next t) (hinv : s.Inv) (hsend : heldOnSend s)
    (htaken : taken .isrTx s) (hfg : t.fg = s.fg) : ¬heldOnSend t := fun hsend' => by
  obtain ⟨hcap, hw⟩ := (wf_masks hinv.shaped.params).2
  obtain ⟨-, htail⟩ := next_of_isrTx_taken h hinv.shaped htaken (nonempty_of_heldOnSend hinv hsend)
  have hsame : some t.ut.tx.tail = some s.ut.tx.tail := by
    rw [← fg_n_of_heldOnSend hsend', ← fg_n_of_heldOnSend hsend, hfg]
  exact nextIdx_ne hcap hw hinv.shaped.tx.tail_lt (htail.symm.trans (Option.some.inj hsame))

/-- A `send` that stayed held would leave the run to the other agents, and so be released. -/
theorem send_hold_ends (hrun : IsRun r) (hfair : UartFair r) (hinv : (r 0).Inv) (hsend : heldOnSend (r 0))
    (hgie : (r 0).gie = true) : ∃ k, held (r k) = false := by
  by_contra hforever
  have hheld (k : Nat) : held (r k) = true := by simpa using not_exists.1 hforever k
  have hstarted : (r 0).ut.started = true := hinv.started.guarded (by simp [hsend.1])
  have hr : DrainingRun r :=
    drainingRun_of_idle hrun ⟨hinv, running_of_step (hrun 0), hstarted, hgie, .inr hsend.1⟩ fun k hinv _ _ =>
      fgStep_of_held hinv.positioned.advance (hheld k)
  have hsend' (k : Nat) : heldOnSend (r k) := ⟨hr.position k ▸ hsend.1, hheld k⟩
  obtain ⟨j, htaken⟩ := exists_isrTx_taken hrun hr hfair (nonempty_of_heldOnSend hinv hsend)
  exact not_heldOnSend_of_isrTx_taken (hrun j) (hr.state j).inv (hsend' j) htaken
    ((hr.position (j + 1)).trans (hr.position j).symm) (hsend' (j + 1))

/-! ### The finished program -/

/-- The bytes on their way out that are not on the wire yet. -/
def waiting (s : State) : List Byte := s.uh.txReg.toList ++ s.ut.tx.contents (maskTx s.params)

theorem txLine_eq_append_waiting (s : State) : txLine s = s.wire.txOut ++ waiting s := List.append_assoc _ _ _

/-- Nothing waits exactly when the register and the ring are empty. -/
theorem waiting_eq_nil_iff (hs : s.Shaped) : waiting s = [] ↔ s.uh.txReg = none ∧ s.ut.tx.head = s.ut.tx.tail := by
  obtain ⟨hcap, hw⟩ := (wf_masks hs.params).2
  have hring : s.ut.tx.contents (maskTx s.params) = [] ↔ s.ut.tx.head = s.ut.tx.tail := by
    refine ⟨fun hnil => ?_, fun hempty => contents_of_isEmpty hempty _⟩
    by_contra hne
    exact List.cons_ne_nil _ _ ((contents_take hcap hw hs.tx hne).symm.trans hnil)
  rw [waiting, List.append_eq_nil_iff, Option.toList_eq_nil_iff, hring]

/-- Along the run the line of bytes on their way out stays. -/
theorem DrainingRun.txLine_eq (hr : DrainingRun r) (k : Nat) : txLine (r k) = txLine (r 0) := by
  induction k with
  | zero => rfl
  | succ k ih => exact ((hr.step k).txLine_eq (hr.state k).inv.shaped.advance).trans ih

/-- As many bytes wait as the wire has not got. -/
theorem DrainingRun.length_waiting (hr : DrainingRun r) (k : Nat) :
    (r k).wire.txOut.length + (waiting (r k)).length = (txLine (r 0)).length := by
  rw [← hr.txLine_eq k, txLine_eq_append_waiting, List.length_append]

/-- The wire only gains bytes. -/
theorem DrainingRun.txOut_mono (hr : DrainingRun r) : Monotone fun k => (r k).wire.txOut.length := by
  refine monotone_nat_of_le_succ fun k => ?_
  obtain ⟨-, hsame | ⟨-, b, hgrown⟩, -⟩ := (hr.step k).observations
  · exact (congrArg List.length hsame).ge
  · simp [hgrown]

/-- While a byte waits, the transmitter is taken sooner or later, at the latest once `ISR_TX` has filled the register. -/
theorem exists_shift_of_waiting (hrun : IsRun r) (hr : DrainingRun r) (hfair : UartFair r) (hsome : waiting (r k) ≠ []) :
    ∃ j, k ≤ j ∧ taken .txShift (r j) := by
  by_cases hreg : (r k).uh.txReg = none
  · have hne : (r k).ut.tx.head ≠ (r k).ut.tx.tail := fun hempty =>
      hsome ((waiting_eq_nil_iff (hr.state k).inv.shaped).2 ⟨hreg, hempty⟩)
    obtain ⟨i, hi, hisr, htx⟩ := exists_isrTx_taken_of_empty hr hfair hreg hne
    obtain ⟨hfilled, -⟩ := next_of_isrTx_taken (hrun i) (hr.state i).inv.shaped hisr (htx ▸ hne)
    obtain ⟨j, hj, htaken, -⟩ := exists_shift_taken hr hfair hfilled
    exact ⟨j, by omega, htaken⟩
  · obtain ⟨j, hj, htaken, -⟩ := exists_shift_taken hr hfair hreg
    exact ⟨j, hj, htaken⟩

/-- While a byte waits, fewer wait later. -/
theorem waiting_shrinks (hrun : IsRun r) (hr : DrainingRun r) (hfair : UartFair r) (hsome : waiting (r k) ≠ []) :
    ∃ j, (waiting (r j)).length < (waiting (r k)).length := by
  obtain ⟨j, hj, htaken⟩ := exists_shift_of_waiting hrun hr hfair hsome
  obtain ⟨b, hafter⟩ := next_of_shift_taken (hrun j) htaken
  have hgrown : (r (j + 1)).wire.txOut.length = (r j).wire.txOut.length + 1 := by simp [hafter]
  have hmono : (r k).wire.txOut.length ≤ (r j).wire.txOut.length := hr.txOut_mono hj
  have hk := hr.length_waiting k
  have hj' := hr.length_waiting (j + 1)
  exact ⟨j + 1, by omega⟩

theorem waiting_ends (hrun : IsRun r) (hr : DrainingRun r) (hfair : UartFair r) (k : Nat) :
    ∃ j, waiting (r j) = [] := by
  induction hn : (waiting (r k)).length using Nat.strong_induction_on generalizing k with
  | _ n ih =>
    by_cases hnone : waiting (r k) = []
    · exact ⟨k, hnone⟩
    · obtain ⟨j, hless⟩ := waiting_shrinks hrun hr hfair hnone
      exact ih _ (hn ▸ hless) j rfl

/-- A finished foreground stands at FETCH of no command. -/
theorem fetch_of_finished (hp : s.Positioned) (hfin : s.finished) : s.fg.ms = .fetch := by
  by_contra hms
  obtain ⟨i, hcur⟩ := hp.current_of_inside hms
  have hword : fetchWord s = none := List.getElem?_eq_none hfin.1.ge
  simp [currentInstr, hword] at hcur

/-- A finished foreground leaves the run to the other agents, which drain the line. -/
theorem finished_drains (hrun : IsRun r) (hfair : UartFair r) (hinv : (r 0).Inv) (hfin : (r 0).finished)
    (hstarted : (r 0).ut.started = true) (hgie : (r 0).gie = true) :
    ∃ k, (r k).ut.tx.isEmpty = true ∧ (r k).uh.txReg = none ∧ (r k).wire.txOut = txLine (r 0) := by
  have hms := fetch_of_finished hinv.positioned hfin
  have hr : DrainingRun r :=
    drainingRun_of_idle hrun ⟨hinv, running_of_step (hrun 0), hstarted, hgie, .inl hms⟩ fun k _ hfg hprogram =>
      fgStep_of_finished (s := advance (r k)) (by simp [fgFinished, hfg, hprogram, hfin.1])
  obtain ⟨k, hnone⟩ := waiting_ends hrun hr hfair 0
  obtain ⟨hreg, hempty⟩ := (waiting_eq_nil_iff (hr.state k).inv.shaped).1 hnone
  refine ⟨k, (isEmpty_iff _).2 hempty, hreg, ?_⟩
  rw [← hr.txLine_eq k, txLine_eq_append_waiting, hnone, List.append_nil]

/-- Settles O60: in both runs the foreground does nothing, so the pump and the transmitter stay enabled in turn. -/
theorem fairUartEndsTheSendHoldAndDrains : Obligations.FairUartEndsTheSendHoldAndDrains :=
  ⟨fun _ => send_hold_ends, fun _ => finished_drains⟩

end Sys2Proof.Machine
end

section
/-! Interrupt control: the two words that write `gie`, and what `gie` masks (42_interrupt_control.md R220, R221,
60_exceptions.md R250, R260). -/

namespace Sys2Proof.Machine

variable {s : State}

/-! ### The two operations -/

theorem writeGie_fetch (v : Bool) (hms : s.fg.ms = .fetch) :
    writeGie v s = .next { s with gie := v, fg.pc := s.fg.pc + 1, fg.ms := .fetch } := by
  simp only [writeGie, hms, endOp]

/-! ### What `gie` masks -/

theorem isrRxEnabled_of_masked (hgie : s.gie = false) : isrRxEnabled s = false := by
  simp [isrRxEnabled, hgie]

theorem isrTxEnabled_of_masked (hgie : s.gie = false) : isrTxEnabled s = false := by
  simp [isrTxEnabled, hgie]

/-- Of the enabling conditions, only the two handlers' read `gie`. -/
theorem enabled_setGie {a : AgentStep} (s : State) (g : Bool) (hrx : a ≠ .isrRx) (htx : a ≠ .isrTx) :
    enabled a { s with gie := g } = enabled a s := by
  cases a with
  | isrRx => exact absurd rfl hrx
  | isrTx => exact absurd rfl htx
  | _ => rfl

/-- Settles O25: each word is its operation's encoding, and only the handlers' enabling conditions read `gie`. -/
theorem irqCommandsWriteGie : Obligations.IrqCommandsWriteGie :=
  ⟨decodeWord_encode .irqDisable, decodeWord_encode .irqEnable,
    fun _ hms => ⟨writeGie_fetch false hms, writeGie_fetch true hms⟩,
    fun _ hgie => ⟨isrRxEnabled_of_masked hgie, isrTxEnabled_of_masked hgie⟩,
    fun s g _ => enabled_setGie s g⟩

end Sys2Proof.Machine
end

section
/-! Faults: an operation raises them at FETCH alone, writes the record alone, and nothing clears it (60_exceptions.md R231,
R241, R255). -/

namespace Sys2Proof.Machine

variable {i : Instr} {s t : State}

/-- A changed record is a raise: no other case of a micro-step writes the record. -/
theorem MicroStep.fetch_of_fault_ne (h : MicroStep s i t) (hne : t.fault ≠ s.fault) : s.fg.ms = .fetch := by
  cases h with
  | raised _ _ hms => exact hms
  | _ => exact absurd rfl hne

/-- A changed record is the tabulated one, and nothing else changed with it. -/
theorem exec_raised (h : exec i s = .next t) (hne : t.fault ≠ s.fault) :
    s.fg.ms = .fetch ∧ ∃ info, faultAtFetch i s = some info ∧ t = s.withFault info := by
  have hms := (exec_next h).fetch_of_fault_ne hne
  obtain ⟨hraises, hgoes⟩ := fetchRaisesTheTabulatedFault i s hms
  refine ⟨hms, ?_⟩
  cases htable : faultAtFetch i s with
  | none =>
    obtain ⟨u, hu, hkept⟩ := hgoes htable
    obtain rfl : u = t := next_inj.1 (hu.symm.trans h)
    exact absurd hkept hne
  | some info => exact ⟨info, rfl, next_inj.1 (h.symm.trans (hraises info htable))⟩

theorem step_of_fault {r : FaultRecord} (h : s.fault = some r) : step s = .fault (.halted r) := by
  simp only [step, h]

/-- Settles O10: a fault record keeps the machine from running, and every agent's step asks for a running machine. -/
theorem faultsAreStickyAndWriteNothingElse : Obligations.FaultsAreStickyAndWriteNothingElse := by
  refine ⟨fun i s t h hne => ?_, fun s r hr => ⟨step_of_fault hr, still_of_not_running (by simp [running, hr])⟩⟩
  obtain ⟨-, info, -, ht⟩ := exec_raised h hne
  exact ⟨info, ht⟩

@[simp] theorem faultAtFetch_advance (i : Instr) (s : State) : faultAtFetch i (advance s) = faultAtFetch i s := rfl

/-- Settles O12: no other agent writes the record, and of the foreground's steps only a command's raise does. -/
theorem faultsAreRaisedOnlyAtFetch : Obligations.FaultsAreRaisedOnlyAtFetch := by
  intro s t hstep hfault
  obtain ⟨hclear, -, h⟩ := step_next hstep
  have hne : t.fault ≠ (advance s).fault := fun hkept => hfault (hkept.trans hclear)
  by_cases hfg : nextStep s = .fg
  · rw [hfg] at h
    obtain ⟨-, rfl⟩ | ⟨_, _, -, -, rfl⟩ | ⟨i, hcur, hexec⟩ := fgStep_next h
    · exact absurd rfl hne
    · exact absurd rfl hne
    · obtain ⟨hms, info, htable, ht⟩ := exec_raised hexec hne
      exact ⟨hfg, hms, i, info, hcur, htable, ht⟩
  · exact absurd (agentStep_other hfg h).foregroundKept.fault hne

end Sys2Proof.Machine
end

section
/-! The two handlers side by side: each reads and writes its own direction alone (60_exceptions.md R251 to R255, R261). -/

namespace Sys2Proof.Machine

variable {s t : State} {b : Byte} {rest : List Byte}

/-! ### What a handler writes -/

/-- `s` with what `ISR_RX` writes taken from `u`. -/
def State.withReceiveOf (s u : State) : State :=
  { s with
    uh.rxFifo := u.uh.rxFifo
    ut.rx.buf := u.ut.rx.buf
    ut.rx.head := u.ut.rx.head
    ut.rxOvf := u.ut.rxOvf }

/-- `s` with what `ISR_TX` writes taken from `u`. -/
def State.withTransmitOf (s u : State) : State :=
  { s with
    uh.ctrl.udrie := u.uh.ctrl.udrie
    uh.txReg := u.uh.txReg
    ut.tx.tail := u.ut.tx.tail }

/-- A handler is taken with interrupts enabled, so its return, which enables them, leaves them as they were (R252). -/
theorem OtherStep.gie_eq {a : AgentStep} (h : OtherStep s a t) : t.gie = s.gie := by
  cases h with
  | rxRefused _ _ hon | rxWrapped _ _ hon | rxStored _ _ hon => exact (isrRxEnabled_iff.1 hon).1.symm
  | txIdled hon | txSent hon => exact (isrTxEnabled_iff.1 hon).1.symm
  | _ => rfl

theorem OtherStep.eq_withReceiveOf (h : OtherStep s .isrRx t) : t = s.withReceiveOf t := calc
  t = { s.withReceiveOf t with gie := t.gie } := by cases h <;> rfl
  _ = s.withReceiveOf t := congrArg (fun g => { s.withReceiveOf t with gie := g }) h.gie_eq

theorem OtherStep.eq_withTransmitOf (h : OtherStep s .isrTx t) : t = s.withTransmitOf t := calc
  t = { s.withTransmitOf t with gie := t.gie } := by cases h <;> rfl
  _ = s.withTransmitOf t := congrArg (fun g => { s.withTransmitOf t with gie := g }) h.gie_eq

/-- Settles O34: the rest of the state is not among what the chosen handler writes. -/
theorem handlersWriteOnlyTheirOwnDirection : Obligations.HandlersWriteOnlyTheirOwnDirection := by
  intro s t hstep
  obtain ⟨hfg, -⟩ | ⟨-, hother⟩ := step_cases hstep
  · simp [hfg]
  · refine ⟨fun hrx => ?_, fun htx => ?_⟩
    · rw [hrx] at hother
      rw [hother.eq_withReceiveOf]
      exact ⟨rfl, rfl, rfl, rfl, rfl, rfl, rfl, rfl, rfl⟩
    · rw [htx] at hother
      rw [hother.eq_withTransmitOf]
      exact ⟨rfl, rfl, rfl, rfl, rfl, rfl, rfl, rfl, rfl, rfl, rfl⟩

/-! ### An enabled handler -/

theorem otherStep_of_isrRx (hon : enabled .isrRx s = true) (h : isrRx s = .next t) : OtherStep s .isrRx t :=
  agentStep_other (by simp) ((if_pos hon).trans h)

theorem otherStep_of_isrTx (hon : enabled .isrTx s = true) (h : isrTx s = .next t) : OtherStep s .isrTx t :=
  agentStep_other (by simp) ((if_pos hon).trans h)

/-- Settles O33: with rings in range the handlers answer, and the marks are not theirs to write. -/
theorem handlersNeverFault : Obligations.HandlersNeverFault := by
  refine fun s hs => ⟨fun hon => ?_, fun hon => ?_⟩
  · obtain ⟨t, ht⟩ := isrRx_answers hs
    have hkept := (otherStep_of_isrRx hon ht).foregroundKept
    exact ⟨t, ht, hkept.fault, hkept.refused⟩
  · obtain ⟨t, ht⟩ := isrTx_answers hs
    have hkept := (otherStep_of_isrTx hon ht).foregroundKept
    exact ⟨t, ht, hkept.fault, hkept.refused⟩

/-! ### What a handler reads -/

/-- `ISR_RX` reads nothing of the transmit direction. -/
theorem isrRx_withTransmitOf (hq : s.uh.rxFifo = b :: rest) (h : isrRx s = .next t) (u : State) :
    isrRx (s.withTransmitOf u) = .next (t.withTransmitOf u) := by
  obtain ⟨hfull, hpolicy, rfl⟩ | ⟨hslot, ⟨hfull, hpolicy, rfl⟩ | ⟨hroom, rfl⟩⟩ := isrRx_next hq h
  · exact isrRx_of_full_dropNew (s := s.withTransmitOf u) hq hfull hpolicy
  · exact isrRx_of_full_wrap (s := s.withTransmitOf u) hq hfull hpolicy hslot
  · exact isrRx_of_room (s := s.withTransmitOf u) hq hroom hslot

/-- `ISR_TX` reads nothing of the receive direction. -/
theorem isrTx_withReceiveOf (h : isrTx s = .next t) (u : State) :
    isrTx (s.withReceiveOf u) = .next (t.withReceiveOf u) := by
  obtain ⟨hempty, rfl⟩ | ⟨hne, hslot, rfl⟩ := isrTx_next h
  · exact isrTx_of_isEmpty (s := s.withReceiveOf u) hempty
  · exact isrTx_of_nonempty (s := s.withReceiveOf u) hne hslot

/-- Settles O32: each handler runs on the other's next state as on `s`, and the two sets of writes are disjoint. -/
theorem handlersCommute : Obligations.HandlersCommute := by
  intro s hs hrx htx
  obtain ⟨t₁, h₁⟩ := isrRx_answers hs
  obtain ⟨t₂, h₂⟩ := isrTx_answers hs
  obtain ⟨b, rest, hq⟩ := rxFifo_of_isrRxEnabled hrx
  have hw₁ : t₁ = s.withReceiveOf t₁ := (otherStep_of_isrRx hrx h₁).eq_withReceiveOf
  have hw₂ : t₂ = s.withTransmitOf t₂ := (otherStep_of_isrTx htx h₂).eq_withTransmitOf
  have hmeet : t₁.withTransmitOf t₂ = t₂.withReceiveOf t₁ := calc
    _ = (s.withReceiveOf t₁).withTransmitOf t₂ := congrArg (State.withTransmitOf · t₂) hw₁
    _ = (s.withTransmitOf t₂).withReceiveOf t₁ := rfl
    _ = _ := congrArg (State.withReceiveOf · t₁) hw₂.symm
  refine ⟨t₁, t₂, t₂.withReceiveOf t₁, h₁, ?_, ?_, h₂, ?_, ?_⟩
  · exact (congrArg isrTxEnabled hw₁).trans htx
  · exact (congrArg isrTx hw₁).trans (isrTx_withReceiveOf h₂ t₁)
  · exact (congrArg isrRxEnabled hw₂).trans hrx
  · exact hmeet ▸ (congrArg isrRx hw₂).trans (isrRx_withTransmitOf hq h₁ t₂)

end Sys2Proof.Machine
end

section
/-! The two units: neither's operations write the other's state, and the bus engine does not read `gie`
(40_bus_engine.md, 41_transport.md, 60_exceptions.md R249, 70_reset_and_hazards.md R287, R298). -/

namespace Sys2Proof.Machine

variable {i : Instr} {s t : State}

/-! ### What the operations write -/

/-- A bus operation writes the session, the bus hardware, the position, `fg.b`, the results and the fault record. -/
theorem MicroStep.transport_kept (h : MicroStep s i t) (hbus : isBusOp i) :
    t.ut = s.ut ∧ t.uh = s.uh ∧ t.wire = s.wire ∧ t.gie = s.gie ∧ t.refused = s.refused ∧ t.sched = s.sched ∧
      t.fg.n = s.fg.n ∧ t.fg.h = s.fg.h ∧ t.fg.sv = s.fg.sv := by
  cases h with
  | uartDisable | uartSetDivisor | uartResetRings | uartEnable | sendNext | sendRoom | sendStore | sendPublish | sendPump
  | available | receiveHead | receiveByte | received | flushHead | flushed | irqDisable | irqEnable => exact hbus.elim
  | _ => exact ⟨rfl, rfl, rfl, rfl, rfl, rfl, rfl, rfl, rfl⟩

/-- A transport operation writes the rings, the UART's enables, receive register and divisor, the foreground's own state and
the fault record. -/
theorem MicroStep.bus_kept (h : MicroStep s i t) (huart : isTransportOp i) :
    t.be = s.be ∧ t.bh = s.bh ∧ t.wire = s.wire ∧ t.gie = s.gie ∧ t.refused = s.refused ∧ t.sched = s.sched ∧
      t.uh.txReg = s.uh.txReg ∧ t.uh.hwOvr = s.uh.hwOvr := by
  cases h with
  | busBegin | writeStart | writeStarted | writeAddress | writeAddressTrigger | writeAddressed | writeData
  | writeDataTrigger | written | readStart | readStarted | readAddress | readAddressTrigger | readAddressed | readCount
  | readAck | readNack | read | stopTrigger | stopped | irqDisable | irqEnable => exact huart.elim
  | _ => exact ⟨rfl, rfl, rfl, rfl, rfl, rfl, rfl, rfl⟩

/-- Settles O51: of the operations' micro-steps only the raise and the poll in vain are in both units. -/
theorem unitsLeaveEachOtherAlone : Obligations.UnitsLeaveEachOtherAlone := fun _ _ _ h =>
  ⟨(exec_next h).transport_kept, (exec_next h).bus_kept⟩

/-! ### The bus engine does not read `gie` -/

/-- The state with a value of `gie`. -/
def State.setGie (g : Bool) (s : State) : State := { s with gie := g }

@[simp] theorem setGie_fg (g : Bool) (s : State) : (s.setGie g).fg = s.fg := rfl
@[simp] theorem setGie_params (g : Bool) (s : State) : (s.setGie g).params = s.params := rfl

/-- The same of what a step answers. -/
def setGieResult (g : Bool) : Result → Result
  | .next s => .next (s.setGie g)
  | .fault f => .fault f
  | .refused r => .refused r

theorem setGieResult_ite (g : Bool) (P : Prop) [Decidable P] {k k' l l' : Result} (hk : k' = setGieResult g k)
    (hl : l' = setGieResult g l) : (if P then k' else l') = setGieResult g (if P then k else l) := by
  split
  · exact hk
  · exact hl

theorem holdUntil_setGie (g P : Bool) {k k' : Result} (hk : k' = setGieResult g k) :
    holdUntil P (s.setGie g) k' = setGieResult g (holdUntil P s k) := setGieResult_ite g _ hk rfl

theorem busGuard_setGie (g : Bool) (op : Mnemonic) (ok : Bool) {k k' : Result} (hk : k' = setGieResult g k) :
    busGuard op ok (s.setGie g) k' = setGieResult g (busGuard op ok s k) :=
  setGieResult_ite g _ rfl (setGieResult_ite g _ hk rfl)

theorem execBusBegin_setGie (g : Bool) (v : Val24) (s : State) :
    execBusBegin v (s.setGie g) = setGieResult g (execBusBegin v s) := by
  unfold execBusBegin
  rw [setGie_fg, setGie_params]
  cases s.fg.ms with
  | fetch =>
    refine setGieResult_ite g _ ?_ rfl
    cases busDivisor s.params v <;> rfl
  | _ => rfl

/-- Setting `gie` before a bus operation's micro-step or after it gives the same. -/
theorem exec_setGie (hbus : isBusOp i) (g : Bool) (s : State) :
    exec i (s.setGie g) = setGieResult g (exec i s) := by
  cases i with
  | busBegin v => exact execBusBegin_setGie g v s
  | busBeginTx a =>
    simp only [exec, execBusBeginTx, setGie_fg]
    cases s.fg.ms with
    | fetch => exact busGuard_setGie g _ _ rfl
    | bt1 | bt4 => exact holdUntil_setGie g _ rfl
    | _ => rfl
  | busWrite d =>
    simp only [exec, execBusWrite, setGie_fg]
    cases s.fg.ms with
    | fetch => exact busGuard_setGie g _ _ rfl
    | w2 => exact holdUntil_setGie g _ rfl
    | _ => rfl
  | busRequestFrom a count =>
    simp only [exec, execBusRequestFrom, setGie_fg]
    cases s.fg.ms with
    | fetch => exact busGuard_setGie g _ _ rfl
    | rq1 | rq4 => exact holdUntil_setGie g _ rfl
    | _ => rfl
  | busRead =>
    simp only [exec, execBusRead, setGie_fg]
    cases s.fg.ms with
    | fetch => exact busGuard_setGie g _ _ rfl
    | d1 => exact setGieResult_ite g _ rfl rfl
    | d2 => exact holdUntil_setGie g _ rfl
    | _ => rfl
  | busEndTx =>
    simp only [exec, execBusEndTx, setGie_fg]
    cases s.fg.ms with
    | fetch => exact busGuard_setGie g _ _ rfl
    | e1 => exact holdUntil_setGie g _ rfl
    | _ => rfl
  | _ => exact hbus.elim

/-- Settles O52: a micro-step that does not read `gie` answers the same with it set. -/
theorem busOperationsIgnoreGie : Obligations.BusOperationsIgnoreGie := fun _ s g hbus =>
  ⟨fun _ h => (exec_setGie hbus g s).trans (congrArg (setGieResult g) h),
    fun _ h => (exec_setGie hbus g s).trans (congrArg (setGieResult g) h)⟩

end Sys2Proof.Machine
end

section
/-! The minimal boot sequence (70_reset_and_hazards.md R289). -/

namespace Sys2Proof.Machine

variable {s : State} {v : Val24} {div : Nat}

/-- U1 in any launch, a well-formed one or not: the register holds what it can of the divisor (log 13). -/
theorem exec_uartBegin_u1_divRegister (hms : s.fg.ms = .u1) (hdiv : uartDivisor s.params v = some div) :
    exec (.uartBegin v) s = .next { s with uh.div := divRegister s.params div, fg.ms := .u2 } := by
  simp only [exec, execUartBegin, hms, hdiv, goto]

theorem exec_irqEnable_fetch (hms : s.fg.ms = .fetch) :
    exec .irqEnable s = .next { s with gie := true, fg.pc := s.fg.pc + 1, fg.ms := .fetch } :=
  writeGie_fetch true hms

/-- The words of R289 are the encodings of its three operations. -/
theorem currentInstr_of_boot {i : Instr} {more : List Word}
    (hprog : s.program = 0x10000064 :: 0x20002580 :: 0x31000000 :: more)
    (hi : [.busBegin 100, .uartBegin 9600, .irqEnable][s.fg.pc]? = some i) : currentInstr s = some i := by
  refine currentInstr_of_word ?_ (decodeWord_encode i)
  have hwords : s.program = [.busBegin 100, .uartBegin 9600, .irqEnable].map encode ++ more := hprog
  have hword : ([.busBegin 100, .uartBegin 9600, .irqEnable].map encode)[s.fg.pc]? = some (encode i) := by
    rw [List.getElem?_map, hi, Option.map_some]
  rw [hwords, List.getElem?_append_left (List.getElem?_eq_some_iff.1 hword).1, hword]

/-- Settles O39: both units accept their configuration, so the three operations pass through their six labels. -/
theorem bootSequenceStartsBothUnits : Obligations.BootSequenceStartsBothUnits := by
  intro l more rest hprog hbus huart hsched
  obtain ⟨d, hd⟩ : ∃ d, busDivisor l.params 100 = some d :=
    Option.ne_none_iff_exists'.1 fun hnone => busDivisor_eq_none_iff.1 hnone hbus
  obtain ⟨div, hdiv⟩ : ∃ div, uartDivisor l.params 9600 = some div :=
    Option.ne_none_iff_exists'.1 fun hnone => uartDivisor_eq_none_iff.1 hnone huart
  refine ⟨_,
    Eq.trans (runSteps_fg rfl hsched (currentInstr_of_boot hprog rfl) (exec_busBegin_fetch rfl (.inl rfl) hd)) <|
    Eq.trans (runSteps_fg rfl rfl (currentInstr_of_boot hprog rfl) (exec_uartBegin_fetch rfl huart)) <|
    Eq.trans (runSteps_fg rfl rfl (currentInstr_of_boot hprog rfl) (exec_uartBegin_u1_divRegister rfl hdiv)) <|
    Eq.trans (runSteps_fg rfl rfl (currentInstr_of_boot hprog rfl) (exec_uartBegin_u2 rfl)) <|
    Eq.trans (runSteps_fg rfl rfl (currentInstr_of_boot hprog rfl) (exec_uartBegin_u3 rfl)) <|
    runSteps_fg rfl rfl (currentInstr_of_boot hprog rfl) (exec_irqEnable_fetch rfl),
    rfl, rfl, rfl, rfl, rfl, rfl, rfl, rfl, rfl, rfl⟩

end Sys2Proof.Machine
end
